-- ==== Sys2Proof/Word.lean ====
section
/-! DEFINITION. The two word types of the encoder: the data byte and the 32-bit command word.
Bit 0 is the least significant bit of either (spec/00_scope.md R9). -/

namespace Sys2Proof

/-- The one data item that moves through the hardware, "one byte (8 bits)" (20_memory.md R47). -/
abbrev Byte := BitVec 8

/-- A command word (30_encoding.md R61); it has no byte-wise view (20_memory.md R53). -/
abbrev Word := BitVec 32

end Sys2Proof
end

