-- ==== Sys2Proof/Syntax.lean ====
section
/-! DEFINITION. The thirteen commands (30_encoding.md R66, opcode_table.json) as one inductive. -/

namespace Sys2Proof

/-- "an ordered triple of 8-bit intensities (red, green, blue)" (00_scope.md section 5). -/
structure Pixel where
  red   : Byte
  green : Byte
  blue  : Byte
deriving DecidableEq, Repr

/-- The commands, in the order of the opcode map (R66). -/
inductive Instr where
  /-- 0x01 SH_CFG, format Z (40_shifter.md R75). -/
  | shCfg
  /-- 0x02 SH_XFER, format B (40_shifter.md R76). -/
  | shXfer (byte : Byte)
  /-- 0x03 TM_CFG, format Z (41_timer.md R88). -/
  | tmCfg
  /-- 0x04 TM_ARM, format Z (41_timer.md R89). -/
  | tmArm
  /-- 0x05 TM_STOP, format Z (41_timer.md R91). -/
  | tmStop
  /-- 0x06 LC_CFG, format Z (42_combiner.md R110). -/
  | lcCfg
  /-- 0x08 IRQ_OFF, format Z (43_facade.md R122). -/
  | irqOff
  /-- 0x09 IRQ_ON, format Z (43_facade.md R123). -/
  | irqOn
  /-- 0x0A LATCH, format Z (43_facade.md R124). -/
  | latch
  /-- 0x10 BEGIN, format Z (43_facade.md R115). -/
  | begin
  /-- 0x11 WRITE, format P, operands in the public API's order (43_facade.md R119). -/
  | write (red green blue : Byte)
  /-- 0x12 WRITE_ALL, format N, the pixels in sequence order (43_facade.md R125). -/
  | writeAll (pixels : List Pixel)
  /-- 0x13 SEND, format B (43_facade.md R117). -/
  | send (byte : Byte)
deriving DecidableEq, Repr

end Sys2Proof
end

