-- ==== Sys2Proof/WellFormed.lean ====
section
/-! DEFINITION. Which commands the encoding can carry. The only bound is the 24-bit pixel count of
format N (30_encoding.md R65); every byte operand is legal ("any byte value 0–255 is valid"). -/

namespace Sys2Proof

/-- The largest pixel count: "`n`, 0 to 16,777,215" (30_encoding.md R65). -/
def maxPixels : Nat := 16777215

/-- The command can be encoded (R62 to R65). -/
def Instr.wellFormed : Instr → Bool
  | .writeAll pixels => decide (pixels.length ≤ maxPixels)
  | .shCfg | .shXfer _ | .tmCfg | .tmArm | .tmStop | .lcCfg | .irqOff | .irqOn | .latch
  | .begin | .write _ _ _ | .send _ => true

end Sys2Proof
end

