-- ==== Sys2Proof/Decode.lean ====
section
/-! DEFINITION. The decoder and the encoder of command words (30_encoding.md R61 to R69), and the
host's reading of a row of spec/opcode_table.json. -/

namespace Sys2Proof

/-- The four command formats (30_encoding.md R62 to R65). -/
inductive Format where
  | Z | B | P | N
deriving DecidableEq, Repr

/-- The assigned opcodes (30_encoding.md R66). -/
inductive Opcode where
  | shCfg | shXfer | tmCfg | tmArm | tmStop | lcCfg | irqOff | irqOn | latch
  | begin | write | writeAll | send
deriving DecidableEq, Repr

/-- The opcode column of R66. -/
def opcodeValue : Opcode → BitVec 8
  | .shCfg => 0x01#8
  | .shXfer => 0x02#8
  | .tmCfg => 0x03#8
  | .tmArm => 0x04#8
  | .tmStop => 0x05#8
  | .lcCfg => 0x06#8
  | .irqOff => 0x08#8
  | .irqOn => 0x09#8
  | .latch => 0x0A#8
  | .begin => 0x10#8
  | .write => 0x11#8
  | .writeAll => 0x12#8
  | .send => 0x13#8

/-- The format column of R66. -/
def opcodeFormat : Opcode → Format
  | .shXfer | .send => .B
  | .write => .P
  | .writeAll => .N
  | .shCfg | .tmCfg | .tmArm | .tmStop | .lcCfg | .irqOff | .irqOn | .latch | .begin => .Z

/-- Every row of R66, in its order. -/
def allOpcodes : List Opcode :=
  [.shCfg, .shXfer, .tmCfg, .tmArm, .tmStop, .lcCfg, .irqOff, .irqOn, .latch,
   .begin, .write, .writeAll, .send]

/-- The row an opcode value names; none where R66 assigns it to no command (R68). -/
def opcodeOf (v : BitVec 8) : Option Opcode :=
  allOpcodes.find? (fun o => opcodeValue o == v)

/-- Bits 31:24 of a header, the opcode; of a payload word, must be 0 (R61, R65). -/
def fieldOpcode (w : Word) : BitVec 8 := w.extractLsb' 24 8

/-- Bits 23:0 of a header, the operand field (R61). -/
def fieldOperand (w : Word) : BitVec 24 := w.extractLsb' 0 24

/-- `byte = word[7:0]` (R67). -/
def fieldByte (w : Word) : Byte := w.extractLsb' 0 8

/-- Bits 23:8, which format B marks "must be 0" (R63). -/
def fieldZeroB (w : Word) : BitVec 16 := w.extractLsb' 8 16

/-- `red = word[23:16]` (R67). -/
def fieldRed (w : Word) : Byte := w.extractLsb' 16 8

/-- `green = word[15:8]` (R67). -/
def fieldGreen (w : Word) : Byte := w.extractLsb' 8 8

/-- `blue = word[7:0]` (R67). -/
def fieldBlue (w : Word) : Byte := w.extractLsb' 0 8

/-- `n = word[23:0]` (R67). -/
def fieldCount (w : Word) : Nat := (fieldOperand w).toNat

/-- The pixel a word carries (R64, R65). -/
def fieldPixel (w : Word) : Pixel :=
  { red := fieldRed w, green := fieldGreen w, blue := fieldBlue w }

/-- What the decoder finds at the head of a stream of command words. -/
inductive Decoded where
  /-- A command and the words after it. -/
  | ok (i : Instr) (rest : List Word)
  /-- `refuse(ReservedEncoding)`: the word that R68 reserves. -/
  | reserved (w : Word)
  /-- `refuse(TruncatedPayload)`: the WRITE_ALL header whose payload the stream cuts short (R68). -/
  | truncated (header : Word)
  /-- The stream is empty. -/
  | noWord
deriving DecidableEq, Repr

/-- The `n` payload words of a WRITE_ALL (R65), and the words after them. "A payload word is data, not
a command"; one whose bits 31:24 are not 0 is reserved (R68). DESIGN CHOICE (log 24): the words are read
in stream order, so of a payload that holds a reserved word and is also cut short, to which R68 and R157
give two reasons without a precedence, the reserved word is reported. -/
def decodePayload (header : Word) : Nat → List Word → List Pixel → Decoded
  | 0, rest, acc => .ok (.writeAll acc.reverse) rest
  | _ + 1, [], _ => .truncated header
  | n + 1, w :: rest, acc =>
    if fieldOpcode w = 0#8 then decodePayload header n rest (fieldPixel w :: acc)
    else .reserved w

/-- A format Z command: bits 23:0 must be 0 (R62). -/
def decodeZ (i : Instr) (w : Word) (rest : List Word) : Decoded :=
  if fieldOperand w = 0#24 then .ok i rest else .reserved w

/-- A format B command: bits 23:8 must be 0 (R63). -/
def decodeB (i : Byte → Instr) (w : Word) (rest : List Word) : Decoded :=
  if fieldZeroB w = 0#16 then .ok (i (fieldByte w)) rest else .reserved w

/-- The command whose header is `w`, with opcode row `o` (R62 to R66). -/
def decodeAs (o : Opcode) (w : Word) (rest : List Word) : Decoded :=
  match o with
  | .shCfg => decodeZ .shCfg w rest
  | .shXfer => decodeB .shXfer w rest
  | .tmCfg => decodeZ .tmCfg w rest
  | .tmArm => decodeZ .tmArm w rest
  | .tmStop => decodeZ .tmStop w rest
  | .lcCfg => decodeZ .lcCfg w rest
  | .irqOff => decodeZ .irqOff w rest
  | .irqOn => decodeZ .irqOn w rest
  | .latch => decodeZ .latch w rest
  | .begin => decodeZ .begin w rest
  | .write => .ok (.write (fieldRed w) (fieldGreen w) (fieldBlue w)) rest
  | .writeAll => decodePayload w (fieldCount w) rest []
  | .send => decodeB .send w rest

/-- The first command of a stream of command words (R61, R66, R68, R69). Total. -/
def decode : List Word → Decoded
  | [] => .noWord
  | w :: rest =>
    match opcodeOf (fieldOpcode w) with
    | some o => decodeAs o w rest
    | none => .reserved w

/-- How many words the command with this header has (R69). -/
def commandLength (header : Word) : Nat :=
  if fieldOpcode header = 0x12#8 then 1 + fieldCount header else 1

/-! ### The encoder, written from the same tables -/

/-- A header: opcode in bits 31:24, operand field in bits 23:0 (R61). -/
def headerWord (o : Opcode) (operand : BitVec 24) : Word := opcodeValue o ++ operand

/-- A pixel operand: red 23:16, green 15:8, blue 7:0 (R64). -/
def packPixel (red green blue : Byte) : BitVec 24 := red ++ green ++ blue

/-- A payload word: bits 31:24 are 0 (R65). -/
def payloadWord (p : Pixel) : Word := 0#8 ++ packPixel p.red p.green p.blue

/-- The words of a command (R62 to R66). -/
def encode : Instr → List Word
  | .shCfg => [headerWord .shCfg 0#24]
  | .shXfer byte => [headerWord .shXfer (0#16 ++ byte)]
  | .tmCfg => [headerWord .tmCfg 0#24]
  | .tmArm => [headerWord .tmArm 0#24]
  | .tmStop => [headerWord .tmStop 0#24]
  | .lcCfg => [headerWord .lcCfg 0#24]
  | .irqOff => [headerWord .irqOff 0#24]
  | .irqOn => [headerWord .irqOn 0#24]
  | .latch => [headerWord .latch 0#24]
  | .begin => [headerWord .begin 0#24]
  | .write red green blue => [headerWord .write (packPixel red green blue)]
  | .writeAll pixels =>
    headerWord .writeAll (BitVec.ofNat 24 pixels.length) :: pixels.map payloadWord
  | .send byte => [headerWord .send (0#16 ++ byte)]

/-! ### The host's reading of a table row -/

/-- The words of an instruction whose bits are `w`, numbered as spec/opcode_table.json numbers them:
word `k` is bits `32k+31` to `32k`; the bits above `nbits` are 0, up to the length the header gives. -/
def tableWords (nbits w : Nat) : List Word :=
  let given := (List.range (max 1 ((nbits + 31) / 32))).map
    (fun k => BitVec.ofNat 32 ((w % 2 ^ nbits) >>> (32 * k)))
  given ++ List.replicate (commandLength (given.headD 0#32) - given.length) 0#32

/-- The instruction the decoder reads from a table row's bits. -/
def decodeTableWord (nbits w : Nat) : Option Instr :=
  match decode (tableWords nbits w) with
  | .ok i _ => some i
  | .reserved _ => none
  | .truncated _ => none
  | .noWord => none

end Sys2Proof
end

