-- ==== Sys2Proof/Config.lean ====
section
/-! DEFINITION. The configuration record `Cfg` (00_scope.md R5, R7, R8), its reference value, and the
free values: opaque constants without a body, of which nothing can be proved. -/

namespace Sys2Proof

/-- The parameters "that the model takes as an argument" (00_scope.md section 3). They are natural
numbers, so that a value outside its legal range can be written down and refused (R6). -/
structure Cfg where
  /-- `F_SYS`, Hz, a positive integer (R5, D32). No rule of the state machine reads it; the check of
  `Cfg` does. -/
  fSys       : Nat
  /-- `N_BIT`, ticks per serial bit cell (R5). -/
  nBit       : Nat
  /-- `CKPH`, the clock phase (R5): `false` is 0, `true` is 1. -/
  ckph       : Bool
  /-- `T_TOP`, last counter value of one timer period (R5). -/
  tTop       : Nat
  /-- `T_CMP`, the compare value (R5). -/
  tCmp       : Nat
  /-- `TWEAK`, the tweak factor (R5), OPEN in the spec (D14). -/
  tweak      : Nat
  /-- `LATCH_TICKS`, the latch delay (R5). -/
  latchTicks : Nat
  /-- `RESET_TICKS`, the frame terminator, `ceil(50 µs * F_SYS)` (R5). -/
  resetTicks : Nat
  /-- `LUT_MASK`, truth table of the mask cell (R7). -/
  lutMask    : Byte
  /-- `LUT_FINAL`, truth table of the final cell (R7). -/
  lutFinal   : Byte
  /-- `L_MAX`, bound of every host delay while interrupts are disabled (R8), OPEN in the spec (D22). -/
  lMax       : Nat
deriving DecidableEq, Repr

namespace Config

/-- The byte SH_RX receives at the bit-cell end of a tick: `draw(8 bits)` (40_shifter.md R77, U4).
DESIGN CHOICE (log 3): applied to the tick number. -/
opaque freeRx : Nat → Byte

/-- What HOST_IDLE becomes at a tick of a wait (44_machine_step.md R134 d, R40).
DESIGN CHOICE (log 4): applied to the tick number. -/
opaque freeIdle : Nat → Bool

/-- OUT while the host idles with the combiner's standby operation off: "one free bit per tick"
(42_combiner.md R111, U5). DESIGN CHOICE (log 5): applied to the tick number. -/
opaque freeOut : Nat → Bool

/-- The ticks the host lets pass after a command, where no delay is given in advance
(44_machine_step.md R136, U14). DESIGN CHOICE (log 6): applied to the number of commands applied. -/
opaque freeDelay : Nat → Nat

/-- SH_RX right after reset: "unspecified" (10_state.md R45). DESIGN CHOICE (log 3). -/
opaque rxAtReset : Byte

/-- The value of `L_MAX` in the reset state; the spec gives none (R8, D22). DESIGN CHOICE (log 2). -/
opaque lMaxAtReset : Nat

/-- The reference configuration of R5 and R7. `tweak` is the value "the worked examples of this spec
use" (DESIGN CHOICE, log 1: the source gives none); `lMax` is a free value (log 2). -/
def reference : Cfg :=
  { fSys := 16000000, nBit := 16, ckph := false, tTop := 15, tCmp := 4, tweak := 10,
    latchTicks := 1600, resetTicks := 800, lutMask := 0xF0#8, lutFinal := 0xE0#8,
    lMax := lMaxAtReset }

end Config

end Sys2Proof
end

