-- ==== Sys2Proof/Machine/State.lean ====
section
/-! DEFINITION. The machine configuration of 44_machine_step.md R132 as plain data: the state record of
10_state.md, the tick number, the part of the command stream not yet applied, the pending wait and the
recorded trace; with them the configuration and the host's delays, which the spec gives the step
relation (10_state.md R44). One-bit fields are `Bool`, `true` standing for 1. -/

namespace Sys2Proof.Machine

/-- Why the hardware stops: never. "The hardware raises no synchronous exception" and "the complete
list is empty" (60_exceptions.md R153, R154), so the type has no value and no step answers a fault. -/
inductive Fault where
deriving DecidableEq, Repr

/-- Why the model gives a command stream no meaning: the closed list of 60_exceptions.md R157, each
naming the offending command. Every one is safe: the model stops where the spec says it refuses. -/
inductive Refusal where
  /-- An instruction without a meaning. No arm of exec raises it in this model. Safe. -/
  | notModelled (mnemonic : String)
  /-- `ReservedEncoding`: raised by the decoder on the word that 30_encoding.md R68 reserves. Safe. -/
  | reservedEncoding (w : Word)
  /-- `TruncatedPayload`: raised by the decoder on the WRITE_ALL whose payload is cut short. Safe. -/
  | truncatedPayload (header : Word)
  /-- `BeginTwice`: raised by BEGIN with BEGUN = 1 (43_facade.md R115, R116). Safe. -/
  | beginTwice
  /-- `WriteBeforeBegin`: raised by WRITE and WRITE_ALL with BEGUN = 0 (43_facade.md R119, R125). Safe. -/
  | writeBeforeBegin (i : Instr)
  /-- `SendBeforeBegin`: raised by SEND with BEGUN = 0 (43_facade.md R117). Safe. -/
  | sendBeforeBegin (i : Instr)
  /-- `ConfigWhileBusy`: raised by SH_CFG, TM_CFG and LC_CFG with SH_BUSY = 1 (40_shifter.md R75). Safe. -/
  | configWhileBusy (i : Instr)
  /-- `BadCfg`: raised by every step under a `Cfg` that fails 00_scope.md R6, or a legal value of R5
  (log 15). Safe. -/
  | badCfg
deriving DecidableEq, Repr

/-- The Serial Shifter's fields (10_state.md R16 to R27). -/
structure Shifter where
  /-- SH_EN (R16). -/
  en     : Bool
  /-- SH_MSTR (R17). -/
  mstr   : Bool
  /-- SH_DORD (R18): `false` is most significant bit first. -/
  dord   : Bool
  /-- SH_CKPH (R19). -/
  ckph   : Bool
  /-- SH_DIV (R20). -/
  div    : Byte
  /-- SH_SHIFT, transmit register and shift register in one (R21). -/
  shift  : Byte
  /-- SH_RX (R22). -/
  rx     : Byte
  /-- SH_BITCNT (R23). -/
  bitcnt : BitVec 4
  /-- SH_PHASE (R24). -/
  phase  : Byte
  /-- SH_BUSY (R25). -/
  busy   : Bool
  /-- SH_IF, the completion flag (R26). -/
  iflag  : Bool
  /-- SH_WCOL, the collision flag (R27). -/
  wcol   : Bool
deriving DecidableEq, Repr

/-- The Pulse Timer's fields (10_state.md R28 to R32). -/
structure Timer where
  /-- TM_MODE (R28). -/
  mode : Bool
  /-- TM_TOP (R29). -/
  top  : Byte
  /-- TM_CMP (R30). -/
  cmp  : Byte
  /-- TM_CNT (R31). -/
  cnt  : Byte
  /-- TM_RUN (R32). -/
  run  : Bool
deriving DecidableEq, Repr

/-- The Logic Combiner's fields (10_state.md R33 to R37); its input routing is no state (R38). -/
structure Combiner where
  /-- LC_EN (R33). -/
  en       : Bool
  /-- LC_RUNSTDBY (R34). -/
  runstdby : Bool
  /-- LC_OUTEN (R35). -/
  outen    : Bool
  /-- LC_LUT0, the mask cell's truth table (R36). -/
  lut0     : Byte
  /-- LC_LUT1, the final cell's truth table (R37). -/
  lut1     : Byte
deriving DecidableEq, Repr

/-- The host's pending wait (44_machine_step.md R132). -/
inductive Wait where
  | none
  /-- `XferWait`: until SH_IF = 1 (40_shifter.md R76). -/
  | xfer
  /-- `LatchWait(k)`, "with `k` ticks still owed" (R132). -/
  | latch (k : Nat)
deriving DecidableEq, Repr

/-- A command of an expansion that is still to be applied (30_encoding.md R71). `endsBegin` marks the
last command of BEGIN's expansion, after which BEGUN becomes 1 (43_facade.md R115). -/
structure QueueItem where
  cmd       : Instr
  endsBegin : Bool
deriving DecidableEq, Repr

/-- `Signals(State)` at one tick (44_machine_step.md R133). -/
structure Sample where
  sck : Bool
  sdo : Bool
  wo  : Bool
  m   : Bool
  out : Bool
deriving DecidableEq, Repr

/-- The whole machine (44_machine_step.md R132). -/
structure State where
  /-- The fixed parameter `Cfg`; no step writes it. -/
  cfg       : Cfg
  /-- Serial Shifter. -/
  sh        : Shifter
  /-- Pulse Timer. -/
  tm        : Timer
  /-- Logic Combiner. -/
  lc        : Combiner
  /-- IE (10_state.md R39). -/
  ie        : Bool
  /-- HOST_IDLE (10_state.md R40). -/
  hostIdle  : Bool
  /-- BEGUN, the ghost field (10_state.md R41). -/
  begun     : Bool
  /-- The current tick number (R132). -/
  t         : Nat
  /-- The pending wait (R132). -/
  wait      : Wait
  /-- Front of `rest`: what is left of the composites being carried out (R135). -/
  queue     : List QueueItem
  /-- The rest of `rest`: the command words not yet read (30_encoding.md R61). -/
  stream    : List Word
  /-- The model's own: the host's delays given in advance, first one first (R118; log 6). -/
  delays    : List Nat
  /-- The model's own: ticks the host still lets pass before its next command (R136; log 6). -/
  hostDelay : Nat
  /-- The model's own: how many commands have been applied, the counter of free delays (log 6). -/
  applied   : Nat
  /-- The recorded trace, one sample per past tick, NEWEST FIRST (R132; log 14). -/
  trace     : List Sample
deriving DecidableEq, Repr

/-- The state after reset (10_state.md R45, 70_reset_and_hazards.md R172). `cfg` is the reference
configuration (log 1, 2), SH_RX a free value (log 3), the host's own fields log 6. -/
def State.reset : State :=
  { cfg := Config.reference
    sh := { en := false, mstr := false, dord := false, ckph := false, div := 0x00#8,
            shift := 0x00#8, rx := Config.rxAtReset, bitcnt := 0#4, phase := 0x00#8,
            busy := false, iflag := false, wcol := false }
    tm := { mode := false, top := 0x00#8, cmp := 0x00#8, cnt := 0x00#8, run := false }
    lc := { en := false, runstdby := false, outen := false, lut0 := 0x00#8, lut1 := 0x00#8 }
    ie := true
    hostIdle := false
    begun := false
    t := 0
    wait := .none
    queue := []
    stream := []
    delays := []
    hostDelay := 0
    applied := 0
    trace := [] }

/-! ### Updates, each with its lemmas in Sys2Proof/Laws/State.lean -/

def State.setShifter (s : State) (sh : Shifter) : State := { s with sh := sh }
def State.setTimer (s : State) (tm : Timer) : State := { s with tm := tm }
def State.setCombiner (s : State) (lc : Combiner) : State := { s with lc := lc }
def State.setIe (s : State) (b : Bool) : State := { s with ie := b }
def State.setBegun (s : State) (b : Bool) : State := { s with begun := b }
def State.setWait (s : State) (w : Wait) : State := { s with wait := w }
def State.setQueue (s : State) (q : List QueueItem) : State := { s with queue := q }
def State.setStream (s : State) (ws : List Word) : State := { s with stream := ws }

/-- `rest` with the commands of an expansion put in front of it (44_machine_step.md R135). -/
def State.prepend (s : State) (items : List QueueItem) : State :=
  { s with queue := items ++ s.queue }

/-- The OUT component of the trace, oldest first: "The observation of a run" (44_machine_step.md R137). -/
def State.outTrace (s : State) : List Bool := (s.trace.map Sample.out).reverse

end Sys2Proof.Machine
end

