-- ==== Sys2Proof/Machine/Flags.lean ====
section
/-! DEFINITION. The shifter's status flags SH_WCOL, SH_BUSY and SH_IF: every rule that sets or clears
one (10_state.md R25 to R27). -/

namespace Sys2Proof.Machine

/-- Step 1 of SH_XFER: "clear the collision flag" (40_shifter.md R76). -/
def clearCollision (sh : Shifter) : Shifter := { sh with wcol := false }

/-- Step 2 of SH_XFER: a write of the transmit register (40_shifter.md R76). Enabled and idle, it
starts a transfer and clears SH_IF; enabled and busy, it sets SH_WCOL and the byte is dropped (R82);
disabled, it is ignored (R83). -/
def writeTransmit (byte : Byte) (sh : Shifter) : Shifter :=
  if sh.en then
    if sh.busy then { sh with wcol := true }
    else { sh with shift := byte, bitcnt := 0#4, phase := 0#8, busy := true, iflag := false }
  else sh

/-- The end of a bit cell with SH_BITCNT still to count: the eighth ends the transfer, so that "the
first state with `SH_BUSY = 0` is the first with `SH_IF = 1`" (40_shifter.md R77, 60_exceptions.md R161 d). -/
def noteCellEnd (sh : Shifter) : Shifter :=
  if sh.bitcnt.toNat + 1 = 8 then { sh with bitcnt := sh.bitcnt + 1, busy := false, iflag := true }
  else { sh with bitcnt := sh.bitcnt + 1 }

end Sys2Proof.Machine
end

