-- ==== Sys2Proof/Machine/Operands.lean ====
section
/-! DEFINITION. What the commands make of their operands: the value TM_ARM loads, the wire order of a
pixel and the expansions of the composites (30_encoding.md R67, R71). -/

namespace Sys2Proof.Machine

/-- The value TM_ARM loads, `(256 - TWEAK) mod 256` (41_timer.md R90). -/
def loadedCount (tweak : Nat) : Byte := BitVec.ofNat 8 ((256 - tweak) % 256)

/-- "green, red, blue per pixel" on the wire (20_memory.md R51, 43_facade.md R120). -/
def wireOrder (p : Pixel) : List Byte := [p.green, p.red, p.blue]

/-- The expansion of a composite into the commands it "is exactly the sequence of" (30_encoding.md R71);
a primitive or host command is its own. -/
def expansion : Instr → List Instr
  | .begin => [.shCfg, .tmCfg, .lcCfg]
  | .send byte => [.tmArm, .shXfer byte, .tmStop]
  | .write red green blue => [.send green, .send red, .send blue]
  | .writeAll pixels =>
    .irqOff :: pixels.map (fun p => .write p.red p.green p.blue) ++ [.irqOn, .latch]
  | .shCfg => [.shCfg]
  | .shXfer byte => [.shXfer byte]
  | .tmCfg => [.tmCfg]
  | .tmArm => [.tmArm]
  | .tmStop => [.tmStop]
  | .lcCfg => [.lcCfg]
  | .irqOff => [.irqOff]
  | .irqOn => [.irqOn]
  | .latch => [.latch]

/-- The primitive and host commands a command comes to in the end: its expansion expanded until no
composite is left (30_encoding.md R71, R72). -/
def primitives : Instr → List Instr
  | .begin => [.shCfg, .tmCfg, .lcCfg]
  | .send byte => [.tmArm, .shXfer byte, .tmStop]
  | .write red green blue =>
    [green, red, blue].flatMap (fun b => [.tmArm, .shXfer b, .tmStop])
  | .writeAll pixels =>
    .irqOff :: pixels.flatMap (fun p =>
      (wireOrder p).flatMap (fun b => [.tmArm, .shXfer b, .tmStop])) ++ [.irqOn, .latch]
  | .shCfg => [.shCfg]
  | .shXfer byte => [.shXfer byte]
  | .tmCfg => [.tmCfg]
  | .tmArm => [.tmArm]
  | .tmStop => [.tmStop]
  | .lcCfg => [.lcCfg]
  | .irqOff => [.irqOff]
  | .irqOn => [.irqOn]
  | .latch => [.latch]

/-- The byte an SH_XFER puts on the wire. -/
def xferByte : Instr → Option Byte
  | .shXfer byte => some byte
  | .shCfg | .tmCfg | .tmArm | .tmStop | .lcCfg | .irqOff | .irqOn | .latch | .begin
  | .write _ _ _ | .writeAll _ | .send _ => none

/-- The bytes a command puts on the wire, in the order of its SH_XFER commands (43_facade.md R120). -/
def wireBytes (i : Instr) : List Byte := (primitives i).filterMap xferByte

/-- A queued command that does not end a BEGIN. -/
def plainItem (i : Instr) : QueueItem := { cmd := i, endsBegin := false }

/-- What a SEND still has to do once its TM_ARM is applied (43_facade.md R117). -/
def afterArm (byte : Byte) : List QueueItem := [plainItem (.shXfer byte), plainItem .tmStop]

/-- What a BEGIN still has to do once its SH_CFG is applied; BEGUN becomes 1 with the last command
(43_facade.md R115). -/
def afterShCfg : List QueueItem := [plainItem .tmCfg, { cmd := .lcCfg, endsBegin := true }]

/-- What a WRITE_ALL still has to do once its IRQ_OFF is applied (43_facade.md R125). -/
def afterIrqOff (pixels : List Pixel) : List QueueItem :=
  pixels.map (fun p => plainItem (.write p.red p.green p.blue)) ++
    [plainItem .irqOn, plainItem .latch]

end Sys2Proof.Machine
end

