-- ==== Sys2Proof/Machine/Signals.lean ====
section
/-! DEFINITION. The five signals, functions of one state (10_state.md R42, 44_machine_step.md R133). -/

namespace Sys2Proof.Machine

/-- SCK, the serial clock (40_shifter.md R78). -/
def sck (sh : Shifter) : Bool :=
  let half := sh.div.toNat / 2
  sh.en && sh.busy &&
    ((!sh.ckph && decide (half ≤ sh.phase.toNat)) || (sh.ckph && decide (sh.phase.toNat < half)))

/-- SDO, the serial data line (40_shifter.md R79). -/
def sdo (sh : Shifter) : Bool := sh.busy && sh.shift.getLsbD 7

/-- WO, the timer pulse; the comparison is unsigned (41_timer.md R93). -/
def wo (tm : Timer) : Bool := tm.run && decide (tm.cnt.toNat < tm.cmp.toNat)

/-- `CellOut(LUT, in2, in1, in0) = LUT[4*in2 + 2*in1 + in0]` (42_combiner.md R101). -/
def cellOut (lut : Byte) (in2 in1 in0 : Bool) : Bool :=
  lut.getLsbD (4 * in2.toNat + 2 * in1.toNat + in0.toNat)

/-- M, the mask cell's output: input 2 is WO, inputs 1 and 0 are constant 0 (42_combiner.md R103, R105). -/
def maskOut (lc : Combiner) (tm : Timer) : Bool := cellOut lc.lut0 (wo tm) false false

/-- OUT, the one-wire output: clock on input 2, data on input 1, pulse on input 0
(42_combiner.md R104, R106). -/
def outPin (s : State) : Bool :=
  if s.lc.en && s.lc.outen then
    if s.hostIdle && !s.lc.runstdby then Config.freeOut s.t
    else cellOut s.lc.lut1 (sck s.sh) (sdo s.sh) (maskOut s.lc s.tm)
  else false

/-- `Signals(State)` (44_machine_step.md R133). -/
def signals (s : State) : Sample :=
  { sck := sck s.sh, sdo := sdo s.sh, wo := wo s.tm, m := maskOut s.lc s.tm, out := outPin s }

/-- The truth table for a wiring with clock, data and pulse on inputs `c`, `d`, `p`: "the set of
indices `i` with `i[c] = 1 and (i[d] = 1 or i[p] = 1)`" (42_combiner.md R112). -/
def derivedLut (c d p : Nat) : Byte :=
  BitVec.ofNat 8
    ((List.range 8).foldl
      (fun acc i => if i.testBit c && (i.testBit d || i.testBit p) then acc + 2 ^ i else acc) 0)

end Sys2Proof.Machine
end

