-- ==== Sys2Proof/Machine/Ops.lean ====
section
/-! DEFINITION. The operations every instruction and the step share: the block updates, the `Tick` step,
and the host's schedule. Taking an exception and returning from one have no operation here, because
there is none (60_exceptions.md R153, R162, R163). -/

namespace Sys2Proof.Machine

/-- What a step or a meaning answers. -/
abbrev Answer := Host.Outcome State Fault Refusal

/-! ### The configuration check -/

/-- `ticks(x µs) = x * F_SYS / 1,000,000` (00_scope.md R11), rounded up (R5, `RESET_TICKS`). -/
def ticksOfMicros (fSys micros : Nat) : Nat := (micros * fSys + 999999) / 1000000

/-- "Constraints between the parameters of rule R5, which a model checks ... and refuses to run if they
fail": (a) to (e) of 00_scope.md R6; then the two legal values of R5 that these leave out, `F_SYS`
positive and `RESET_TICKS = ceil(50 µs * F_SYS)` (93_implementation_defined.md U12; log 15). -/
def cfgOk (c : Cfg) : Bool :=
  c.nBit % 2 == 0 && decide (4 ≤ c.nBit) && decide (c.nBit ≤ 254) &&
  c.tTop == c.nBit - 1 &&
  decide (1 ≤ c.tCmp) && decide (c.tCmp < c.nBit / 2) &&
  decide (c.resetTicks ≤ c.latchTicks) &&
  decide (c.tweak ≤ 255) &&
  decide (0 < c.fSys) && c.resetTicks == ticksOfMicros c.fSys 50

/-! ### Field writes of the commands -/

/-- The field writes of SH_CFG (40_shifter.md R75). -/
def configureShifter (s : State) : State :=
  s.setShifter { s.sh with
    mstr := true, dord := false, ckph := s.cfg.ckph, div := BitVec.ofNat 8 s.cfg.nBit, en := true }

/-- Steps 1 to 3 of SH_XFER: clear SH_WCOL, write the transmit register, wait (40_shifter.md R76). -/
def startTransfer (byte : Byte) (s : State) : State :=
  (s.setShifter (writeTransmit byte (clearCollision s.sh))).setWait .xfer

/-- The field writes of TM_CFG (41_timer.md R88). -/
def configureTimer (s : State) : State :=
  s.setTimer { s.tm with
    mode := true, top := BitVec.ofNat 8 s.cfg.tTop, cmp := BitVec.ofNat 8 s.cfg.tCmp, run := false }

/-- The field writes of TM_ARM (41_timer.md R89). -/
def armTimer (s : State) : State :=
  s.setTimer { s.tm with cnt := loadedCount s.cfg.tweak, run := true }

/-- The field write of TM_STOP (41_timer.md R91). -/
def stopTimer (s : State) : State := s.setTimer { s.tm with run := false }

/-- The field writes of LC_CFG (42_combiner.md R110). -/
def configureCombiner (s : State) : State :=
  s.setCombiner
    { lut0 := s.cfg.lutMask, lut1 := s.cfg.lutFinal, runstdby := true, outen := true, en := true }

/-- `ConfigWhileBusy`: a configuration command applied while SH_BUSY = 1 is refused
(60_exceptions.md R157); `i` is the offending command. -/
def unlessBusy (i : Instr) (s : State) (effect : State) : Answer :=
  if s.sh.busy then .refused (.configWhileBusy i) else .next effect

/-- The driver's check of the ghost flag: `r` is the refusal with BEGUN = 0 (43_facade.md R129). -/
def ifBegun (r : Refusal) (s : State) (effect : State) : Answer :=
  if s.begun then .next effect else .refused r

/-! ### The `Tick` step -/

/-- The shifter tick rule (40_shifter.md R77); `rx` is the draw of SH_RX. -/
def shifterTick (rx : Byte) (sh : Shifter) : Shifter :=
  if sh.busy then
    if sh.phase.toNat + 1 = sh.div.toNat then
      noteCellEnd { sh with phase := 0#8, shift := sh.shift.extractLsb' 0 7 ++ 0#1, rx := rx }
    else { sh with phase := sh.phase + 1 }
  else sh

/-- The timer tick rule (41_timer.md R92). -/
def timerTick (tm : Timer) : Timer :=
  if tm.run then
    if tm.cnt = tm.top then { tm with cnt := 0#8 } else { tm with cnt := tm.cnt + 1 }
  else tm

/-- Part (c) of the `Tick` step: a latch wait counts down (44_machine_step.md R134). -/
def waitTick : Wait → Wait
  | .latch k => .latch (k - 1)
  | .xfer => .xfer
  | .none => .none

/-- Part (d) of the `Tick` step: HOST_IDLE is free during a wait and 0 otherwise (R134). -/
def idleTick (t : Nat) : Wait → Bool
  | .none => false
  | .xfer => Config.freeIdle t
  | .latch _ => Config.freeIdle t

/-- A wait that is not yet satisfied (44_machine_step.md R135). -/
def waitPending (s : State) : Bool :=
  match s.wait with
  | .none => false
  | .xfer => !s.sh.iflag
  | .latch k => k != 0

/-- `rest` is empty (44_machine_step.md R135). -/
def restEmpty (s : State) : Bool := s.queue.isEmpty && s.stream.isEmpty

/-- A `Cmd` step is enabled: "when `rest` is not empty and no wait is pending" (R135). -/
def cmdEnabled (s : State) : Bool := !restEmpty s && !waitPending s

/-- The `Tick` step (44_machine_step.md R134). While a `Cmd` step is enabled it uses up one tick of the
host's delay (R136). -/
def tick (s : State) : State :=
  { s with
    trace := signals s :: s.trace
    sh := shifterTick (Config.freeRx s.t) s.sh
    tm := timerTick s.tm
    wait := waitTick s.wait
    hostIdle := idleTick s.t s.wait
    t := s.t + 1
    hostDelay := if cmdEnabled s then s.hostDelay - 1 else s.hostDelay }

/-- `n` consecutive `Tick` steps, the `T n` of a script (44_machine_step.md R136). -/
def ticks : Nat → State → State
  | 0, s => s
  | n + 1, s => ticks n (tick s)

/-! ### The `Cmd` step around a meaning -/

/-- The host applies its next command now: a `Cmd` step is enabled and its delay is over. -/
def hostActs (s : State) : Bool := cmdEnabled s && s.hostDelay == 0

/-- "a satisfied wait is cleared to `None` first" (R135); with it the host leaves its idle state,
which "can be 1 only during the wait" (10_state.md R40; log 4). -/
def clearWait (s : State) : State := { s with wait := .none, hostIdle := false }

/-- The first command of `rest` and the state without it, or why there is none. -/
inductive Fetched where
  | cmd (i : Instr) (endsBegin : Bool) (s : State)
  | refuse (r : Refusal)
  | nothing
deriving DecidableEq, Repr

/-- Take the first command of `rest` (44_machine_step.md R135): what is left of an expansion comes
before the stream, whose words are decoded as they are reached (60_exceptions.md R157; log 12).
DESIGN CHOICE (log 25): a command is decoded before BEGUN is looked at, so a WRITE_ALL met with BEGUN = 0
that is also cut short or holds a reserved payload word, to which R157 gives two reasons without a
precedence, is refused for what is wrong with its words. -/
def fetch (s : State) : Fetched :=
  match s.queue with
  | item :: q => .cmd item.cmd item.endsBegin (s.setQueue q)
  | [] =>
    match decode s.stream with
    | .ok i rest => .cmd i false (s.setStream rest)
    | .reserved w => .refuse (.reservedEncoding w)
    | .truncated header => .refuse (.truncatedPayload header)
    | .noWord => .nothing

/-- A host delay under the interrupt switch: any number with IE = 1, at most `L_MAX` with IE = 0
(60_exceptions.md R160). -/
def boundedDelay (s : State) (d : Nat) : Nat := if s.ie then d else min d s.cfg.lMax

/-- The host's delay after a command: the next one given in advance, else a free one (R136; log 6). -/
def drawDelay (s : State) : State :=
  match s.delays with
  | d :: ds => { s with hostDelay := boundedDelay s d, delays := ds, applied := s.applied + 1 }
  | [] =>
    { s with hostDelay := boundedDelay s (Config.freeDelay s.applied), applied := s.applied + 1 }

/-- BEGUN becomes 1 after the last command of BEGIN's expansion (43_facade.md R115). -/
def markBegun (endsBegin : Bool) (s : State) : State := if endsBegin then s.setBegun true else s

/-- The end of a `Cmd` step whose meaning answered `a`. -/
def completeCmd (endsBegin : Bool) (a : Answer) : Answer :=
  match a with
  | .next s => .next (drawDelay (markBegun endsBegin s))
  | .fault r => .fault r
  | .refused r => .refused r

/-! ### Placing a command where the next step fetches it -/

/-- `s` with these words at the front of the stream, nothing before them and no wait or host delay
left, so that the very next step applies the command they encode (log 10). -/
def placeWords (ws : List Word) (s : State) : State :=
  { clearWait s with queue := [], stream := ws ++ s.stream, hostDelay := 0 }

end Sys2Proof.Machine
end

