-- ==== Sys2Proof/Machine/Combiner.lean ====
section
/-! DEFINITION. The Logic Combiner's command (42_combiner.md section 4). -/

namespace Sys2Proof.Machine

/-- LC_CFG (R110). -/
def execLcCfg (s : State) : Answer := unlessBusy .lcCfg s (configureCombiner s)

end Sys2Proof.Machine
end

