-- ==== Sys2Proof/Machine/Facade.lean ====
section
/-! DEFINITION. The driver façade's commands (43_facade.md). A composite is replaced by its expansion
and the first command of the expansion applied, in one `Cmd` step (44_machine_step.md R135; log 8):
the rest of the expansion stands at the front of `queue`. -/

namespace Sys2Proof.Machine

/-- IRQ_OFF (R122). -/
def execIrqOff (s : State) : Answer := .next (s.setIe false)

/-- IRQ_ON (R123). -/
def execIrqOn (s : State) : Answer := .next (s.setIe true)

/-- LATCH (R124). -/
def execLatch (s : State) : Answer := .next (s.setWait (.latch s.cfg.latchTicks))

/-- BEGIN (R115): `SH_CFG; TM_CFG; LC_CFG; BEGUN <- 1`. -/
def execBegin (s : State) : Answer :=
  if s.begun then .refused .beginTwice
  else unlessBusy .shCfg s (configureShifter (s.prepend afterShCfg))

/-- SEND (R117): `TM_ARM; SH_XFER byte; TM_STOP`. -/
def execSend (byte : Byte) (s : State) : Answer :=
  ifBegun (.sendBeforeBegin (.send byte)) s (armTimer (s.prepend (afterArm byte)))

/-- WRITE (R119): `SEND green; SEND red; SEND blue`. -/
def execWrite (red green blue : Byte) (s : State) : Answer :=
  ifBegun (.writeBeforeBegin (.write red green blue)) s
    (armTimer (s.prepend (afterArm green ++ [plainItem (.send red), plainItem (.send blue)])))

/-- WRITE_ALL (R125): `IRQ_OFF; WRITE p1; ...; WRITE pn; IRQ_ON; LATCH`. -/
def execWriteAll (pixels : List Pixel) (s : State) : Answer :=
  ifBegun (.writeBeforeBegin (.writeAll pixels)) s ((s.prepend (afterIrqOff pixels)).setIe false)

end Sys2Proof.Machine
end

