-- ==== Sys2Proof/Machine/Shifter.lean ====
section
/-! DEFINITION. The Serial Shifter's commands (40_shifter.md section 2). -/

namespace Sys2Proof.Machine

/-- SH_CFG (R75). -/
def execShCfg (s : State) : Answer := unlessBusy .shCfg s (configureShifter s)

/-- SH_XFER (R76). -/
def execShXfer (byte : Byte) (s : State) : Answer := .next (startTransfer byte s)

end Sys2Proof.Machine
end

