-- ==== Sys2Proof/Machine/Timer.lean ====
section
/-! DEFINITION. The Pulse Timer's commands (41_timer.md section 2). -/

namespace Sys2Proof.Machine

/-- TM_CFG (R88). -/
def execTmCfg (s : State) : Answer := unlessBusy .tmCfg s (configureTimer s)

/-- TM_ARM (R89). -/
def execTmArm (s : State) : Answer := .next (armTimer s)

/-- TM_STOP (R91). -/
def execTmStop (s : State) : Answer := .next (stopTimer s)

end Sys2Proof.Machine
end

