-- ==== Sys2Proof/Machine/Dispatch.lean ====
section
/-! DEFINITION. Every command's meaning, one arm each, in the order of the opcode map (R66). -/

namespace Sys2Proof.Machine

def exec (i : Instr) (s : State) : Host.Outcome State Fault Refusal :=
  match i with
  | .shCfg => Sys2Proof.Machine.execShCfg s
  | .shXfer byte => Sys2Proof.Machine.execShXfer byte s
  | .tmCfg => Sys2Proof.Machine.execTmCfg s
  | .tmArm => Sys2Proof.Machine.execTmArm s
  | .tmStop => Sys2Proof.Machine.execTmStop s
  | .lcCfg => Sys2Proof.Machine.execLcCfg s
  | .irqOff => Sys2Proof.Machine.execIrqOff s
  | .irqOn => Sys2Proof.Machine.execIrqOn s
  | .latch => Sys2Proof.Machine.execLatch s
  | .begin => Sys2Proof.Machine.execBegin s
  | .write red green blue => Sys2Proof.Machine.execWrite red green blue s
  | .writeAll pixels => Sys2Proof.Machine.execWriteAll pixels s
  | .send byte => Sys2Proof.Machine.execSend byte s

end Sys2Proof.Machine
end

