-- ==== Sys2Proof/Machine/Step.lean ====
section
/-! DEFINITION. One step of the machine: the `Cmd` step where the host acts, else the `Tick` step
(44_machine_step.md R132 to R136), under a configuration that passes the check of `Cfg`. -/

namespace Sys2Proof.Machine

/-- The `Cmd` step (R135), in zero time: `t` does not change and nothing is recorded. With nothing to
fetch, which `hostActs` excludes, a tick passes. -/
def cmdStep (s : State) : Host.Outcome State Fault Refusal :=
  match fetch (clearWait s) with
  | .cmd i endsBegin s' => completeCmd endsBegin (exec i s')
  | .refuse r => .refused r
  | .nothing => .next (tick s)

/-- One step. A `Cfg` that fails the check is refused before the first step (60_exceptions.md R157, R170;
log 15). -/
def step (s : State) : Host.Outcome State Fault Refusal :=
  if cfgOk s.cfg then
    if hostActs s then cmdStep s else .next (tick s)
  else .refused .badCfg

/-- The instruction of a table row, stored where `step` fetches its next instruction: at the front of
the command stream. -/
def State.withFetchWord (s : State) (nbits w : Nat) : State := placeWords (tableWords nbits w) s

end Sys2Proof.Machine
end

