-- ==== Sys2Proof/Machine/Observer.lean ====
section
/-! DEFINITION. The observer, "a function of the recorded trace only, defined for tests"
(44_machine_step.md R148, R149), and the reported predicates on `Cfg` (70_reset_and_hazards.md R192,
R193). None of it is hardware and no step calls it. -/

namespace Sys2Proof.Machine

/-- `Runs(w)`: the maximal runs of equal bits as (value, length), in order (R148). -/
def runs : List Bool → List (Bool × Nat)
  | [] => []
  | b :: bs =>
    match runs bs with
    | [] => [(b, 1)]
    | (c, n) :: rest => if b = c then (c, n + 1) :: rest else (b, 1) :: (c, n) :: rest

/-- The reading of runs with the bits of the current frame so far (R149): the closed frames and the
bits of the unclosed remainder. -/
def decodeRuns (thOne resetTicks : Nat) : List (Bool × Nat) → List Bool → List (List Bool) × List Bool
  | [], cur => ([], cur)
  | (true, n) :: rest, cur => decodeRuns thOne resetTicks rest (cur ++ [decide (thOne ≤ n)])
  | (false, n) :: rest, cur =>
    if resetTicks ≤ n ∧ cur ≠ [] then
      ((cur :: (decodeRuns thOne resetTicks rest []).1), (decodeRuns thOne resetTicks rest []).2)
    else decodeRuns thOne resetTicks rest cur

/-- `Decode(w)` (R149), with the observer's parameter `TH_ONE` (D29). -/
def decodeWave (thOne resetTicks : Nat) (w : List Bool) : List (List Bool) × List Bool :=
  decodeRuns thOne resetTicks (runs w) []

/-- The bits of a byte, most significant first (20_memory.md R50). -/
def byteBits (b : Byte) : List Bool := (List.range 8).map (fun i => b.getLsbD (7 - i))

/-- The bits of a frame: "pixel by pixel in order, `green[7..0], red[7..0], blue[7..0]`" (R150). -/
def frameBits (pixels : List Pixel) : List Bool :=
  pixels.flatMap (fun p => (wireOrder p).flatMap byteBits)

/-- `BitPeriodOK` (R192): |N_BIT * 10^9 / F_SYS - 1250| <= 150, multiplied out by F_SYS (log 20). -/
def bitPeriodOk (c : Cfg) : Bool :=
  decide (1100 * c.fSys ≤ c.nBit * 1000000000) && decide (c.nBit * 1000000000 ≤ 1400 * c.fSys)

/-- `PulseWidthOK` (R193): T0_MIN < T_CMP / F_SYS < T01_SPLIT, the open thresholds in nanoseconds as
arguments, multiplied out by F_SYS (log 20). -/
def pulseWidthOk (t0MinNs t01SplitNs : Nat) (c : Cfg) : Bool :=
  decide (t0MinNs * c.fSys < c.tCmp * 1000000000) &&
    decide (c.tCmp * 1000000000 < t01SplitNs * c.fSys)

end Sys2Proof.Machine
end

