-- ==== Sys2Proof/Safety.lean ====
section
/-! DEFINITION. The terms in which claims speak of runs: how a run ends, what a stuck configuration
is, the invariant of the reachable states, and the premises of the waveform laws. -/

namespace Sys2Proof.Machine

/-- `n` steps of the machine. -/
def runSteps (n : Nat) (s : State) : Answer := Host.Core.run Sys2Proof.core n s

/-- "A run is over when `rest` is empty and no wait is pending" (44_machine_step.md R138). -/
def RunOver (s : State) : Prop := restEmpty s = true ∧ waitPending s = false

/-- "`wait = XferWait`, `SH_BUSY = 0` and `SH_IF = 0`": no `Cmd` step is ever enabled again
(44_machine_step.md R138, 60_exceptions.md R156). -/
def Stuck (s : State) : Prop := s.wait = .xfer ∧ s.sh.busy = false ∧ s.sh.iflag = false

/-- The constraints (a) to (e) of 00_scope.md R6, and the legal values of `F_SYS` and `RESET_TICKS` of R5
(log 15). -/
def CfgLegal (c : Cfg) : Prop :=
  (2 ∣ c.nBit ∧ 4 ≤ c.nBit ∧ c.nBit ≤ 254) ∧ c.tTop = c.nBit - 1 ∧
  (1 ≤ c.tCmp ∧ c.tCmp < c.nBit / 2) ∧ c.resetTicks ≤ c.latchTicks ∧ c.tweak ≤ 255 ∧
  0 < c.fSys ∧ c.resetTicks = ticksOfMicros c.fSys 50

/-! ### The invariant of the reachable states -/

/-- What the shifter's fields keep to (10_state.md R16 to R27): configured exactly as SH_CFG leaves it
or untouched since reset; inside a bit cell exactly while busy; SH_SHIFT empty when idle; SH_BUSY and
SH_IF never both 1; SH_WCOL never set (40_shifter.md R82). -/
structure ShifterInv (c : Cfg) (sh : Shifter) : Prop where
  configured : sh.en = true →
    sh.mstr = true ∧ sh.dord = false ∧ sh.ckph = c.ckph ∧ sh.div = BitVec.ofNat 8 c.nBit
  untouched : sh.en = false →
    sh = { State.reset.sh with rx := sh.rx }
  inCell : sh.busy = true →
    sh.iflag = false ∧ sh.phase.toNat < c.nBit ∧ sh.bitcnt.toNat < 8 ∧
    sh.shift <<< (8 - sh.bitcnt.toNat) = 0#8
  idle : sh.busy = false → sh.phase = 0#8 ∧ sh.shift = 0#8
  complete : sh.iflag = true → sh.bitcnt = 8#4
  noCollision : sh.wcol = false

/-- What the timer's fields keep to (10_state.md R28 to R30): period and compare value of TM_CFG, or of
reset while TM_MODE = 0. -/
structure TimerInv (c : Cfg) (tm : Timer) : Prop where
  configured : tm.mode = true → tm.top = BitVec.ofNat 8 c.tTop ∧ tm.cmp = BitVec.ofNat 8 c.tCmp
  untouched : tm.mode = false → tm.top = 0#8 ∧ tm.cmp = 0#8

/-- What the combiner's fields keep to: all of LC_CFG or all of reset, so "`LC_EN = 1` implies
`LC_RUNSTDBY = 1`" (42_combiner.md R111). -/
structure CombinerInv (c : Cfg) (lc : Combiner) : Prop where
  configured : lc.en = true →
    lc = { en := true, runstdby := true, outen := true, lut0 := c.lutMask, lut1 := c.lutFinal }
  untouched : lc.en = false → lc = State.reset.lc

/-- Where BEGIN's expansion may stand: its last command only in front, behind nothing but the TM_CFG
before it, with the blocks before it configured (43_facade.md R115). -/
def QueueInv (s : State) : Prop :=
  (∀ item ∈ s.queue, item.endsBegin = false) ∨
  ∃ q, (∀ item ∈ q, QueueItem.endsBegin item = false) ∧ s.sh.en = true ∧
    (s.queue = afterShCfg ++ q ∨
      (s.tm.mode = true ∧ s.queue = { cmd := .lcCfg, endsBegin := true } :: q))

/-- The invariant of the states reachable from reset under a legal `Cfg`. -/
structure Inv (s : State) : Prop where
  cfg : CfgLegal s.cfg
  shifter : ShifterInv s.cfg s.sh
  timer : TimerInv s.cfg s.tm
  combiner : CombinerInv s.cfg s.lc
  /-- SH_BUSY = 1 only inside the wait of SH_XFER, which "blocks until complete" (R76). -/
  busyWaits : s.sh.busy = true → s.wait = .xfer
  /-- A wait for SH_IF on an enabled shifter is a transfer in progress or complete (R25). -/
  waitSees : s.wait = .xfer → s.sh.en = true → s.sh.busy = true ∨ s.sh.iflag = true
  /-- LATCH owes at most `LATCH_TICKS` (R124). -/
  latchOwes : ∀ k, s.wait = .latch k → k ≤ s.cfg.latchTicks
  /-- HOST_IDLE "can be 1 only during the wait" (10_state.md R40). -/
  idleWaits : s.hostIdle = true → s.wait ≠ .none
  /-- With IE = 0 a host delay is at most `L_MAX` (60_exceptions.md R160). -/
  delayBounded : s.ie = false → s.hostDelay ≤ s.cfg.lMax
  /-- One sample per past tick (44_machine_step.md R132). -/
  traced : s.trace.length = s.t
  /-- The session exists only with all three blocks configured (43_facade.md R115). -/
  session : s.begun = true → s.sh.en = true ∧ s.tm.mode = true ∧ s.lc.en = true
  queue : QueueInv s

/-! ### Two states that differ only in draws -/

/-- Equal but for SH_RX and HOST_IDLE, the two draws "that no reachable rule reads into OUT"
(44_machine_step.md R139). -/
def SameButDraws (s u : State) : Prop :=
  { s with sh := { s.sh with rx := 0#8 }, hostIdle := false } =
    { u with sh := { u.sh with rx := 0#8 }, hostIdle := false }

/-! ### Terms of the encoding claims -/

/-- The (match, mask) pairs of spec/opcode_table.json, row by row: a word is an instance of a row
"exactly when `w AND mask = match`" (95_test_vectors.md V9). -/
def matchMask : List (Word × Word) :=
  [(0x01000000#32, 0xFFFFFFFF#32), (0x02000000#32, 0xFFFFFF00#32), (0x03000000#32, 0xFFFFFFFF#32),
   (0x04000000#32, 0xFFFFFFFF#32), (0x05000000#32, 0xFFFFFFFF#32), (0x06000000#32, 0xFFFFFFFF#32),
   (0x08000000#32, 0xFFFFFFFF#32), (0x09000000#32, 0xFFFFFFFF#32), (0x0A000000#32, 0xFFFFFFFF#32),
   (0x10000000#32, 0xFFFFFFFF#32), (0x11000000#32, 0xFF000000#32), (0x12000000#32, 0xFF000000#32),
   (0x13000000#32, 0xFFFFFF00#32)]

/-- The queue with every composite in it replaced by its primitive commands (30_encoding.md R72). -/
def expandQueue (q : List QueueItem) : List QueueItem :=
  q.flatMap (fun item => (primitives item.cmd).map plainItem)

/-! ### The premises of the waveform laws (44_machine_step.md section 2) -/

/-- `R`, the offset of the clock's rising edge in a bit cell of `n` ticks. -/
def riseOffset (ckph : Bool) (n : Nat) : Nat := if ckph then 0 else n / 2

/-- "the combiner is enabled with `LC_LUT0 = 0xF0`, `LC_LUT1 = 0xE0` (the state after BEGIN)". -/
def CombinerReady (lc : Combiner) : Prop :=
  lc = { en := true, runstdby := true, outen := true, lut0 := 0xF0#8, lut1 := 0xE0#8 }

/-- `Z - t_a`: the ticks from TM_ARM to the first tick with count 0 (41_timer.md R94). -/
def firstZero (tweak top : Nat) : Nat :=
  if tweak ≤ 255 - top then tweak else tweak - (255 - top)

/-- The alignment condition of a SEND: `P = N`, `Z <= t_s + R`, `(t_s + R - Z) mod N = 0`, with
`t_s = t_a + arm` (44_machine_step.md R142). -/
def AlignedDelay (tweak top n : Nat) (ckph : Bool) (arm : Nat) : Prop :=
  top + 1 = n ∧ firstZero tweak top ≤ arm + riseOffset ckph n ∧
  (arm + riseOffset ckph n - firstZero tweak top) % n = 0

/-- The bit waveform of R141 at tick `j` of a byte: in cell `j / n`, at offset `k = j % n`, high exactly
when `R <= k < R + H` and the bit is 1 or `k - R < W`. -/
def waveBit (ckph : Bool) (n w : Nat) (byte : Byte) (j : Nat) : Bool :=
  decide (riseOffset ckph n ≤ j % n) && decide (j % n < riseOffset ckph n + n / 2) &&
    (byte.getLsbD (7 - j / n) || decide (j % n - riseOffset ckph n < w))

/-- The OUT samples of the `8 n` ticks of a byte (R141). -/
def waveByte (ckph : Bool) (n w : Nat) (byte : Byte) : List Bool :=
  (List.range (8 * n)).map (waveBit ckph n w byte)

/-- The host's delays of one SEND: `L_ARM`, `L_STOP`, `L_GAP` (43_facade.md R118). -/
structure SendDelays where
  arm  : Nat
  stop : Nat
  gap  : Nat
deriving DecidableEq, Repr

/-- One WRITE_ALL with the host's delays inside it. -/
structure FramePlan where
  pixels : List Pixel
  afterIrqOff : Nat
  sends : List SendDelays
  afterIrqOn : Nat
  afterLatch : Nat
deriving DecidableEq, Repr

/-- The delays of a frame in the order of its commands. -/
def FramePlan.delays (p : FramePlan) : List Nat :=
  p.afterIrqOff :: p.sends.flatMap (fun d => [d.arm, d.stop, d.gap]) ++ [p.afterIrqOn, p.afterLatch]

/-- The gap premise between consecutive bytes: `(N - W) + L_STOP + L_GAP + L_ARM' < RESET_TICKS`
(44_machine_step.md R145). -/
def GapsShort (c : Cfg) : List SendDelays → Prop
  | [] => True
  | [_] => True
  | d :: e :: rest =>
    (c.nBit - c.tCmp) + d.stop + d.gap + e.arm < c.resetTicks ∧ GapsShort c (e :: rest)

/-- The host's part of a correct frame: one SEND per byte, every delay possible with IE = 0, every
byte aligned, every gap short (44_machine_step.md R144, R150). -/
def FramePlan.good (c : Cfg) (p : FramePlan) : Prop :=
  p.pixels.length ≤ maxPixels ∧ p.sends.length = 3 * p.pixels.length ∧
  (∀ d ∈ p.sends, d.arm ≤ c.lMax ∧ d.stop ≤ c.lMax ∧ d.gap ≤ c.lMax ∧
    AlignedDelay c.tweak c.tTop c.nBit c.ckph d.arm) ∧
  GapsShort c p.sends

/-- The start of a driver run: reset under `c`, with BEGIN and the frames in the stream and the host's
delays given (43_facade.md R129, 44_machine_step.md R132). -/
def driverStart (c : Cfg) (beginDelays : List Nat) (plans : List FramePlan) : State :=
  { State.reset with
    cfg := c
    stream := encode .begin ++ plans.flatMap (fun p => encode (.writeAll p.pixels))
    delays := beginDelays ++ plans.flatMap FramePlan.delays }

end Sys2Proof.Machine
end

