-- ==== Sys2Proof/Certificates/Slice0/Obligations.lean ====
section
/-! DEFINITION. The statements about the machine, one `def Obligations.<Name> : Prop` each; their ids,
titles and the rules they formalise stand in OBLIGATIONS.json. -/

open Sys2Proof Sys2Proof.Machine

/-! ### Encoding (30_encoding.md) -/

/-- R73, word for word: the worked encodings, read in both directions, and the reserved words. -/
def Obligations.WorkedEncodings : Prop :=
  (∀ p ∈ ([(.shCfg, [0x01000000#32]), (.shXfer 0xA5#8, [0x020000A5#32]), (.tmCfg, [0x03000000#32]),
      (.tmArm, [0x04000000#32]), (.tmStop, [0x05000000#32]), (.lcCfg, [0x06000000#32]),
      (.irqOff, [0x08000000#32]), (.irqOn, [0x09000000#32]), (.latch, [0x0A000000#32]),
      (.begin, [0x10000000#32]), (.write 255#8 0#8 0#8, [0x11FF0000#32]),
      (.write 0#8 255#8 0#8, [0x1100FF00#32]),
      (.writeAll [⟨255#8, 0#8, 0#8⟩, ⟨0#8, 255#8, 0#8⟩], [0x12000002#32, 0x00FF0000#32, 0x0000FF00#32]),
      (.send 0xFF#8, [0x130000FF#32])] : List (Instr × List Word)),
    encode p.1 = p.2 ∧ decode p.2 = .ok p.1 []) ∧
  (∀ w ∈ ([0x00000000#32, 0x02000100#32, 0x01000001#32, 0x07000000#32] : List Word),
    decode [w] = .reserved w)

/-- Decoding the words of a well-formed command gives it back, with every operand at every value, and
leaves what follows (R61 to R67). -/
def Obligations.DecodeOfEncode : Prop :=
  ∀ (i : Instr) (rest : List Word), i.wellFormed = true → decode (encode i ++ rest) = .ok i rest

/-- What decodes is exactly the encoding of a well-formed command: each stream has one reading, and no
bit of a word is dropped (R61 to R68). -/
def Obligations.EncodeOfDecode : Prop :=
  ∀ (ws : List Word) (i : Instr) (rest : List Word), decode ws = .ok i rest →
    i.wellFormed = true ∧ ws = encode i ++ rest

/-- R68: a header no row of the opcode table matches is reserved; a payload word with bits 31:24 not 0
is reserved; a stream that ends inside a payload is ill-formed; everything else decodes. That the reserved
word is reported where the payload is cut short as well, and the first one where there are several, is the
model's choice (log 24), and so is the word that an answer names (log 19). -/
def Obligations.ReservedEncodingsRefused : Prop :=
  (∀ (w : Word) (rest : List Word), (∀ row ∈ matchMask, w &&& row.2 ≠ row.1) →
    decode (w :: rest) = .reserved w) ∧
  (∀ (w : Word) (rest : List Word) (row : Word × Word), row ∈ matchMask → w &&& row.2 = row.1 →
    row.1 ≠ 0x12000000#32 → ∃ i, decode (w :: rest) = .ok i rest) ∧
  (∀ (w : Word) (payload rest : List Word), w &&& 0xFF000000#32 = 0x12000000#32 →
    payload.length = (w &&& 0x00FFFFFF#32).toNat → (∀ v ∈ payload, v &&& 0xFF000000#32 = 0#32) →
    ∃ pixels, decode (w :: payload ++ rest) = .ok (.writeAll pixels) rest) ∧
  (∀ (w v : Word) (payload rest : List Word), w &&& 0xFF000000#32 = 0x12000000#32 →
    payload.length < (w &&& 0x00FFFFFF#32).toNat → (∀ v ∈ payload, v &&& 0xFF000000#32 = 0#32) →
    v &&& 0xFF000000#32 ≠ 0#32 → decode (w :: payload ++ v :: rest) = .reserved v) ∧
  (∀ (w : Word) (payload : List Word), w &&& 0xFF000000#32 = 0x12000000#32 →
    payload.length < (w &&& 0x00FFFFFF#32).toNat → (∀ v ∈ payload, v &&& 0xFF000000#32 = 0#32) →
    decode (w :: payload) = .truncated w)

/-- A reserved or cut-short command is refused, naming it, by the step that reaches it (R157); that the
refusal comes only then, and not before the commands in front of it, is the model's choice (log 12), and
so is that it comes with BEGUN = 0 too, where a WRITE_ALL would be refused as WriteBeforeBegin (log 25), the
precedence of reserved over cut short in `decode` (log 24), and the word a refusal names (log 19). -/
def Obligations.ReservedWordStopsTheStep : Prop :=
  ∀ (s : State) (w : Word), cfgOk s.cfg = true → hostActs s = true → s.queue = [] →
    (decode s.stream = .reserved w → step s = .refused (.reservedEncoding w)) ∧
    (decode s.stream = .truncated w → step s = .refused (.truncatedPayload w))

/-- R69: `1 + header[23:0]` words if the opcode is 0x12, otherwise one. -/
def Obligations.CommandLengthRule : Prop :=
  ∀ (w : Word) (ws : List Word) (i : Instr) (rest : List Word), decode (w :: ws) = .ok i rest →
    rest = ws.drop (if w >>> 24 = 0x12#32 then (w &&& 0x00FFFFFF#32).toNat else 0) ∧
    (w :: ws).length = rest.length +
      (if w >>> 24 = 0x12#32 then 1 + (w &&& 0x00FFFFFF#32).toNat else 1)

/-! ### Serial Shifter (40_shifter.md) -/

/-- R75: what SH_CFG writes, and that it writes nothing else; refused during a transfer; a second one
changes nothing; the example; the encoding. -/
def Obligations.ShCfgConfiguresShifter : Prop :=
  (∀ s : State, s.sh.busy = false →
    exec .shCfg s = .next { s with sh := { s.sh with
      mstr := true, dord := false, ckph := s.cfg.ckph, div := BitVec.ofNat 8 s.cfg.nBit, en := true } }) ∧
  (∀ s : State, s.sh.busy = true → exec .shCfg s = .refused (.configWhileBusy .shCfg)) ∧
  (∀ s u : State, exec .shCfg s = .next u → exec .shCfg u = .next u) ∧
  exec .shCfg State.reset = .next { State.reset with sh := { State.reset.sh with
    en := true, mstr := true, dord := false, ckph := false, div := 16#8 } } ∧
  decode [0x01000000#32] = .ok .shCfg []

/-- R76: the three cases of SH_XFER, that it writes nothing else, that its wait is for SH_IF, that on an
enabled idle shifter the wait ends `8 * SH_DIV` ticks later and not before, and on a disabled one never;
the encoding. -/
def Obligations.ShXferStartsAndWaits : Prop :=
  (∀ (byte : Byte) (s : State), s.sh.en = true → s.sh.busy = false →
    exec (.shXfer byte) s = .next { s with
      sh := { s.sh with
        wcol := false, shift := byte, bitcnt := 0#4, phase := 0#8, busy := true, iflag := false }
      wait := .xfer }) ∧
  (∀ (byte : Byte) (s : State), s.sh.en = true → s.sh.busy = true →
    exec (.shXfer byte) s = .next { s with sh := { s.sh with wcol := true }, wait := .xfer }) ∧
  (∀ (byte : Byte) (s : State), s.sh.en = false →
    exec (.shXfer byte) s = .next { s with sh := { s.sh with wcol := false }, wait := .xfer }) ∧
  (∀ s : State, s.wait = .xfer → (waitPending s = false ↔ s.sh.iflag = true)) ∧
  (∀ (byte : Byte) (s u : State), s.sh.en = true → s.sh.busy = false → 0 < s.sh.div.toNat →
    exec (.shXfer byte) s = .next u →
    (∀ j, j < 8 * s.sh.div.toNat → waitPending (ticks j u) = true) ∧
    waitPending (ticks (8 * s.sh.div.toNat) u) = false) ∧
  (∀ (byte : Byte) (s u : State) (j : Nat), s.sh.en = false → s.sh.busy = false →
    s.sh.iflag = false → exec (.shXfer byte) s = .next u → waitPending (ticks j u) = true) ∧
  (∀ byte : Byte, decode [0x020000#24 ++ byte] = .ok (.shXfer byte) [])

/-- Bit placement, the law of 40_shifter.md section 4 (R80): bit cell `i` carries bit `7 - i` of the
byte, and SCK is high in the half of the cell that SH_CKPH names. -/
def Obligations.BitPlacement : Prop :=
  ∀ (byte : Byte) (s u : State) (i k : Nat), s.sh.en = true → s.sh.busy = false →
    exec (.shXfer byte) s = .next u → i < 8 → k < s.sh.div.toNat →
    let v := ticks (i * s.sh.div.toNat + k) u
    sdo v.sh = byte.getLsbD (7 - i) ∧
    sck v.sh = (if s.sh.ckph then decide (k < s.sh.div.toNat / 2)
      else decide (s.sh.div.toNat / 2 ≤ k))

/-- Completion time, the law of 40_shifter.md section 4 (R81): busy for exactly `8 * SH_DIV` ticks, then
complete, with SH_SHIFT 0x00, SH_BITCNT 8 and SH_PHASE 0, until the next SH_XFER: no other command
touches the two flags. -/
def Obligations.CompletionTime : Prop :=
  (∀ (byte : Byte) (s u : State) (j : Nat), s.sh.en = true → s.sh.busy = false →
    0 < s.sh.div.toNat → exec (.shXfer byte) s = .next u →
    (j < 8 * s.sh.div.toNat → (ticks j u).sh.busy = true ∧ (ticks j u).sh.iflag = false) ∧
    (8 * s.sh.div.toNat ≤ j →
      (ticks j u).sh.busy = false ∧ (ticks j u).sh.iflag = true ∧ (ticks j u).sh.shift = 0#8 ∧
      (ticks j u).sh.bitcnt = 8#4 ∧ (ticks j u).sh.phase = 0#8)) ∧
  (∀ (i : Instr) (s u : State), (∀ byte, i ≠ .shXfer byte) → exec i s = .next u →
    u.sh.busy = s.sh.busy ∧ u.sh.iflag = s.sh.iflag ∧ u.sh.wcol = s.sh.wcol)

/-- R82: a write of the transmit register during a transfer sets SH_WCOL, drops the byte and leaves the
transfer undisturbed; the machine's invariant excludes it. -/
def Obligations.WriteCollision : Prop :=
  (∀ (byte : Byte) (s : State), s.sh.en = true → s.sh.busy = true →
    ∃ u, exec (.shXfer byte) s = .next u ∧ u.sh = { s.sh with wcol := true } ∧
      ∀ n, (ticks n u).sh = { (ticks n s).sh with wcol := true }) ∧
  (∀ s : State, Inv s → hostActs s = true → s.sh.busy = false)

/-- R83: SH_XFER on a disabled shifter is ignored and its wait never ends; SH_EN is never cleared. -/
def Obligations.DisabledShifterHangs : Prop :=
  (∀ (byte : Byte) (s : State), cfgOk s.cfg = true → s.sh.en = false → s.sh.busy = false →
    s.sh.iflag = false →
    ∃ u, exec (.shXfer byte) s = .next u ∧
      u = { s with sh := { s.sh with wcol := false }, wait := .xfer } ∧ Stuck u ∧
      ∀ n, runSteps n u = .next (ticks n u) ∧ Stuck (ticks n u) ∧ (ticks n u).sh = u.sh ∧
        (ticks n u).applied = u.applied) ∧
  (∀ s u : State, step s = .next u → s.sh.en = true → u.sh.en = true)

/-- A stuck configuration stays stuck: no command is ever applied again, only ticks pass (R138, R156). -/
def Obligations.StuckForEver : Prop :=
  ∀ s : State, cfgOk s.cfg = true → Stuck s → ∀ n,
    runSteps n s = .next (ticks n s) ∧ Stuck (ticks n s) ∧ hostActs (ticks n s) = false ∧
    (ticks n s).queue = s.queue ∧ (ticks n s).stream = s.stream ∧ (ticks n s).lc = s.lc

/-- From a state of the invariant that still has commands, the host comes to apply the next one unless
it is stuck, which happens on a disabled shifter only (R158). -/
def Obligations.EveryWaitEnds : Prop :=
  (∀ s : State, Inv s → Stuck s → s.sh.en = false) ∧
  (∀ s : State, Inv s → ¬ Stuck s → restEmpty s = false →
    ∃ n, runSteps n s = .next (ticks n s) ∧ hostActs (ticks n s) = true)

/-! ### Pulse Timer (41_timer.md) -/

/-- What TM_CFG writes (R88), and that it writes nothing else; a second one changes nothing; the example;
the encoding. That it is refused during a transfer is not R88's: the model reads it from the closed list of
R157 (log 23, DEDUCED). -/
def Obligations.TmCfgConfiguresTimer : Prop :=
  (∀ s : State, s.sh.busy = false →
    exec .tmCfg s = .next { s with tm := { s.tm with
      mode := true, top := BitVec.ofNat 8 s.cfg.tTop, cmp := BitVec.ofNat 8 s.cfg.tCmp, run := false } }) ∧
  (∀ s : State, s.sh.busy = true → exec .tmCfg s = .refused (.configWhileBusy .tmCfg)) ∧
  (∀ s u : State, exec .tmCfg s = .next u → exec .tmCfg u = .next u ∧ wo u.tm = false) ∧
  exec .tmCfg State.reset = .next { State.reset with tm :=
    { mode := true, top := 15#8, cmp := 4#8, run := false, cnt := 0#8 } } ∧
  decode [0x03000000#32] = .ok .tmCfg []

/-- R89: what TM_ARM writes, for a running timer too; the loaded value is the two's complement of TWEAK
(R90); before TM_CFG the pulse stays low; the example; the encoding. -/
def Obligations.TmArmLoadsOffset : Prop :=
  (∀ s : State, exec .tmArm s = .next { s with tm := { s.tm with
    cnt := BitVec.ofNat 8 ((256 - s.cfg.tweak) % 256), run := true } }) ∧
  (∀ s u : State, s.cfg.tweak ≤ 255 → exec .tmArm s = .next u →
    u.tm.cnt + BitVec.ofNat 8 s.cfg.tweak = 0#8) ∧
  (∀ s u : State, s.cfg.tweak = 0 → exec .tmArm s = .next u → u.tm.cnt = 0#8) ∧
  (∀ (s u : State) (n : Nat), s.tm.cmp = 0#8 → exec .tmArm s = .next u →
    (ticks n u).tm.run = true ∧ wo (ticks n u).tm = false) ∧
  (∀ (s u : State) (j : Nat), s.cfg.tweak = 10 → s.tm.top = 15#8 → s.tm.cmp = 4#8 →
    exec .tmArm s = .next u →
    (j ≤ 9 → (ticks j u).tm.cnt = BitVec.ofNat 8 (246 + j)) ∧ (ticks 10 u).tm.cnt = 0#8 ∧
    wo (ticks j u).tm = (decide (10 ≤ j) && decide ((j - 10) % 16 < 4))) ∧
  decode [0x04000000#32] = .ok .tmArm []

/-- R91: TM_STOP clears TM_RUN only; the count is held and WO is 0 from that tick on, until the timer
is armed again; left out, the timer runs on with period `TM_TOP + 1`, which cannot show on OUT while SCK
is low, and TM_ARM reloads the count; the example; the encoding. -/
def Obligations.TmStopHoldsCount : Prop :=
  (∀ s : State, exec .tmStop s = .next { s with tm := { s.tm with run := false } }) ∧
  (∀ (s u : State) (n : Nat), exec .tmStop s = .next u →
    (ticks n u).tm = u.tm ∧ (ticks n u).tm.cnt = s.tm.cnt ∧ wo (ticks n u).tm = false) ∧
  (∀ s : State, s.tm.run = false → exec .tmStop s = .next s) ∧
  (∀ (s : State) (j : Nat), s.tm.run = true → s.tm.cnt.toNat ≤ s.tm.top.toNat →
    (ticks (j + (s.tm.top.toNat + 1)) s).tm = (ticks j s).tm) ∧
  (∀ (s : State) (tm : Timer), CombinerReady s.lc → sck s.sh = false →
    outPin { s with tm := tm } = outPin s) ∧
  (∀ (s : State) (c : Byte) (r : Bool),
    exec .tmArm { s with tm := { s.tm with cnt := c, run := r } } = exec .tmArm s) ∧
  (∀ s u : State, s.cfg.tweak = 10 → s.tm.top = 15#8 → exec .tmArm s = .next u →
    ∃ v, exec .tmStop (ticks 130 u) = .next v ∧ v.tm.cnt = 8#8 ∧ wo v.tm = false) ∧
  decode [0x05000000#32] = .ok .tmStop []

/-- Time from arming to the first pulse, the law of 41_timer.md section 4 (R94), in its three cases. -/
def Obligations.ArmToFirstPulse : Prop :=
  ∀ s u : State, s.cfg.tweak ≤ 255 → s.tm.cmp.toNat ≤ s.tm.top.toNat → exec .tmArm s = .next u →
    ((ticks (firstZero s.cfg.tweak s.tm.top.toNat) u).tm.cnt = 0#8 ∧
      ∀ j, j < firstZero s.cfg.tweak s.tm.top.toNat → (ticks j u).tm.cnt ≠ 0#8) ∧
    (s.cfg.tweak = 0 → firstZero s.cfg.tweak s.tm.top.toNat = 0) ∧
    (1 ≤ s.cfg.tweak → s.cfg.tweak ≤ 255 - s.tm.top.toNat →
      firstZero s.cfg.tweak s.tm.top.toNat = s.cfg.tweak ∧ s.tm.top.toNat < u.tm.cnt.toNat ∧
      ∀ j, j < s.cfg.tweak →
        (ticks j u).tm.cnt.toNat = u.tm.cnt.toNat + j ∧ wo (ticks j u).tm = false) ∧
    (255 - s.tm.top.toNat < s.cfg.tweak →
      u.tm.cnt.toNat ≤ s.tm.top.toNat ∧
      firstZero s.cfg.tweak s.tm.top.toNat = s.tm.top.toNat - u.tm.cnt.toNat + 1 ∧
      (u.tm.cnt.toNat < s.tm.cmp.toNat → wo u.tm = true))

/-- Periodicity, the law of 41_timer.md section 4 (R95): from the first tick with count 0 on, the count
is the tick modulo the period and WO is its first `TM_CMP` ticks. -/
def Obligations.PulseTrain : Prop :=
  ∀ (s u : State) (j : Nat), s.cfg.tweak ≤ 255 → exec .tmArm s = .next u →
    firstZero s.cfg.tweak s.tm.top.toNat ≤ j →
    (ticks j u).tm.cnt.toNat =
      (j - firstZero s.cfg.tweak s.tm.top.toNat) % (s.tm.top.toNat + 1) ∧
    (wo (ticks j u).tm = true ↔
      (j - firstZero s.cfg.tweak s.tm.top.toNat) % (s.tm.top.toNat + 1) < s.tm.cmp.toNat)

/-- R77 and R92: what a tick does to the shifter's and the timer's fields, in every case; the drawn
SH_RX is left open. -/
def Obligations.BlockTickRules : Prop :=
  ∀ s : State,
    (s.sh.busy = false → (tick s).sh = s.sh) ∧
    (s.sh.busy = true → s.sh.phase.toNat + 1 ≠ s.sh.div.toNat →
      (tick s).sh = { s.sh with phase := s.sh.phase + 1 }) ∧
    (s.sh.busy = true → s.sh.phase.toNat + 1 = s.sh.div.toNat → s.sh.bitcnt.toNat + 1 ≠ 8 →
      ∃ rx, (tick s).sh = { s.sh with
        phase := 0#8, shift := s.sh.shift <<< 1, rx := rx, bitcnt := s.sh.bitcnt + 1 }) ∧
    (s.sh.busy = true → s.sh.phase.toNat + 1 = s.sh.div.toNat → s.sh.bitcnt.toNat + 1 = 8 →
      ∃ rx, (tick s).sh = { s.sh with
        phase := 0#8, shift := s.sh.shift <<< 1, rx := rx, bitcnt := 8#4, busy := false,
        iflag := true }) ∧
    (s.tm.run = false → (tick s).tm = s.tm) ∧
    (s.tm.run = true → s.tm.cnt = s.tm.top → (tick s).tm = { s.tm with cnt := 0#8 }) ∧
    (s.tm.run = true → s.tm.cnt ≠ s.tm.top →
      (tick s).tm = { s.tm with cnt := BitVec.ofNat 8 ((s.tm.cnt.toNat + 1) % 256) })

/-! ### Logic Combiner (42_combiner.md) -/

/-- What LC_CFG writes (R110), and that it writes nothing else; a second one changes nothing; the example;
no command disables the combiner; the encoding. That it is refused during a transfer is not R110's, whose
corner case says what OUT would do then: the model reads it from the closed list of R157 (log 23, DEDUCED). -/
def Obligations.LcCfgEnablesCombiner : Prop :=
  (∀ s : State, s.sh.busy = false →
    exec .lcCfg s = .next { s with lc :=
      { lut0 := s.cfg.lutMask, lut1 := s.cfg.lutFinal, runstdby := true, outen := true, en := true } }) ∧
  (∀ s : State, s.sh.busy = true → exec .lcCfg s = .refused (.configWhileBusy .lcCfg)) ∧
  (∀ s u : State, exec .lcCfg s = .next u → exec .lcCfg u = .next u) ∧
  (∃ u, exec .lcCfg State.reset = .next u ∧ CombinerReady u.lc ∧ outPin u = false) ∧
  (∀ (i : Instr) (s u : State), exec i s = .next u → s.lc.en = true → u.lc.en = true) ∧
  decode [0x06000000#32] = .ok .lcCfg []

/-- R107 and R108: the two truth tables as `Cfg` holds them, on all eight input patterns. -/
def Obligations.TruthTables : Prop :=
  Config.reference.lutMask = 0xF0#8 ∧ Config.reference.lutFinal = 0xE0#8 ∧
  (∀ wo in1 in0 : Bool, cellOut 0xF0#8 wo in1 in0 = wo) ∧
  (∀ clock data pulse : Bool, cellOut 0xE0#8 clock data pulse =
    ((clock && data && !pulse) || (clock && !data && pulse) || (clock && data && pulse)))

/-- R106 outside the draw: OUT is the final cell's bit when the combiner is enabled, routed and not
stopped by an idle host, and 0 when it is not enabled or not routed; the draw itself is left open. -/
def Obligations.OutRule : Prop :=
  ∀ s : State,
    (s.lc.en = true → s.lc.outen = true → (s.hostIdle = false ∨ s.lc.runstdby = true) →
      outPin s = s.lc.lut1.getLsbD (4 * (sck s.sh).toNat + 2 * (sdo s.sh).toNat +
        (s.lc.lut0.getLsbD (4 * (wo s.tm).toNat)).toNat)) ∧
    (s.lc.en = false ∨ s.lc.outen = false → outPin s = false)

/-- R109: with `LC_LUT1 = 0xE0`, enabled and routed, OUT = SCK and (SDO or M), and its consequences. -/
def Obligations.OutClosedForm : Prop :=
  ∀ s : State, s.lc.en = true → s.lc.outen = true → (s.hostIdle = false ∨ s.lc.runstdby = true) →
    s.lc.lut1 = 0xE0#8 →
    outPin s = (sck s.sh && (sdo s.sh || maskOut s.lc s.tm)) ∧
    (sck s.sh = false → outPin s = false) ∧
    (sck s.sh = true → sdo s.sh = true → outPin s = true) ∧
    (sck s.sh = true → sdo s.sh = false → outPin s = maskOut s.lc s.tm)

/-- R112: the truth table of another wiring; the fixed wiring gives 0xE0, and the reversed one 0xA8
(95_test_vectors.md V36). -/
def Obligations.RederivedTruthTable : Prop :=
  (∀ c d p i : Fin 8, c < 3 → d < 3 → p < 3 → c ≠ d → d ≠ p → c ≠ p →
    (derivedLut c d p).getLsbD i = (i.val.testBit c && (i.val.testBit d || i.val.testBit p))) ∧
  derivedLut 2 1 0 = 0xE0#8 ∧ derivedLut 0 1 2 = 0xA8#8

/-! ### Driver façade (43_facade.md) -/

/-- BEGIN's own `Cmd` step (R115, R135): SH_CFG is applied, TM_CFG and LC_CFG stand in front of what
follows, the last marked to set BEGUN; nothing else changes. A second BEGIN is refused (R116). The
placing in `queue` is the model's choice (log 8). -/
def Obligations.BeginExpands : Prop :=
  (∀ s : State, s.begun = false → s.sh.busy = false →
    exec .begin s = .next { s with
      sh := { s.sh with
        mstr := true, dord := false, ckph := s.cfg.ckph, div := BitVec.ofNat 8 s.cfg.nBit, en := true }
      queue := ⟨.tmCfg, false⟩ :: ⟨.lcCfg, true⟩ :: s.queue }) ∧
  (∀ s : State, s.begun = true → exec .begin s = .refused .beginTwice)

/-- R115: BEGIN carried out, with any host delays between its commands: the three blocks are configured,
BEGUN is 1, nothing else but time and the trace has moved, and with the reference truth tables OUT is 0. -/
def Obligations.BeginRunsThrough : Prop :=
  ∀ (s : State) (rest : List Word) (d1 d2 d3 : Nat) (ds : List Nat),
    cfgOk s.cfg = true → s.begun = false → s.sh.busy = false → s.tm.run = false → s.ie = true →
    s.wait = .none → s.hostIdle = false → s.queue = [] → s.hostDelay = 0 →
    s.stream = 0x10000000#32 :: rest → s.delays = d1 :: d2 :: d3 :: ds →
    ∃ u, runSteps (1 + d1 + 1 + d2 + 1) s = .next u ∧
      u = { s with
        sh := { s.sh with
          mstr := true, dord := false, ckph := s.cfg.ckph, div := BitVec.ofNat 8 s.cfg.nBit, en := true }
        tm := { s.tm with
          mode := true, top := BitVec.ofNat 8 s.cfg.tTop, cmp := BitVec.ofNat 8 s.cfg.tCmp, run := false }
        lc := { lut0 := s.cfg.lutMask, lut1 := s.cfg.lutFinal, runstdby := true, outen := true, en := true }
        begun := true
        t := s.t + d1 + d2
        stream := rest
        delays := ds
        hostDelay := d3
        applied := s.applied + 3
        trace := u.trace } ∧
      u.trace.length = s.trace.length + d1 + d2 ∧
      (s.cfg.lutMask = 0xF0#8 → s.cfg.lutFinal = 0xE0#8 → outPin u = false)

/-- SEND's own `Cmd` step (R117, R135): TM_ARM is applied, SH_XFER and TM_STOP stand in front of what
follows; nothing else changes. Before BEGIN it is refused (log 8 for the placing). -/
def Obligations.SendExpands : Prop :=
  (∀ (byte : Byte) (s : State), s.begun = true →
    exec (.send byte) s = .next { s with
      tm := { s.tm with cnt := BitVec.ofNat 8 ((256 - s.cfg.tweak) % 256), run := true }
      queue := ⟨.shXfer byte, false⟩ :: ⟨.tmStop, false⟩ :: s.queue }) ∧
  (∀ (byte : Byte) (s : State), s.begun = false →
    exec (.send byte) s = .refused (.sendBeforeBegin (.send byte)))

/-- R117: a SEND carried out, with `L_ARM` ticks before its SH_XFER and `L_STOP` ticks after its
completion, under either setting of IE: the byte is out, `L_ARM + 8 * SH_DIV + L_STOP` ticks have passed,
and the timer is stopped with the count it reached in so many ticks from its arming. -/
def Obligations.SendRunsThrough : Prop :=
  ∀ (byte : Byte) (s : State) (q : List QueueItem) (arm stop gap : Nat) (ds : List Nat),
    cfgOk s.cfg = true → s.begun = true → s.sh.en = true → s.sh.busy = false →
    0 < s.sh.div.toNat → s.wait = .none → s.hostDelay = 0 →
    s.queue = ⟨.send byte, false⟩ :: q → s.delays = arm :: stop :: gap :: ds →
    ∃ u, runSteps (1 + boundedDelay s arm + 1 + 8 * s.sh.div.toNat + boundedDelay s stop + 1) s =
        .next u ∧
      u.t = s.t + boundedDelay s arm + 8 * s.sh.div.toNat + boundedDelay s stop ∧
      u.hostDelay = boundedDelay s gap ∧ u.delays = ds ∧ u.queue = q ∧ u.stream = s.stream ∧
      u.cfg = s.cfg ∧ u.lc = s.lc ∧ u.ie = s.ie ∧ u.begun = true ∧ u.wait = .none ∧
      u.applied = s.applied + 3 ∧
      u.sh = { s.sh with
        shift := 0#8, rx := u.sh.rx, bitcnt := 8#4, phase := 0#8, iflag := true, wcol := false } ∧
      u.tm = { s.tm with
        cnt := (ticks (boundedDelay s arm + 8 * s.sh.div.toNat + boundedDelay s stop)
          (armTimer s)).tm.cnt
        run := false } ∧
      wo u.tm = false

/-- R119 and R120: WRITE's own `Cmd` step arms the timer for the green byte, with the rest of
`SEND green; SEND red; SEND blue` in front of what follows (log 8); its SH_XFER operands are `g, r, b`;
it leaves IE alone; before BEGIN it is refused. -/
def Obligations.WriteExpands : Prop :=
  (∀ (red green blue : Byte) (s : State), s.begun = true →
    exec (.write red green blue) s = .next { s with
      tm := { s.tm with cnt := BitVec.ofNat 8 ((256 - s.cfg.tweak) % 256), run := true }
      queue := ⟨.shXfer green, false⟩ :: ⟨.tmStop, false⟩ :: ⟨.send red, false⟩ ::
        ⟨.send blue, false⟩ :: s.queue }) ∧
  (∀ (red green blue : Byte) (s : State), s.begun = false →
    exec (.write red green blue) s = .refused (.writeBeforeBegin (.write red green blue))) ∧
  (∀ red green blue : Byte, wireBytes (.write red green blue) = [green, red, blue])

/-- R125: WRITE_ALL's own `Cmd` step applies IRQ_OFF, with every WRITE in sequence order, IRQ_ON and
LATCH in front of what follows (log 8); its bytes go out green, red, blue, pixel by pixel; before BEGIN
it is refused. -/
def Obligations.WriteAllExpands : Prop :=
  (∀ (pixels : List Pixel) (s : State), s.begun = true →
    exec (.writeAll pixels) s = .next { s with
      ie := false
      queue := pixels.map (fun p => ⟨.write p.red p.green p.blue, false⟩) ++
        ⟨.irqOn, false⟩ :: ⟨.latch, false⟩ :: s.queue }) ∧
  (∀ (pixels : List Pixel) (s : State), s.begun = false →
    exec (.writeAll pixels) s = .refused (.writeBeforeBegin (.writeAll pixels))) ∧
  (∀ pixels : List Pixel,
    wireBytes (.writeAll pixels) = pixels.flatMap (fun p => [p.green, p.red, p.blue]))

/-- R71: a composite is exactly its expansion: its `Cmd` step is the step of the first command of the
expansion, with the others queued; only BEGIN adds an effect, the ghost flag with its last command. -/
def Obligations.CompositesAreExpansions : Prop :=
  (∀ (i first : Instr) (others : List Instr) (s : State), s.begun = true →
    ((∃ b, i = .send b) ∨ (∃ r g b, i = .write r g b) ∨ (∃ ps, i = .writeAll ps)) →
    expansion i = first :: others → exec i s = exec first (s.prepend (others.map plainItem))) ∧
  (∀ s : State, s.begun = false →
    exec .begin s = exec .shCfg (s.prepend [⟨.tmCfg, false⟩, ⟨.lcCfg, true⟩])) ∧
  expansion .begin = [.shCfg, .tmCfg, .lcCfg] ∧
  (∀ b, expansion (.send b) = [.tmArm, .shXfer b, .tmStop]) ∧
  (∀ r g b, expansion (.write r g b) = [.send g, .send r, .send b]) ∧
  (∀ ps, expansion (.writeAll ps) =
    [.irqOff] ++ ps.map (fun p => .write p.red p.green p.blue) ++ [.irqOn, .latch])

/-- Composites "treated as macros expanded before execution" give the same run (R72): a machine whose
queue is expanded beforehand makes the same steps, with the same state but for the expansion itself. -/
def Obligations.MacroExpansionSameRun : Prop :=
  ∀ s u : State, s.begun = true → s.stream = [] →
    (∀ item ∈ s.queue, item.cmd ≠ .begin ∧ item.endsBegin = false) → step s = .next u →
    step { s with queue := expandQueue s.queue } = .next { u with queue := expandQueue u.queue } ∧
    u.begun = true ∧ u.stream = [] ∧
    (∀ item ∈ u.queue, item.cmd ≠ .begin ∧ item.endsBegin = false)

/-- The reasons a command is refused, exactly (R129, R157); no command answers a fault (R153). That a
configuration command is refused during a transfer whatever its own rule says of that case is DEDUCED
(log 23), that BEGIN checks BEGUN first a DESIGN CHOICE (log 23), and that BEGIN on a busy shifter names
its SH_CFG a DESIGN CHOICE (log 19). -/
def Obligations.CommandRefusals : Prop :=
  ∀ (i : Instr) (s : State),
    (∀ r, exec i s = .refused r ↔
      (i = .begin ∧ s.begun = true ∧ r = .beginTwice) ∨
      (i = .begin ∧ s.begun = false ∧ s.sh.busy = true ∧ r = .configWhileBusy .shCfg) ∨
      ((i = .shCfg ∨ i = .tmCfg ∨ i = .lcCfg) ∧ s.sh.busy = true ∧ r = .configWhileBusy i) ∨
      ((∃ b, i = .send b) ∧ s.begun = false ∧ r = .sendBeforeBegin i) ∨
      (((∃ a b c, i = .write a b c) ∨ (∃ ps, i = .writeAll ps)) ∧ s.begun = false ∧
        r = .writeBeforeBegin i)) ∧
    (∀ f, exec i s ≠ .fault f)

/-- R122, R123 and R163: IRQ_OFF and IRQ_ON write IE only, whatever it was, and do not nest; no other
command but WRITE_ALL writes it (R121). -/
def Obligations.InterruptSwitch : Prop :=
  (∀ s : State, exec .irqOff s = .next { s with ie := false }) ∧
  (∀ s : State, exec .irqOn s = .next { s with ie := true }) ∧
  (∀ s u v w : State, exec .irqOff s = .next u → exec .irqOff u = .next v →
    exec .irqOn v = .next w → w.ie = true) ∧
  (∀ (i : Instr) (s u : State), i ≠ .irqOff → i ≠ .irqOn → (∀ ps, i ≠ .writeAll ps) →
    exec i s = .next u → u.ie = s.ie) ∧
  decode [0x08000000#32] = .ok .irqOff [] ∧ decode [0x09000000#32] = .ok .irqOn []

/-- R124: LATCH writes the wait only; no command is applied until `LATCH_TICKS` ticks have passed,
with the shifter idle OUT is 0 at every one of them, and then the wait is over; the example; the
encoding. -/
def Obligations.LatchDelay : Prop :=
  (∀ s : State, exec .latch s = .next { s with wait := .latch s.cfg.latchTicks }) ∧
  (∀ (s : State) (k j : Nat), cfgOk s.cfg = true → s.wait = .latch k → j ≤ k →
    runSteps j s = .next (ticks j s) ∧ (ticks j s).applied = s.applied ∧
    (j < k → hostActs (ticks j s) = false) ∧ (ticks j s).t = s.t + j ∧
    (s.sh.busy = false → CombinerReady s.lc → sck (ticks j s).sh = false ∧ outPin (ticks j s) = false) ∧
    waitPending (ticks k s) = false) ∧
  (∀ u : State, exec .latch State.reset = .next u → u.wait = .latch 1600) ∧
  decode [0x0A000000#32] = .ok .latch []

/-- WRITE_ALL of no pixel (the consequence R127 of 43_facade.md): no byte is sent, the blocks do not
move, OUT stays 0, IE ends 1, and `LATCH_TICKS` ticks pass beside the host's own delays. -/
def Obligations.EmptyFrame : Prop :=
  ∀ (s : State) (q : List QueueItem) (d1 d2 d3 : Nat) (ds : List Nat),
    cfgOk s.cfg = true → s.begun = true → s.sh.busy = false → s.tm.run = false → CombinerReady s.lc →
    s.wait = .none → s.hostIdle = false → s.hostDelay = 0 → d1 ≤ s.cfg.lMax →
    s.queue = ⟨.writeAll [], false⟩ :: q → s.delays = d1 :: d2 :: d3 :: ds →
    ∃ u, runSteps (1 + d1 + 1 + d2 + 1 + s.cfg.latchTicks) s = .next u ∧
      u.t = s.t + d1 + d2 + s.cfg.latchTicks ∧ u.sh = s.sh ∧ u.tm = s.tm ∧ u.lc = s.lc ∧
      u.ie = true ∧ u.queue = q ∧ u.stream = s.stream ∧ waitPending u = false ∧
      u.outTrace = s.outTrace ++ List.replicate (d1 + d2 + s.cfg.latchTicks) false

/-- The critical section of a frame (R126): from the IRQ_OFF of a WRITE_ALL until its `9 n` further
commands are applied, IE is 0, at every step. -/
def Obligations.InterruptsOffDuringFrame : Prop :=
  ∀ (pixels : List Pixel) (s u v : State) (n : Nat), exec (.writeAll pixels) s = .next u →
    runSteps n u = .next v → v.applied ≤ s.applied + 9 * pixels.length → v.ie = false

/-! ### The machine (44_machine_step.md) -/

/-- When the host acts and no expansion is being carried out, a step is exec of the command the stream's
first words decode to, in the state without them and with the wait cleared; then the host's next delay
is drawn (R135, R136). -/
def Obligations.StepRunsDecodedCommand : Prop :=
  ∀ (s v : State) (i : Instr) (rest : List Word), cfgOk s.cfg = true → hostActs s = true →
    s.queue = [] → decode s.stream = .ok i rest →
    (exec i { s with stream := rest, wait := .none, hostIdle := false } = .next v →
      step s = .next (drawDelay v)) ∧
    (∀ r, exec i { s with stream := rest, wait := .none, hostIdle := false } = .refused r →
      step s = .refused r) ∧
    (drawDelay v = { v with
      hostDelay := (drawDelay v).hostDelay, delays := v.delays.drop 1, applied := v.applied + 1 }) ∧
    (∀ d ds, v.delays = d :: ds →
      (drawDelay v).hostDelay = if v.ie then d else min d v.cfg.lMax)

/-- While an expansion is being carried out, a step is exec of its next command, or the refusal exec
answers; BEGUN becomes 1 with the command that ends a BEGIN (R71, R115, R135). The queue is the model's
choice (log 8), and that HOST_IDLE is cleared with the wait is DEDUCED (log 4). -/
def Obligations.StepRunsQueuedCommand : Prop :=
  ∀ (s v : State) (i : Instr) (e : Bool) (q : List QueueItem), cfgOk s.cfg = true →
    hostActs s = true → s.queue = ⟨i, e⟩ :: q →
    (exec i { s with queue := q, wait := .none, hostIdle := false } = .next v →
      step s = .next (drawDelay (if e then { v with begun := true } else v))) ∧
    (∀ r, exec i { s with queue := q, wait := .none, hostIdle := false } = .refused r →
      step s = .refused r)

/-- A step is either a tick or a command (R134, R135): a tick advances the shifter and the timer by their
tick rules from the same old state, records the signals of the state, moves time by one and applies no
command; a command takes no time and records nothing. The host acts exactly when `rest` is not empty, no
wait is pending and its delay is over. The delay as a field is the model's choice (log 6, log 7), and
that HOST_IDLE is 0 after a command is DEDUCED (log 4). -/
def Obligations.TickOrCommand : Prop :=
  ∀ s u : State, step s = .next u →
    (hostActs s = true ↔ (s.queue ≠ [] ∨ s.stream ≠ []) ∧ s.hostDelay = 0 ∧
      (s.wait = .none ∨ (s.wait = .xfer ∧ s.sh.iflag = true) ∨ s.wait = .latch 0)) ∧
    (hostActs s = false →
      u = tick s ∧ (∃ rx, u.sh = shifterTick rx s.sh) ∧ u.tm = timerTick s.tm ∧
      u.hostDelay = s.hostDelay - (if cmdEnabled s then 1 else 0) ∧
      u.trace = signals s :: s.trace ∧ u.t = s.t + 1 ∧ u.applied = s.applied ∧ u.lc = s.lc ∧
      u.ie = s.ie ∧ u.begun = s.begun ∧ u.queue = s.queue ∧ u.stream = s.stream ∧
      u.delays = s.delays ∧ (s.wait = .none → u.wait = .none ∧ u.hostIdle = false) ∧
      (s.wait = .xfer → u.wait = .xfer) ∧ (∀ k, s.wait = .latch k → u.wait = .latch (k - 1))) ∧
    (hostActs s = true →
      u.trace = s.trace ∧ u.t = s.t ∧ u.applied = s.applied + 1 ∧ u.hostIdle = false) ∧
    u.cfg = s.cfg

/-- Every field after reset (R45, R172); SH_RX is unspecified and nothing is said of it. -/
def Obligations.ResetState : Prop :=
  State.reset.sh = {
    en := false, mstr := false, dord := false, ckph := false, div := 0#8, shift := 0#8,
    rx := State.reset.sh.rx, bitcnt := 0#4, phase := 0#8, busy := false, iflag := false, wcol := false } ∧
  State.reset.tm = { mode := false, top := 0#8, cmp := 0#8, cnt := 0#8, run := false } ∧
  State.reset.lc = { en := false, runstdby := false, outen := false, lut0 := 0#8, lut1 := 0#8 } ∧
  State.reset.ie = true ∧ State.reset.hostIdle = false ∧ State.reset.begun = false ∧
  State.reset.t = 0 ∧ State.reset.wait = .none ∧ State.reset.trace = []

/-- Outputs after reset (the consequence R173 of 70_reset_and_hazards.md): with the three blocks as reset
leaves them, SH_RX aside, every signal is 0, and a step that applies no command leaves the blocks so; by
any number of steps without a command the signals are still 0 and the blocks still so, whatever is in the
stream, whatever wait is pending and however long the host delays. -/
def Obligations.ResetOutputsStayLow : Prop :=
  ∀ s : State, cfgOk s.cfg = true → s.sh = { State.reset.sh with rx := s.sh.rx } →
    s.tm = State.reset.tm → s.lc = State.reset.lc →
    (∀ u, hostActs s = false → step s = .next u →
      signals s = { sck := false, sdo := false, wo := false, m := false, out := false } ∧
      u.sh = s.sh ∧ u.tm = s.tm ∧ u.lc = s.lc) ∧
    (∀ n u, runSteps n s = .next u → u.applied = s.applied →
      signals u = { sck := false, sdo := false, wo := false, m := false, out := false } ∧
      u.sh = s.sh ∧ u.tm = s.tm ∧ u.lc = s.lc)

/-- The line idles low (the law R140): at every tick with SH_BUSY = 0, SCK and OUT are 0, whatever the
timer does, in every state of the invariant with the reference truth tables. -/
def Obligations.IdleLineLow : Prop :=
  ∀ s : State, Inv s → s.cfg.lutMask = 0xF0#8 → s.cfg.lutFinal = 0xE0#8 → s.sh.busy = false →
    sck s.sh = false ∧ outPin s = false ∧ ∀ tm : Timer, outPin { s with tm := tm } = false

/-- The alignment condition in terms of the delays (R142): armed at a tick, with the transfer started
`arm` ticks later on a shifter whose clock rises `R` ticks into the cell, the count is 0 at that rising
edge exactly when `Z <= t_s + R` and `(t_s + R - Z) mod N = 0`, for a period of one bit cell. -/
def Obligations.AlignmentCondition : Prop :=
  ∀ (s u : State) (n arm : Nat) (ckph : Bool), s.cfg.tweak ≤ 255 → s.tm.top.toNat + 1 = n →
    exec .tmArm s = .next u →
    (AlignedDelay s.cfg.tweak s.tm.top.toNat n ckph arm ↔
      (ticks (arm + riseOffset ckph n) u).tm.cnt = 0#8)

/-- The bit waveform (the law R141): with the timer running, its period one bit cell and its count 0 at
the first rising edge, OUT is one high run per cell from offset `R`, `H` ticks for a 1 bit and `W` ticks
for a 0 bit. -/
def Obligations.BitWaveform : Prop :=
  ∀ (byte : Byte) (s u : State) (i k : Nat), CombinerReady s.lc → s.sh.en = true → s.sh.busy = false →
    2 ∣ s.sh.div.toNat → s.tm.run = true → s.tm.top.toNat + 1 = s.sh.div.toNat →
    exec (.shXfer byte) s = .next u →
    (ticks (riseOffset s.sh.ckph s.sh.div.toNat) u).tm.cnt = 0#8 →
    i < 8 → k < s.sh.div.toNat →
    (outPin (ticks (i * s.sh.div.toNat + k) u) = true ↔
      riseOffset s.sh.ckph s.sh.div.toNat ≤ k ∧
      k < riseOffset s.sh.ckph s.sh.div.toNat + s.sh.div.toNat / 2 ∧
      (byte.getLsbD (7 - i) = true ∨
        k - riseOffset s.sh.ckph s.sh.div.toNat < s.tm.cmp.toNat))

/-- Misalignment (the law R143): with the count `d` instead of 0 at the first rising edge, the pulse of a
0 bit is shifted by `d`, and 1 bits are unaffected; the runs of a 0 bit in the three ranges of `d`. -/
def Obligations.MisalignedWaveform : Prop :=
  (∀ (byte : Byte) (s u : State) (d i k : Nat), CombinerReady s.lc → s.sh.en = true →
    s.sh.busy = false → 2 ∣ s.sh.div.toNat → s.tm.run = true →
    s.tm.top.toNat + 1 = s.sh.div.toNat → exec (.shXfer byte) s = .next u →
    (ticks (riseOffset s.sh.ckph s.sh.div.toNat) u).tm.cnt.toNat = d → d < s.sh.div.toNat →
    i < 8 → k < s.sh.div.toNat →
    (outPin (ticks (i * s.sh.div.toNat + k) u) = true ↔
      riseOffset s.sh.ckph s.sh.div.toNat ≤ k ∧
      k < riseOffset s.sh.ckph s.sh.div.toNat + s.sh.div.toNat / 2 ∧
      (byte.getLsbD (7 - i) = true ∨
        (k - riseOffset s.sh.ckph s.sh.div.toNat + d) % s.sh.div.toNat < s.tm.cmp.toNat))) ∧
  (∀ n w d x : Nat, 2 ∣ n → w < n / 2 → d < n → x < n / 2 →
    (0 < d → d < w → ((x + d) % n < w ↔ x < w - d)) ∧
    (w ≤ d → d ≤ n - n / 2 → ¬ (x + d) % n < w) ∧
    (n - n / 2 < d → w ≤ d →
      ((x + d) % n < w ↔ n - d ≤ x ∧ x < n - d + min w (d - (n - n / 2)))))

/-- A transfer without the timer (the law R147): with TM_RUN = 0, OUT = SCK and SDO at every tick, so a
0 bit gives no high run. -/
def Obligations.TransferWithoutTimer : Prop :=
  ∀ (byte : Byte) (s u : State), CombinerReady s.lc → s.tm.run = false →
    exec (.shXfer byte) s = .next u → ∀ j,
    wo (ticks j u).tm = false ∧
    outPin (ticks j u) = (sck (ticks j u).sh && sdo (ticks j u).sh)

/-- One SEND on the wire: while it is carried out with an aligned `L_ARM`, the samples recorded on OUT
are `L_ARM` low ticks, the byte's waveform of R141, and `L_STOP` low ticks. -/
def Obligations.SendOnTheWire : Prop :=
  ∀ (byte : Byte) (s : State) (q : List QueueItem) (arm stop gap : Nat) (ds : List Nat),
    cfgOk s.cfg = true → s.begun = true → CombinerReady s.lc → s.sh.en = true → s.sh.busy = false →
    s.sh.ckph = s.cfg.ckph → s.sh.div = BitVec.ofNat 8 s.cfg.nBit →
    s.tm.top = BitVec.ofNat 8 s.cfg.tTop → s.tm.cmp = BitVec.ofNat 8 s.cfg.tCmp →
    s.wait = .none → s.hostDelay = 0 →
    s.queue = ⟨.send byte, false⟩ :: q → s.delays = arm :: stop :: gap :: ds →
    AlignedDelay s.cfg.tweak s.cfg.tTop s.cfg.nBit s.cfg.ckph (boundedDelay s arm) →
    ∃ u, runSteps (1 + boundedDelay s arm + 1 + 8 * s.cfg.nBit + boundedDelay s stop + 1) s = .next u ∧
      u.queue = q ∧
      u.outTrace = s.outTrace ++ List.replicate (boundedDelay s arm) false ++
        waveByte s.cfg.ckph s.cfg.nBit s.cfg.tCmp byte ++ List.replicate (boundedDelay s stop) false

/-- The shape of a correctness claim (R150): for every legal `Cfg` with the reference truth tables, every
stream of BEGIN and WRITE_ALL commands from reset, and every choice of host delays that aligns every byte
and keeps every gap inside a frame short, the run ends, and the observer reads from OUT exactly the
non-empty frames, each green, red, blue, most significant bit first, with nothing left over. -/
def Obligations.DriverRunDecodes : Prop :=
  ∀ (c : Cfg) (d1 d2 d3 thOne : Nat) (plans : List FramePlan),
    cfgOk c = true → c.lutMask = 0xF0#8 → c.lutFinal = 0xE0#8 →
    c.tCmp < thOne → thOne ≤ c.nBit / 2 → (∀ p ∈ plans, p.good c) →
    ∃ n u, runSteps n (driverStart c [d1, d2, d3] plans) = .next u ∧ RunOver u ∧
      decodeWave thOne c.resetTicks u.outTrace =
        ((plans.filter (fun p => !p.pixels.isEmpty)).map (fun p => frameBits p.pixels), [])

/-- The end of a run (R138): in a state of the invariant the shifter is idle then, and from then on only
ticks pass and the run stays over. -/
def Obligations.RunOverStaysOver : Prop :=
  ∀ s : State, Inv s → RunOver s → s.sh.busy = false ∧
    ∀ n, runSteps n s = .next (ticks n s) ∧ RunOver (ticks n s) ∧ (ticks n s).sh = s.sh

/-- The invariant of the reachable states holds after reset. -/
def Obligations.InvariantAtReset : Prop := Inv State.reset

/-- Every step keeps the invariant of the reachable states. -/
def Obligations.InvariantKept : Prop := ∀ s u : State, Inv s → step s = .next u → Inv u

/-- What no blocking host can do is never met (R82, R157): in a state of the invariant no step refuses
with ConfigWhileBusy, no step refuses for its `Cfg`, and SH_WCOL is 0. -/
def Obligations.BlockingHostNeverCollides : Prop :=
  ∀ s : State, Inv s → s.sh.wcol = false ∧
    (∀ i, step s ≠ .refused (.configWhileBusy i)) ∧ step s ≠ .refused .badCfg

/-- SH_RX and HOST_IDLE reach nothing (R139, R152): two states that differ only in them, with the
combiner off or its standby operation on, step to states that differ only in them, so the whole trace
and every field but these is the same. -/
def Obligations.DrawsDoNotShow : Prop :=
  ∀ s u v : State, (s.lc.en = true → s.lc.runstdby = true) → SameButDraws s u → step s = .next v →
    signals s = signals u ∧ ∃ w, step u = .next w ∧ SameButDraws v w ∧ v.trace = w.trace

/-- A step is refused for its `Cfg` exactly when a constraint (a) to (e) of R6, or one of the legal values
of R5 that these leave out (`F_SYS` positive, `RESET_TICKS = ceil(50 µs * F_SYS)`), fails. R6 and R170
check once, before the run: that every step checks is the model's choice, and that the two values of R5
are checked with them is DEDUCED (log 15). -/
def Obligations.ConfigurationChecked : Prop :=
  ∀ s : State, step s = .refused .badCfg ↔
    ¬ ((2 ∣ s.cfg.nBit ∧ 4 ≤ s.cfg.nBit ∧ s.cfg.nBit ≤ 254) ∧ s.cfg.tTop = s.cfg.nBit - 1 ∧
      (1 ≤ s.cfg.tCmp ∧ s.cfg.tCmp < s.cfg.nBit / 2) ∧ s.cfg.resetTicks ≤ s.cfg.latchTicks ∧
      s.cfg.tweak ≤ 255 ∧ 0 < s.cfg.fSys ∧
      s.cfg.resetTicks = ⌈(50 : ℚ) * (s.cfg.fSys : ℚ) / 1000000⌉₊)

/-- Nothing is ever switched off (R16, R33 to R35: "No command writes 0"): the enables and BEGUN, once
1, stay 1 over every step, and the configuration never changes. -/
def Obligations.NothingIsSwitchedOff : Prop :=
  ∀ s u : State, step s = .next u →
    (s.sh.en = true → u.sh.en = true) ∧ (s.sh.mstr = true → u.sh.mstr = true) ∧
    (s.sh.dord = false → u.sh.dord = false) ∧ (s.tm.mode = true → u.tm.mode = true) ∧
    (s.lc.en = true → u.lc.en = true) ∧ (s.lc.runstdby = true → u.lc.runstdby = true) ∧
    (s.lc.outen = true → u.lc.outen = true) ∧ (s.begun = true → u.begun = true) ∧ u.cfg = s.cfg

/-- R192: the bit-period predicate is |N_BIT * 10^9 / F_SYS - 1250| <= 150; it is false for the reference
design, true for N_BIT = 20 at 16 MHz, and with N_BIT = 16 it holds from 11,428,572 to 14,545,454 Hz; no run is refused for it. -/
def Obligations.BitPeriodPredicate : Prop :=
  (∀ c : Cfg, 0 < c.fSys → (bitPeriodOk c = true ↔
    |((c.nBit : ℚ) * 1000000000 / (c.fSys : ℚ) - 1250)| ≤ 150)) ∧
  bitPeriodOk Config.reference = false ∧
  bitPeriodOk { Config.reference with nBit := 20 } = true ∧
  (∀ c : Cfg, c.nBit = 16 → (bitPeriodOk c = true ↔ 11428572 ≤ c.fSys ∧ c.fSys ≤ 14545454)) ∧
  cfgOk Config.reference = true

/-- R193: the pulse-width predicate is T0_MIN < T_CMP / F_SYS < T01_SPLIT, the open thresholds given in
nanoseconds; its second half, the constraint `T_CMP < N_BIT / 2`, is enforced by every step. -/
def Obligations.PulseWidthPredicate : Prop :=
  (∀ (t0Min t01Split : Nat) (c : Cfg), 0 < c.fSys →
    (pulseWidthOk t0Min t01Split c = true ↔
      (t0Min : ℚ) < (c.tCmp : ℚ) * 1000000000 / (c.fSys : ℚ) ∧
      (c.tCmp : ℚ) * 1000000000 / (c.fSys : ℚ) < (t01Split : ℚ))) ∧
  (∀ s u : State, step s = .next u → s.cfg.tCmp < s.cfg.nBit / 2)

/-- R148: `Runs(w)` is the one list of (value, length) pairs that spells `w` in order and whose runs are
maximal: no run is empty and neighbours differ. -/
def Obligations.ObserverRuns : Prop :=
  ∀ (w : List Bool) (rs : List (Bool × Nat)),
    (rs.flatMap (fun r => List.replicate r.2 r.1) = w ∧ (∀ r ∈ rs, 0 < r.2) ∧
      rs.IsChain (fun a b => a.1 ≠ b.1)) ↔ rs = runs w
end

