-- ==== Sys2Proof/Laws/Signals.lean ====
section
/-! SUPPORT. What the five signals are in the cases claims speak of. -/

namespace Sys2Proof.Machine

/-- "SCK is low whenever no transfer is in progress" (40_shifter.md R78). -/
@[simp] theorem sck_of_idle {sh : Shifter} (h : sh.busy = false) : sck sh = false := by
  simp [sck, h]

@[simp] theorem sdo_of_idle {sh : Shifter} (h : sh.busy = false) : sdo sh = false := by
  simp [sdo, h]

/-- "A stopped timer gives WO = 0" (41_timer.md R93). -/
@[simp] theorem wo_of_stopped {tm : Timer} (h : tm.run = false) : wo tm = false := by
  simp [wo, h]

/-- "nothing is less than 0" (10_state.md R28). -/
theorem wo_of_cmp_zero {tm : Timer} (h : tm.cmp = 0#8) : wo tm = false := by
  simp [wo, h]

/-- SCK of a transfer on an enabled shifter (40_shifter.md R78). -/
theorem sck_of_busy {sh : Shifter} (he : sh.en = true) (hb : sh.busy = true) :
    sck sh = if sh.ckph then decide (sh.phase.toNat < sh.div.toNat / 2)
      else decide (sh.div.toNat / 2 ≤ sh.phase.toNat) := by
  cases hc : sh.ckph <;> simp [sck, he, hb, hc]

/-- The mask cell forwards its third input (42_combiner.md R107). -/
@[simp] theorem cellOut_mask (in2 in1 in0 : Bool) : cellOut 0xF0#8 in2 in1 in0 = in2 := by
  revert in2 in1 in0
  decide

/-- The final cell's function in closed form (42_combiner.md R109). -/
@[simp] theorem cellOut_final (clock data pulse : Bool) :
    cellOut 0xE0#8 clock data pulse = (clock && (data || pulse)) := by
  revert clock data pulse
  decide

/-- "with `LC_LUT0 = 0x00`: `M = 0`" (42_combiner.md R105). -/
@[simp] theorem cellOut_zero (in2 in1 in0 : Bool) : cellOut 0#8 in2 in1 in0 = false := by
  simp [cellOut]

/-- With LC_EN = 0 the pin is low (42_combiner.md R106). -/
theorem outPin_of_disabled {s : State} (h : s.lc.en = false) : outPin s = false := by
  simp [outPin, h]

/-- OUT with the combiner as BEGIN leaves it (42_combiner.md R109). -/
theorem outPin_of_ready {s : State} (h : CombinerReady s.lc) :
    outPin s = (sck s.sh && (sdo s.sh || wo s.tm)) := by
  unfold CombinerReady at h
  simp [outPin, maskOut, h]

end Sys2Proof.Machine
end

