-- ==== Sys2Proof/Laws/State.lean ====
section
/-! SUPPORT. What each update of State does to each field: one lemma per field per update, by rfl. -/

namespace Sys2Proof.Machine

/-! ### State.setShifter -/

@[simp] theorem State.setShifter_cfg (s : State) (x : Shifter) :
    (s.setShifter x).cfg = s.cfg := rfl
@[simp] theorem State.setShifter_sh (s : State) (x : Shifter) :
    (s.setShifter x).sh = x := rfl
@[simp] theorem State.setShifter_tm (s : State) (x : Shifter) :
    (s.setShifter x).tm = s.tm := rfl
@[simp] theorem State.setShifter_lc (s : State) (x : Shifter) :
    (s.setShifter x).lc = s.lc := rfl
@[simp] theorem State.setShifter_ie (s : State) (x : Shifter) :
    (s.setShifter x).ie = s.ie := rfl
@[simp] theorem State.setShifter_hostIdle (s : State) (x : Shifter) :
    (s.setShifter x).hostIdle = s.hostIdle := rfl
@[simp] theorem State.setShifter_begun (s : State) (x : Shifter) :
    (s.setShifter x).begun = s.begun := rfl
@[simp] theorem State.setShifter_t (s : State) (x : Shifter) :
    (s.setShifter x).t = s.t := rfl
@[simp] theorem State.setShifter_wait (s : State) (x : Shifter) :
    (s.setShifter x).wait = s.wait := rfl
@[simp] theorem State.setShifter_queue (s : State) (x : Shifter) :
    (s.setShifter x).queue = s.queue := rfl
@[simp] theorem State.setShifter_stream (s : State) (x : Shifter) :
    (s.setShifter x).stream = s.stream := rfl
@[simp] theorem State.setShifter_delays (s : State) (x : Shifter) :
    (s.setShifter x).delays = s.delays := rfl
@[simp] theorem State.setShifter_hostDelay (s : State) (x : Shifter) :
    (s.setShifter x).hostDelay = s.hostDelay := rfl
@[simp] theorem State.setShifter_applied (s : State) (x : Shifter) :
    (s.setShifter x).applied = s.applied := rfl
@[simp] theorem State.setShifter_trace (s : State) (x : Shifter) :
    (s.setShifter x).trace = s.trace := rfl

/-! ### State.setTimer -/

@[simp] theorem State.setTimer_cfg (s : State) (x : Timer) :
    (s.setTimer x).cfg = s.cfg := rfl
@[simp] theorem State.setTimer_sh (s : State) (x : Timer) :
    (s.setTimer x).sh = s.sh := rfl
@[simp] theorem State.setTimer_tm (s : State) (x : Timer) :
    (s.setTimer x).tm = x := rfl
@[simp] theorem State.setTimer_lc (s : State) (x : Timer) :
    (s.setTimer x).lc = s.lc := rfl
@[simp] theorem State.setTimer_ie (s : State) (x : Timer) :
    (s.setTimer x).ie = s.ie := rfl
@[simp] theorem State.setTimer_hostIdle (s : State) (x : Timer) :
    (s.setTimer x).hostIdle = s.hostIdle := rfl
@[simp] theorem State.setTimer_begun (s : State) (x : Timer) :
    (s.setTimer x).begun = s.begun := rfl
@[simp] theorem State.setTimer_t (s : State) (x : Timer) :
    (s.setTimer x).t = s.t := rfl
@[simp] theorem State.setTimer_wait (s : State) (x : Timer) :
    (s.setTimer x).wait = s.wait := rfl
@[simp] theorem State.setTimer_queue (s : State) (x : Timer) :
    (s.setTimer x).queue = s.queue := rfl
@[simp] theorem State.setTimer_stream (s : State) (x : Timer) :
    (s.setTimer x).stream = s.stream := rfl
@[simp] theorem State.setTimer_delays (s : State) (x : Timer) :
    (s.setTimer x).delays = s.delays := rfl
@[simp] theorem State.setTimer_hostDelay (s : State) (x : Timer) :
    (s.setTimer x).hostDelay = s.hostDelay := rfl
@[simp] theorem State.setTimer_applied (s : State) (x : Timer) :
    (s.setTimer x).applied = s.applied := rfl
@[simp] theorem State.setTimer_trace (s : State) (x : Timer) :
    (s.setTimer x).trace = s.trace := rfl

/-! ### State.setCombiner -/

@[simp] theorem State.setCombiner_cfg (s : State) (x : Combiner) :
    (s.setCombiner x).cfg = s.cfg := rfl
@[simp] theorem State.setCombiner_sh (s : State) (x : Combiner) :
    (s.setCombiner x).sh = s.sh := rfl
@[simp] theorem State.setCombiner_tm (s : State) (x : Combiner) :
    (s.setCombiner x).tm = s.tm := rfl
@[simp] theorem State.setCombiner_lc (s : State) (x : Combiner) :
    (s.setCombiner x).lc = x := rfl
@[simp] theorem State.setCombiner_ie (s : State) (x : Combiner) :
    (s.setCombiner x).ie = s.ie := rfl
@[simp] theorem State.setCombiner_hostIdle (s : State) (x : Combiner) :
    (s.setCombiner x).hostIdle = s.hostIdle := rfl
@[simp] theorem State.setCombiner_begun (s : State) (x : Combiner) :
    (s.setCombiner x).begun = s.begun := rfl
@[simp] theorem State.setCombiner_t (s : State) (x : Combiner) :
    (s.setCombiner x).t = s.t := rfl
@[simp] theorem State.setCombiner_wait (s : State) (x : Combiner) :
    (s.setCombiner x).wait = s.wait := rfl
@[simp] theorem State.setCombiner_queue (s : State) (x : Combiner) :
    (s.setCombiner x).queue = s.queue := rfl
@[simp] theorem State.setCombiner_stream (s : State) (x : Combiner) :
    (s.setCombiner x).stream = s.stream := rfl
@[simp] theorem State.setCombiner_delays (s : State) (x : Combiner) :
    (s.setCombiner x).delays = s.delays := rfl
@[simp] theorem State.setCombiner_hostDelay (s : State) (x : Combiner) :
    (s.setCombiner x).hostDelay = s.hostDelay := rfl
@[simp] theorem State.setCombiner_applied (s : State) (x : Combiner) :
    (s.setCombiner x).applied = s.applied := rfl
@[simp] theorem State.setCombiner_trace (s : State) (x : Combiner) :
    (s.setCombiner x).trace = s.trace := rfl

/-! ### State.setIe -/

@[simp] theorem State.setIe_cfg (s : State) (x : Bool) :
    (s.setIe x).cfg = s.cfg := rfl
@[simp] theorem State.setIe_sh (s : State) (x : Bool) :
    (s.setIe x).sh = s.sh := rfl
@[simp] theorem State.setIe_tm (s : State) (x : Bool) :
    (s.setIe x).tm = s.tm := rfl
@[simp] theorem State.setIe_lc (s : State) (x : Bool) :
    (s.setIe x).lc = s.lc := rfl
@[simp] theorem State.setIe_ie (s : State) (x : Bool) :
    (s.setIe x).ie = x := rfl
@[simp] theorem State.setIe_hostIdle (s : State) (x : Bool) :
    (s.setIe x).hostIdle = s.hostIdle := rfl
@[simp] theorem State.setIe_begun (s : State) (x : Bool) :
    (s.setIe x).begun = s.begun := rfl
@[simp] theorem State.setIe_t (s : State) (x : Bool) :
    (s.setIe x).t = s.t := rfl
@[simp] theorem State.setIe_wait (s : State) (x : Bool) :
    (s.setIe x).wait = s.wait := rfl
@[simp] theorem State.setIe_queue (s : State) (x : Bool) :
    (s.setIe x).queue = s.queue := rfl
@[simp] theorem State.setIe_stream (s : State) (x : Bool) :
    (s.setIe x).stream = s.stream := rfl
@[simp] theorem State.setIe_delays (s : State) (x : Bool) :
    (s.setIe x).delays = s.delays := rfl
@[simp] theorem State.setIe_hostDelay (s : State) (x : Bool) :
    (s.setIe x).hostDelay = s.hostDelay := rfl
@[simp] theorem State.setIe_applied (s : State) (x : Bool) :
    (s.setIe x).applied = s.applied := rfl
@[simp] theorem State.setIe_trace (s : State) (x : Bool) :
    (s.setIe x).trace = s.trace := rfl

/-! ### State.setBegun -/

@[simp] theorem State.setBegun_cfg (s : State) (x : Bool) :
    (s.setBegun x).cfg = s.cfg := rfl
@[simp] theorem State.setBegun_sh (s : State) (x : Bool) :
    (s.setBegun x).sh = s.sh := rfl
@[simp] theorem State.setBegun_tm (s : State) (x : Bool) :
    (s.setBegun x).tm = s.tm := rfl
@[simp] theorem State.setBegun_lc (s : State) (x : Bool) :
    (s.setBegun x).lc = s.lc := rfl
@[simp] theorem State.setBegun_ie (s : State) (x : Bool) :
    (s.setBegun x).ie = s.ie := rfl
@[simp] theorem State.setBegun_hostIdle (s : State) (x : Bool) :
    (s.setBegun x).hostIdle = s.hostIdle := rfl
@[simp] theorem State.setBegun_begun (s : State) (x : Bool) :
    (s.setBegun x).begun = x := rfl
@[simp] theorem State.setBegun_t (s : State) (x : Bool) :
    (s.setBegun x).t = s.t := rfl
@[simp] theorem State.setBegun_wait (s : State) (x : Bool) :
    (s.setBegun x).wait = s.wait := rfl
@[simp] theorem State.setBegun_queue (s : State) (x : Bool) :
    (s.setBegun x).queue = s.queue := rfl
@[simp] theorem State.setBegun_stream (s : State) (x : Bool) :
    (s.setBegun x).stream = s.stream := rfl
@[simp] theorem State.setBegun_delays (s : State) (x : Bool) :
    (s.setBegun x).delays = s.delays := rfl
@[simp] theorem State.setBegun_hostDelay (s : State) (x : Bool) :
    (s.setBegun x).hostDelay = s.hostDelay := rfl
@[simp] theorem State.setBegun_applied (s : State) (x : Bool) :
    (s.setBegun x).applied = s.applied := rfl
@[simp] theorem State.setBegun_trace (s : State) (x : Bool) :
    (s.setBegun x).trace = s.trace := rfl

/-! ### State.setWait -/

@[simp] theorem State.setWait_cfg (s : State) (x : Wait) :
    (s.setWait x).cfg = s.cfg := rfl
@[simp] theorem State.setWait_sh (s : State) (x : Wait) :
    (s.setWait x).sh = s.sh := rfl
@[simp] theorem State.setWait_tm (s : State) (x : Wait) :
    (s.setWait x).tm = s.tm := rfl
@[simp] theorem State.setWait_lc (s : State) (x : Wait) :
    (s.setWait x).lc = s.lc := rfl
@[simp] theorem State.setWait_ie (s : State) (x : Wait) :
    (s.setWait x).ie = s.ie := rfl
@[simp] theorem State.setWait_hostIdle (s : State) (x : Wait) :
    (s.setWait x).hostIdle = s.hostIdle := rfl
@[simp] theorem State.setWait_begun (s : State) (x : Wait) :
    (s.setWait x).begun = s.begun := rfl
@[simp] theorem State.setWait_t (s : State) (x : Wait) :
    (s.setWait x).t = s.t := rfl
@[simp] theorem State.setWait_wait (s : State) (x : Wait) :
    (s.setWait x).wait = x := rfl
@[simp] theorem State.setWait_queue (s : State) (x : Wait) :
    (s.setWait x).queue = s.queue := rfl
@[simp] theorem State.setWait_stream (s : State) (x : Wait) :
    (s.setWait x).stream = s.stream := rfl
@[simp] theorem State.setWait_delays (s : State) (x : Wait) :
    (s.setWait x).delays = s.delays := rfl
@[simp] theorem State.setWait_hostDelay (s : State) (x : Wait) :
    (s.setWait x).hostDelay = s.hostDelay := rfl
@[simp] theorem State.setWait_applied (s : State) (x : Wait) :
    (s.setWait x).applied = s.applied := rfl
@[simp] theorem State.setWait_trace (s : State) (x : Wait) :
    (s.setWait x).trace = s.trace := rfl

/-! ### State.setQueue -/

@[simp] theorem State.setQueue_cfg (s : State) (x : List QueueItem) :
    (s.setQueue x).cfg = s.cfg := rfl
@[simp] theorem State.setQueue_sh (s : State) (x : List QueueItem) :
    (s.setQueue x).sh = s.sh := rfl
@[simp] theorem State.setQueue_tm (s : State) (x : List QueueItem) :
    (s.setQueue x).tm = s.tm := rfl
@[simp] theorem State.setQueue_lc (s : State) (x : List QueueItem) :
    (s.setQueue x).lc = s.lc := rfl
@[simp] theorem State.setQueue_ie (s : State) (x : List QueueItem) :
    (s.setQueue x).ie = s.ie := rfl
@[simp] theorem State.setQueue_hostIdle (s : State) (x : List QueueItem) :
    (s.setQueue x).hostIdle = s.hostIdle := rfl
@[simp] theorem State.setQueue_begun (s : State) (x : List QueueItem) :
    (s.setQueue x).begun = s.begun := rfl
@[simp] theorem State.setQueue_t (s : State) (x : List QueueItem) :
    (s.setQueue x).t = s.t := rfl
@[simp] theorem State.setQueue_wait (s : State) (x : List QueueItem) :
    (s.setQueue x).wait = s.wait := rfl
@[simp] theorem State.setQueue_queue (s : State) (x : List QueueItem) :
    (s.setQueue x).queue = x := rfl
@[simp] theorem State.setQueue_stream (s : State) (x : List QueueItem) :
    (s.setQueue x).stream = s.stream := rfl
@[simp] theorem State.setQueue_delays (s : State) (x : List QueueItem) :
    (s.setQueue x).delays = s.delays := rfl
@[simp] theorem State.setQueue_hostDelay (s : State) (x : List QueueItem) :
    (s.setQueue x).hostDelay = s.hostDelay := rfl
@[simp] theorem State.setQueue_applied (s : State) (x : List QueueItem) :
    (s.setQueue x).applied = s.applied := rfl
@[simp] theorem State.setQueue_trace (s : State) (x : List QueueItem) :
    (s.setQueue x).trace = s.trace := rfl

/-! ### State.setStream -/

@[simp] theorem State.setStream_cfg (s : State) (x : List Word) :
    (s.setStream x).cfg = s.cfg := rfl
@[simp] theorem State.setStream_sh (s : State) (x : List Word) :
    (s.setStream x).sh = s.sh := rfl
@[simp] theorem State.setStream_tm (s : State) (x : List Word) :
    (s.setStream x).tm = s.tm := rfl
@[simp] theorem State.setStream_lc (s : State) (x : List Word) :
    (s.setStream x).lc = s.lc := rfl
@[simp] theorem State.setStream_ie (s : State) (x : List Word) :
    (s.setStream x).ie = s.ie := rfl
@[simp] theorem State.setStream_hostIdle (s : State) (x : List Word) :
    (s.setStream x).hostIdle = s.hostIdle := rfl
@[simp] theorem State.setStream_begun (s : State) (x : List Word) :
    (s.setStream x).begun = s.begun := rfl
@[simp] theorem State.setStream_t (s : State) (x : List Word) :
    (s.setStream x).t = s.t := rfl
@[simp] theorem State.setStream_wait (s : State) (x : List Word) :
    (s.setStream x).wait = s.wait := rfl
@[simp] theorem State.setStream_queue (s : State) (x : List Word) :
    (s.setStream x).queue = s.queue := rfl
@[simp] theorem State.setStream_stream (s : State) (x : List Word) :
    (s.setStream x).stream = x := rfl
@[simp] theorem State.setStream_delays (s : State) (x : List Word) :
    (s.setStream x).delays = s.delays := rfl
@[simp] theorem State.setStream_hostDelay (s : State) (x : List Word) :
    (s.setStream x).hostDelay = s.hostDelay := rfl
@[simp] theorem State.setStream_applied (s : State) (x : List Word) :
    (s.setStream x).applied = s.applied := rfl
@[simp] theorem State.setStream_trace (s : State) (x : List Word) :
    (s.setStream x).trace = s.trace := rfl

/-! ### State.prepend -/

@[simp] theorem State.prepend_cfg (s : State) (x : List QueueItem) :
    (s.prepend x).cfg = s.cfg := rfl
@[simp] theorem State.prepend_sh (s : State) (x : List QueueItem) :
    (s.prepend x).sh = s.sh := rfl
@[simp] theorem State.prepend_tm (s : State) (x : List QueueItem) :
    (s.prepend x).tm = s.tm := rfl
@[simp] theorem State.prepend_lc (s : State) (x : List QueueItem) :
    (s.prepend x).lc = s.lc := rfl
@[simp] theorem State.prepend_ie (s : State) (x : List QueueItem) :
    (s.prepend x).ie = s.ie := rfl
@[simp] theorem State.prepend_hostIdle (s : State) (x : List QueueItem) :
    (s.prepend x).hostIdle = s.hostIdle := rfl
@[simp] theorem State.prepend_begun (s : State) (x : List QueueItem) :
    (s.prepend x).begun = s.begun := rfl
@[simp] theorem State.prepend_t (s : State) (x : List QueueItem) :
    (s.prepend x).t = s.t := rfl
@[simp] theorem State.prepend_wait (s : State) (x : List QueueItem) :
    (s.prepend x).wait = s.wait := rfl
@[simp] theorem State.prepend_queue (s : State) (x : List QueueItem) :
    (s.prepend x).queue = x ++ s.queue := rfl
@[simp] theorem State.prepend_stream (s : State) (x : List QueueItem) :
    (s.prepend x).stream = s.stream := rfl
@[simp] theorem State.prepend_delays (s : State) (x : List QueueItem) :
    (s.prepend x).delays = s.delays := rfl
@[simp] theorem State.prepend_hostDelay (s : State) (x : List QueueItem) :
    (s.prepend x).hostDelay = s.hostDelay := rfl
@[simp] theorem State.prepend_applied (s : State) (x : List QueueItem) :
    (s.prepend x).applied = s.applied := rfl
@[simp] theorem State.prepend_trace (s : State) (x : List QueueItem) :
    (s.prepend x).trace = s.trace := rfl

end Sys2Proof.Machine
end

