-- ==== Sys2Proof/Laws/Ops.lean ====
section
/-! SUPPORT. What the shared operations do: the block tick rules case by case, the `Tick` step field by
field, `n` ticks, and the parts of the `Cmd` step. -/

namespace Sys2Proof.Machine

/-! ### The shifter tick rule, case by case (40_shifter.md R77) -/

/-- "SH_BUSY = 0: no field changes". -/
@[simp] theorem shifterTick_idle {rx : Byte} {sh : Shifter} (h : sh.busy = false) :
    shifterTick rx sh = sh := by
  simp [shifterTick, h]

/-- Inside a bit cell only SH_PHASE moves. -/
theorem shifterTick_mid {rx : Byte} {sh : Shifter} (hb : sh.busy = true)
    (hp : sh.phase.toNat + 1 ≠ sh.div.toNat) :
    shifterTick rx sh = { sh with phase := sh.phase + 1 } := by
  simp [shifterTick, hb, hp]

/-- `SH_SHIFT[6:0] ++ 0b0` is a left shift by one with 0 entering. -/
theorem shiftLeft_zero_fill (b : Byte) : b.extractLsb' 0 7 ++ 0#1 = b <<< 1 := by
  revert b
  decide

/-- The end of one of the first seven bit cells. -/
theorem shifterTick_cellEnd {rx : Byte} {sh : Shifter} (hb : sh.busy = true)
    (hp : sh.phase.toNat + 1 = sh.div.toNat) (hc : sh.bitcnt.toNat + 1 ≠ 8) :
    shifterTick rx sh =
      { sh with phase := 0#8, shift := sh.shift <<< 1, rx := rx, bitcnt := sh.bitcnt + 1 } := by
  simp [shifterTick, noteCellEnd, hb, hp, hc, shiftLeft_zero_fill]

/-- The end of the eighth bit cell. -/
theorem shifterTick_last {rx : Byte} {sh : Shifter} (hb : sh.busy = true)
    (hp : sh.phase.toNat + 1 = sh.div.toNat) (hc : sh.bitcnt.toNat + 1 = 8) :
    shifterTick rx sh =
      { sh with
        phase := 0#8, shift := sh.shift <<< 1, rx := rx, bitcnt := sh.bitcnt + 1,
        busy := false, iflag := true } := by
  simp [shifterTick, noteCellEnd, hb, hp, hc, shiftLeft_zero_fill]

/-- The tick rule writes none of the configuration fields, nor SH_WCOL. -/
theorem shifterTick_frame (rx : Byte) (sh : Shifter) :
    (shifterTick rx sh).en = sh.en ∧ (shifterTick rx sh).mstr = sh.mstr ∧
    (shifterTick rx sh).dord = sh.dord ∧ (shifterTick rx sh).ckph = sh.ckph ∧
    (shifterTick rx sh).div = sh.div ∧ (shifterTick rx sh).wcol = sh.wcol := by
  unfold shifterTick noteCellEnd
  split
  · split
    · split <;> simp
    · simp
  · simp

/-! ### The timer tick rule, case by case (41_timer.md R92) -/

/-- "TM_RUN = 0: TM_CNT holds". -/
@[simp] theorem timerTick_stopped {tm : Timer} (h : tm.run = false) : timerTick tm = tm := by
  simp [timerTick, h]

theorem timerTick_wrap {tm : Timer} (hr : tm.run = true) (h : tm.cnt = tm.top) :
    timerTick tm = { tm with cnt := 0#8 } := by
  simp [timerTick, hr, h]

theorem timerTick_count {tm : Timer} (hr : tm.run = true) (h : tm.cnt ≠ tm.top) :
    timerTick tm = { tm with cnt := tm.cnt + 1 } := by
  simp [timerTick, hr, h]

/-- The tick rule writes TM_CNT only. -/
theorem timerTick_frame (tm : Timer) :
    (timerTick tm).mode = tm.mode ∧ (timerTick tm).top = tm.top ∧
    (timerTick tm).cmp = tm.cmp ∧ (timerTick tm).run = tm.run := by
  unfold timerTick
  split
  · split <;> simp
  · simp

/-! ### The `Tick` step, field by field (44_machine_step.md R134) -/

@[simp] theorem tick_cfg (s : State) : (tick s).cfg = s.cfg := rfl
@[simp] theorem tick_lc (s : State) : (tick s).lc = s.lc := rfl
@[simp] theorem tick_ie (s : State) : (tick s).ie = s.ie := rfl
@[simp] theorem tick_begun (s : State) : (tick s).begun = s.begun := rfl
@[simp] theorem tick_queue (s : State) : (tick s).queue = s.queue := rfl
@[simp] theorem tick_stream (s : State) : (tick s).stream = s.stream := rfl
@[simp] theorem tick_delays (s : State) : (tick s).delays = s.delays := rfl
@[simp] theorem tick_applied (s : State) : (tick s).applied = s.applied := rfl
@[simp] theorem tick_t (s : State) : (tick s).t = s.t + 1 := rfl
@[simp] theorem tick_sh (s : State) : (tick s).sh = shifterTick (Config.freeRx s.t) s.sh := rfl
@[simp] theorem tick_tm (s : State) : (tick s).tm = timerTick s.tm := rfl
@[simp] theorem tick_wait (s : State) : (tick s).wait = waitTick s.wait := rfl
@[simp] theorem tick_hostIdle (s : State) : (tick s).hostIdle = idleTick s.t s.wait := rfl
@[simp] theorem tick_trace (s : State) : (tick s).trace = signals s :: s.trace := rfl
@[simp] theorem tick_hostDelay (s : State) :
    (tick s).hostDelay = if cmdEnabled s then s.hostDelay - 1 else s.hostDelay := rfl

@[simp] theorem restEmpty_tick (s : State) : restEmpty (tick s) = restEmpty s := rfl

@[simp] theorem outTrace_tick (s : State) : (tick s).outTrace = s.outTrace ++ [outPin s] := by
  simp [State.outTrace, signals]

/-! ### `n` ticks -/

@[simp] theorem ticks_zero (s : State) : ticks 0 s = s := rfl

theorem ticks_succ (n : Nat) (s : State) : ticks (n + 1) s = ticks n (tick s) := rfl

theorem ticks_add (m n : Nat) (s : State) : ticks (m + n) s = ticks n (ticks m s) := by
  induction m generalizing s with
  | zero => simp
  | succ m ih => rw [Nat.succ_add, ticks_succ, ticks_succ, ih]

theorem ticks_succ' (n : Nat) (s : State) : ticks (n + 1) s = tick (ticks n s) := by
  rw [ticks_add]
  rfl

@[simp] theorem ticks_cfg (n : Nat) (s : State) : (ticks n s).cfg = s.cfg := by
  induction n with
  | zero => rfl
  | succ n ih => rw [ticks_succ', tick_cfg, ih]
@[simp] theorem ticks_lc (n : Nat) (s : State) : (ticks n s).lc = s.lc := by
  induction n with
  | zero => rfl
  | succ n ih => rw [ticks_succ', tick_lc, ih]
@[simp] theorem ticks_ie (n : Nat) (s : State) : (ticks n s).ie = s.ie := by
  induction n with
  | zero => rfl
  | succ n ih => rw [ticks_succ', tick_ie, ih]
@[simp] theorem ticks_begun (n : Nat) (s : State) : (ticks n s).begun = s.begun := by
  induction n with
  | zero => rfl
  | succ n ih => rw [ticks_succ', tick_begun, ih]
@[simp] theorem ticks_queue (n : Nat) (s : State) : (ticks n s).queue = s.queue := by
  induction n with
  | zero => rfl
  | succ n ih => rw [ticks_succ', tick_queue, ih]
@[simp] theorem ticks_stream (n : Nat) (s : State) : (ticks n s).stream = s.stream := by
  induction n with
  | zero => rfl
  | succ n ih => rw [ticks_succ', tick_stream, ih]
@[simp] theorem ticks_delays (n : Nat) (s : State) : (ticks n s).delays = s.delays := by
  induction n with
  | zero => rfl
  | succ n ih => rw [ticks_succ', tick_delays, ih]
@[simp] theorem ticks_applied (n : Nat) (s : State) : (ticks n s).applied = s.applied := by
  induction n with
  | zero => rfl
  | succ n ih => rw [ticks_succ', tick_applied, ih]

@[simp] theorem ticks_t (n : Nat) (s : State) : (ticks n s).t = s.t + n := by
  induction n with
  | zero => rfl
  | succ n ih => rw [ticks_succ', tick_t, ih]; omega

/-- Each tick records one sample (44_machine_step.md R132). -/
theorem length_trace_ticks (n : Nat) (s : State) :
    (ticks n s).trace.length = s.trace.length + n := by
  induction n with
  | zero => rfl
  | succ n ih => rw [ticks_succ', tick_trace, List.length_cons, ih]; omega

/-- The observation after `n` ticks: OUT of each state passed is appended (44_machine_step.md R137). -/
theorem outTrace_ticks (n : Nat) (s : State) :
    (ticks n s).outTrace = s.outTrace ++ (List.range n).map (fun j => outPin (ticks j s)) := by
  induction n with
  | zero => simp
  | succ n ih => simp [ticks_succ', ih, List.range_succ]

/-- An idle shifter stays as it is while ticks pass (40_shifter.md R77). -/
theorem ticks_sh_of_idle {s : State} (h : s.sh.busy = false) (n : Nat) : (ticks n s).sh = s.sh := by
  induction n with
  | zero => rfl
  | succ n ih => rw [ticks_succ', tick_sh, ih, shifterTick_idle h]

/-- A stopped timer stays as it is while ticks pass (41_timer.md R92). -/
theorem ticks_tm_of_stopped {s : State} (h : s.tm.run = false) (n : Nat) : (ticks n s).tm = s.tm := by
  induction n with
  | zero => rfl
  | succ n ih => rw [ticks_succ', tick_tm, ih, timerTick_stopped h]

/-! ### The parts of the `Cmd` step -/

@[simp] theorem clearWait_cfg (s : State) : (clearWait s).cfg = s.cfg := rfl
@[simp] theorem clearWait_sh (s : State) : (clearWait s).sh = s.sh := rfl
@[simp] theorem clearWait_tm (s : State) : (clearWait s).tm = s.tm := rfl
@[simp] theorem clearWait_lc (s : State) : (clearWait s).lc = s.lc := rfl
@[simp] theorem clearWait_ie (s : State) : (clearWait s).ie = s.ie := rfl
@[simp] theorem clearWait_begun (s : State) : (clearWait s).begun = s.begun := rfl
@[simp] theorem clearWait_t (s : State) : (clearWait s).t = s.t := rfl
@[simp] theorem clearWait_queue (s : State) : (clearWait s).queue = s.queue := rfl
@[simp] theorem clearWait_stream (s : State) : (clearWait s).stream = s.stream := rfl
@[simp] theorem clearWait_delays (s : State) : (clearWait s).delays = s.delays := rfl
@[simp] theorem clearWait_hostDelay (s : State) : (clearWait s).hostDelay = s.hostDelay := rfl
@[simp] theorem clearWait_applied (s : State) : (clearWait s).applied = s.applied := rfl
@[simp] theorem clearWait_trace (s : State) : (clearWait s).trace = s.trace := rfl
@[simp] theorem clearWait_wait (s : State) : (clearWait s).wait = .none := rfl
@[simp] theorem clearWait_hostIdle (s : State) : (clearWait s).hostIdle = false := rfl

@[simp] theorem drawDelay_cfg (s : State) : (drawDelay s).cfg = s.cfg := by
  unfold drawDelay; split <;> rfl
@[simp] theorem drawDelay_sh (s : State) : (drawDelay s).sh = s.sh := by
  unfold drawDelay; split <;> rfl
@[simp] theorem drawDelay_tm (s : State) : (drawDelay s).tm = s.tm := by
  unfold drawDelay; split <;> rfl
@[simp] theorem drawDelay_lc (s : State) : (drawDelay s).lc = s.lc := by
  unfold drawDelay; split <;> rfl
@[simp] theorem drawDelay_ie (s : State) : (drawDelay s).ie = s.ie := by
  unfold drawDelay; split <;> rfl
@[simp] theorem drawDelay_hostIdle (s : State) : (drawDelay s).hostIdle = s.hostIdle := by
  unfold drawDelay; split <;> rfl
@[simp] theorem drawDelay_begun (s : State) : (drawDelay s).begun = s.begun := by
  unfold drawDelay; split <;> rfl
@[simp] theorem drawDelay_t (s : State) : (drawDelay s).t = s.t := by
  unfold drawDelay; split <;> rfl
@[simp] theorem drawDelay_wait (s : State) : (drawDelay s).wait = s.wait := by
  unfold drawDelay; split <;> rfl
@[simp] theorem drawDelay_queue (s : State) : (drawDelay s).queue = s.queue := by
  unfold drawDelay; split <;> rfl
@[simp] theorem drawDelay_stream (s : State) : (drawDelay s).stream = s.stream := by
  unfold drawDelay; split <;> rfl
@[simp] theorem drawDelay_trace (s : State) : (drawDelay s).trace = s.trace := by
  unfold drawDelay; split <;> rfl
@[simp] theorem drawDelay_applied (s : State) : (drawDelay s).applied = s.applied + 1 := by
  unfold drawDelay; split <;> rfl

theorem drawDelay_of_given {s : State} {d : Nat} {ds : List Nat} (h : s.delays = d :: ds) :
    (drawDelay s).hostDelay = boundedDelay s d ∧ (drawDelay s).delays = ds := by
  simp [drawDelay, h]

/-- With IE = 0 every delay is at most `L_MAX` (60_exceptions.md R160). -/
theorem boundedDelay_le {s : State} (h : s.ie = false) (d : Nat) : boundedDelay s d ≤ s.cfg.lMax := by
  simp [boundedDelay, h]

theorem drawDelay_hostDelay_le {s : State} (h : s.ie = false) :
    (drawDelay s).hostDelay ≤ s.cfg.lMax := by
  unfold drawDelay
  split
  · exact boundedDelay_le h _
  · exact boundedDelay_le h _

@[simp] theorem markBegun_cfg (e : Bool) (s : State) : (markBegun e s).cfg = s.cfg := by
  cases e <;> rfl
@[simp] theorem markBegun_sh (e : Bool) (s : State) : (markBegun e s).sh = s.sh := by
  cases e <;> rfl
@[simp] theorem markBegun_tm (e : Bool) (s : State) : (markBegun e s).tm = s.tm := by
  cases e <;> rfl
@[simp] theorem markBegun_lc (e : Bool) (s : State) : (markBegun e s).lc = s.lc := by
  cases e <;> rfl
@[simp] theorem markBegun_ie (e : Bool) (s : State) : (markBegun e s).ie = s.ie := by
  cases e <;> rfl
@[simp] theorem markBegun_hostIdle (e : Bool) (s : State) : (markBegun e s).hostIdle = s.hostIdle := by
  cases e <;> rfl
@[simp] theorem markBegun_t (e : Bool) (s : State) : (markBegun e s).t = s.t := by
  cases e <;> rfl
@[simp] theorem markBegun_wait (e : Bool) (s : State) : (markBegun e s).wait = s.wait := by
  cases e <;> rfl
@[simp] theorem markBegun_queue (e : Bool) (s : State) : (markBegun e s).queue = s.queue := by
  cases e <;> rfl
@[simp] theorem markBegun_stream (e : Bool) (s : State) : (markBegun e s).stream = s.stream := by
  cases e <;> rfl
@[simp] theorem markBegun_delays (e : Bool) (s : State) : (markBegun e s).delays = s.delays := by
  cases e <;> rfl
@[simp] theorem markBegun_hostDelay (e : Bool) (s : State) : (markBegun e s).hostDelay = s.hostDelay := by
  cases e <;> rfl
@[simp] theorem markBegun_applied (e : Bool) (s : State) : (markBegun e s).applied = s.applied := by
  cases e <;> rfl
@[simp] theorem markBegun_trace (e : Bool) (s : State) : (markBegun e s).trace = s.trace := by
  cases e <;> rfl
@[simp] theorem markBegun_begun (e : Bool) (s : State) : (markBegun e s).begun = (e || s.begun) := by
  cases e <;> rfl

/-- While the host waits for SH_IF it goes on waiting as ticks pass. -/
theorem ticks_wait_xfer {s : State} (h : s.wait = .xfer) (n : Nat) : (ticks n s).wait = .xfer := by
  induction n with
  | zero => exact h
  | succ n ih => rw [ticks_succ', tick_wait, ih]; rfl

/-- A latch wait counts down by one a tick (44_machine_step.md R134). -/
theorem ticks_wait_latch {s : State} {k : Nat} (h : s.wait = .latch k) (n : Nat) :
    (ticks n s).wait = .latch (k - n) := by
  induction n with
  | zero => exact h
  | succ n ih => rw [ticks_succ', tick_wait, ih]; simp [waitTick]; omega

/-- SH_XFER writes none of the configuration fields, nor SH_RX (40_shifter.md R76). -/
theorem writeTransmit_frame (byte : Byte) (sh : Shifter) :
    (writeTransmit byte sh).en = sh.en ∧ (writeTransmit byte sh).mstr = sh.mstr ∧
    (writeTransmit byte sh).dord = sh.dord ∧ (writeTransmit byte sh).ckph = sh.ckph ∧
    (writeTransmit byte sh).div = sh.div ∧ (writeTransmit byte sh).rx = sh.rx := by
  unfold writeTransmit
  split
  · split <;> simp
  · simp

/-! ### The configuration check and the guards -/

/-- The check of a `Cfg` is the constraints of 00_scope.md R6. -/
theorem cfgOk_iff (c : Cfg) : cfgOk c = true ↔ CfgLegal c := by
  simp [cfgOk, CfgLegal]
  omega

/-- `ticksOfMicros` is the ceiling that R5 writes for `RESET_TICKS`. -/
theorem ticksOfMicros_eq_ceil (fSys micros : Nat) :
    ticksOfMicros fSys micros = ⌈(micros : ℚ) * fSys / 1000000⌉₊ := by
  apply le_antisymm
  · rw [ticksOfMicros, Nat.div_le_iff_le_mul_add_pred (by norm_num)]
    have h : (micros : ℚ) * fSys ≤ 1000000 * ⌈(micros : ℚ) * fSys / 1000000⌉₊ := by
      have := Nat.le_ceil ((micros : ℚ) * fSys / 1000000)
      rwa [div_le_iff₀' (by norm_num)] at this
    have h' : micros * fSys ≤ 1000000 * ⌈(micros : ℚ) * fSys / 1000000⌉₊ := by exact_mod_cast h
    omega
  · rw [Nat.ceil_le, div_le_iff₀' (by norm_num)]
    have h : micros * fSys ≤ 1000000 * ticksOfMicros fSys micros := by
      rw [ticksOfMicros]
      omega
    exact_mod_cast h

/-- The check refuses while SH_BUSY = 1 and lets through otherwise (60_exceptions.md R157). -/
@[simp] theorem unlessBusy_eq_next {i : Instr} {s e u : State} :
    unlessBusy i s e = .next u ↔ s.sh.busy = false ∧ e = u := by
  cases h : s.sh.busy <;> simp [unlessBusy, h]

@[simp] theorem ifBegun_eq_next {r : Refusal} {s e u : State} :
    ifBegun r s e = .next u ↔ s.begun = true ∧ e = u := by
  cases h : s.begun <;> simp [ifBegun, h]

end Sys2Proof.Machine
end

