-- ==== Sys2Proof/Laws/Blocks.lean ====
section
/-! SUPPORT. The shifter and the timer over any number of ticks, in closed form: where a transfer
stands after `j` ticks, and where a running counter stands. -/

namespace Sys2Proof.Machine

/-! ### A transfer -/

/-- A transfer that has just started: cell 0, phase 0 (40_shifter.md R76). -/
def AtTransferStart (sh : Shifter) : Prop :=
  sh.busy = true ∧ sh.phase = 0#8 ∧ sh.bitcnt = 0#4 ∧ 0 < sh.div.toNat

/-- SH_XFER on an enabled idle shifter (40_shifter.md R76). -/
theorem startTransfer_of_idle {byte : Byte} {s : State} (he : s.sh.en = true) (hb : s.sh.busy = false) :
    startTransfer byte s =
      { s with
        sh := { s.sh with
          wcol := false, shift := byte, bitcnt := 0#4, phase := 0#8, busy := true, iflag := false }
        wait := .xfer } := by
  simp [startTransfer, writeTransmit, clearCollision, he, hb, State.setShifter, State.setWait]

/-- SH_XFER during a transfer: the collision (40_shifter.md R82). -/
theorem startTransfer_of_busy {byte : Byte} {s : State} (he : s.sh.en = true) (hb : s.sh.busy = true) :
    startTransfer byte s = { s with sh := { s.sh with wcol := true }, wait := .xfer } := by
  simp [startTransfer, writeTransmit, clearCollision, he, hb, State.setShifter, State.setWait]

/-- SH_XFER on a disabled shifter (40_shifter.md R83). -/
theorem startTransfer_of_disabled {byte : Byte} {s : State} (he : s.sh.en = false) :
    startTransfer byte s = { s with sh := { s.sh with wcol := false }, wait := .xfer } := by
  simp [startTransfer, writeTransmit, clearCollision, he, State.setShifter, State.setWait]

/-- It leaves the transfer at its start. -/
theorem startTransfer_atTransferStart (byte : Byte) {s : State} (he : s.sh.en = true)
    (hb : s.sh.busy = false) (hd : 0 < s.sh.div.toNat) : AtTransferStart (startTransfer byte s).sh := by
  rw [startTransfer_of_idle he hb]
  exact ⟨rfl, rfl, rfl, hd⟩

/-- Where a transfer stands after `j` ticks: cell `j / N`, phase `j % N`, the byte shifted once per cell. -/
theorem ticks_sh_in_transfer {s : State} (h : AtTransferStart s.sh) {j : Nat}
    (hj : j < 8 * s.sh.div.toNat) :
    ∃ rx, (ticks j s).sh = { s.sh with
      phase := BitVec.ofNat 8 (j % s.sh.div.toNat), shift := s.sh.shift <<< (j / s.sh.div.toNat),
      bitcnt := BitVec.ofNat 4 (j / s.sh.div.toNat), rx := rx } := by
  obtain ⟨hb, hp, hc, hN⟩ := h
  have hN' : s.sh.div.toNat < 256 := s.sh.div.isLt
  induction j with
  | zero => exact ⟨s.sh.rx, by simp [hp.symm, hc.symm]⟩
  | succ j ih =>
    obtain ⟨rx, hsh⟩ := ih (by omega)
    have hq : j / s.sh.div.toNat < 8 := Nat.div_lt_of_lt_mul (by rw [Nat.mul_comm]; omega)
    have hk : j % s.sh.div.toNat < s.sh.div.toNat := Nat.mod_lt _ hN
    have hdm := Nat.div_add_mod j s.sh.div.toNat
    have hphase : (ticks j s).sh.phase.toNat = j % s.sh.div.toNat := by
      rw [hsh]; simp; omega
    have hcnt : (ticks j s).sh.bitcnt.toNat = j / s.sh.div.toNat := by
      rw [hsh]; simp; omega
    have hbusy : (ticks j s).sh.busy = true := by rw [hsh]; exact hb
    have hdiv : (ticks j s).sh.div.toNat = s.sh.div.toNat := by rw [hsh]
    rw [ticks_succ', tick_sh]
    by_cases he : j % s.sh.div.toNat + 1 = s.sh.div.toNat
    · have h1 : (j + 1) % s.sh.div.toNat = 0 := by
        rw [show j + 1 = s.sh.div.toNat * (j / s.sh.div.toNat + 1) by rw [Nat.mul_add]; omega]
        simp
      have h2 : (j + 1) / s.sh.div.toNat = j / s.sh.div.toNat + 1 := by
        rw [show j + 1 = s.sh.div.toNat * (j / s.sh.div.toNat + 1) by rw [Nat.mul_add]; omega]
        exact Nat.mul_div_cancel_left _ hN
      have hq' : (j + 1) / s.sh.div.toNat < 8 :=
        Nat.div_lt_of_lt_mul (by rw [Nat.mul_comm]; exact hj)
      rw [shifterTick_cellEnd hbusy (by rw [hphase, hdiv, he]) (by rw [hcnt]; omega)]
      refine ⟨Config.freeRx (ticks j s).t, ?_⟩
      rw [hsh, h1, h2]
      simp [BitVec.shiftLeft_add, BitVec.ofNat_add]
    · have h1 : (j + 1) % s.sh.div.toNat = j % s.sh.div.toNat + 1 := by
        rw [Nat.add_mod, Nat.mod_eq_of_lt (show 1 < s.sh.div.toNat by omega)]
        exact Nat.mod_eq_of_lt (by omega)
      have h2 : (j + 1) / s.sh.div.toNat = j / s.sh.div.toNat := by
        rw [Nat.div_eq_iff hN]
        constructor <;> rw [Nat.mul_comm] <;> omega
      rw [shifterTick_mid hbusy (by rw [hphase, hdiv]; exact he)]
      refine ⟨rx, ?_⟩
      rw [hsh, h1, h2]
      simp [BitVec.ofNat_add]

/-- A transfer is complete after `8 N` ticks, and stays so while ticks pass. -/
theorem ticks_sh_after_transfer {s : State} (h : AtTransferStart s.sh) {j : Nat}
    (hj : 8 * s.sh.div.toNat ≤ j) :
    ∃ rx, (ticks j s).sh = { s.sh with
      phase := 0#8, shift := 0#8, bitcnt := 8#4, rx := rx, busy := false, iflag := true } := by
  have hN := h.2.2.2
  have hN' : s.sh.div.toNat < 256 := s.sh.div.isLt
  have hend : ∃ rx, (ticks (8 * s.sh.div.toNat) s).sh = { s.sh with
      phase := 0#8, shift := 0#8, bitcnt := 8#4, rx := rx, busy := false, iflag := true } := by
    have hlt : 8 * s.sh.div.toNat - 1 < 8 * s.sh.div.toNat := by omega
    obtain ⟨rx, hsh⟩ := ticks_sh_in_transfer h hlt
    have heq : 8 * s.sh.div.toNat - 1 = s.sh.div.toNat * 7 + (s.sh.div.toNat - 1) := by omega
    have hq : (8 * s.sh.div.toNat - 1) / s.sh.div.toNat = 7 := by
      rw [heq, Nat.mul_add_div hN, Nat.div_eq_of_lt (by omega)]
    have hm : (8 * s.sh.div.toNat - 1) % s.sh.div.toNat = s.sh.div.toNat - 1 := by
      rw [heq, Nat.mul_add_mod, Nat.mod_eq_of_lt (by omega)]
    rw [hq, hm] at hsh
    rw [show 8 * s.sh.div.toNat = (8 * s.sh.div.toNat - 1) + 1 by omega, ticks_succ', tick_sh]
    rw [shifterTick_last (by rw [hsh]; exact h.1) (by rw [hsh]; simp; omega) (by rw [hsh]; rfl)]
    refine ⟨Config.freeRx (ticks (8 * s.sh.div.toNat - 1) s).t, ?_⟩
    rw [hsh]
    have hz : s.sh.shift <<< 7 <<< 1 = 0#8 := by
      rw [← BitVec.shiftLeft_add]
      exact BitVec.shiftLeft_eq_zero (by omega)
    simp [hz]
  obtain ⟨rx, hsh⟩ := hend
  refine ⟨rx, ?_⟩
  rw [show j = 8 * s.sh.div.toNat + (j - 8 * s.sh.div.toNat) by omega, ticks_add,
    ticks_sh_of_idle (by rw [hsh]), hsh]

/-! ### A running counter -/

/-- A running timer's other fields hold while ticks pass. -/
theorem ticks_tm_fields (n : Nat) (s : State) :
    (ticks n s).tm.mode = s.tm.mode ∧ (ticks n s).tm.top = s.tm.top ∧
    (ticks n s).tm.cmp = s.tm.cmp ∧ (ticks n s).tm.run = s.tm.run := by
  induction n with
  | zero => simp
  | succ n ih =>
    rw [ticks_succ', tick_tm]
    obtain ⟨h1, h2, h3, h4⟩ := timerTick_frame (ticks n s).tm
    simp [h1, h2, h3, h4, ih]

/-- A count above TM_TOP climbs to 255 (41_timer.md R92). -/
theorem ticks_cnt_climbing {s : State} (hr : s.tm.run = true) (hv : s.tm.top.toNat < s.tm.cnt.toNat)
    {j : Nat} (hj : s.tm.cnt.toNat + j ≤ 255) : (ticks j s).tm.cnt.toNat = s.tm.cnt.toNat + j := by
  induction j with
  | zero => rfl
  | succ j ih =>
    have ih := ih (by omega)
    obtain ⟨-, htop, -, hrun⟩ := ticks_tm_fields j s
    have hne : (ticks j s).tm.cnt ≠ (ticks j s).tm.top := by
      intro he
      have := congrArg BitVec.toNat he
      rw [ih, htop] at this
      omega
    rw [ticks_succ', tick_tm, timerTick_count (by rw [hrun, hr]) hne]
    simp only [BitVec.toNat_add, ih]
    simp
    omega

/-- A count inside the period goes round it (41_timer.md R92). -/
theorem ticks_cnt_cycling {s : State} (hr : s.tm.run = true) (hv : s.tm.cnt.toNat ≤ s.tm.top.toNat)
    (j : Nat) : (ticks j s).tm.cnt.toNat = (s.tm.cnt.toNat + j) % (s.tm.top.toNat + 1) := by
  have htlt := s.tm.top.isLt
  induction j with
  | zero => rw [ticks_zero, Nat.add_zero, Nat.mod_eq_of_lt (by omega)]
  | succ j ih =>
    obtain ⟨-, htop, -, hrun⟩ := ticks_tm_fields j s
    have hm := Nat.mod_lt (s.tm.cnt.toNat + j) (show 0 < s.tm.top.toNat + 1 by omega)
    rw [ticks_succ', tick_tm]
    by_cases he : (ticks j s).tm.cnt = (ticks j s).tm.top
    · rw [timerTick_wrap (by rw [hrun, hr]) he]
      have he' := congrArg BitVec.toNat he
      rw [ih, htop] at he'
      rw [← Nat.add_assoc, Nat.add_mod, he']
      cases ht : s.tm.top.toNat with
      | zero => simp
      | succ p => rw [Nat.mod_eq_of_lt (show 1 < p + 1 + 1 by omega)]; simp
    · rw [timerTick_count (by rw [hrun, hr]) he]
      have hlt : (s.tm.cnt.toNat + j) % (s.tm.top.toNat + 1) ≠ s.tm.top.toNat := by
        intro hc
        apply he
        apply BitVec.eq_of_toNat_eq
        rw [ih, htop, hc]
      have h1 : (s.tm.cnt.toNat + (j + 1)) % (s.tm.top.toNat + 1) =
          (s.tm.cnt.toNat + j) % (s.tm.top.toNat + 1) + 1 := by
        rw [← Nat.add_assoc, Nat.add_mod, Nat.mod_eq_of_lt (show 1 < s.tm.top.toNat + 1 by omega)]
        exact Nat.mod_eq_of_lt (by omega)
      simp only [BitVec.toNat_add, ih]
      rw [h1]
      simp
      omega

end Sys2Proof.Machine
end

