-- ==== Sys2Proof/Laws/Decode.lean ====
section
/-! SUPPORT. The decoder's and the encoder's small lemmas: each field of each kind of word, and the
opcode table read in both directions. -/

namespace Sys2Proof

/-- The opcode column of R66 names each row once. -/
@[simp] theorem opcodeOf_opcodeValue (o : Opcode) : opcodeOf (opcodeValue o) = some o := by
  cases o <;> decide

/-- What `opcodeOf` finds has that opcode value. -/
theorem opcodeValue_of_opcodeOf {v : BitVec 8} {o : Opcode} (h : opcodeOf v = some o) :
    opcodeValue o = v := by
  have := List.find?_some h
  simpa using this

/-- No opcode value of R66 is found exactly when no row has it. -/
theorem opcodeOf_eq_none_iff (v : BitVec 8) : opcodeOf v = none ↔ ∀ o, opcodeValue o ≠ v := by
  constructor
  · rintro h o rfl
    simp at h
  · intro h
    cases ho : opcodeOf v with
    | none => rfl
    | some o => exact absurd (opcodeValue_of_opcodeOf ho) (h o)

/-! ### The fields of a built word -/

/-- A word is its opcode field followed by its operand field. -/
theorem word_eq_fields (w : Word) : fieldOpcode w ++ fieldOperand w = w := by
  apply BitVec.eq_of_getLsbD_eq
  intro i hi
  simp only [fieldOpcode, fieldOperand, BitVec.getLsbD_append, BitVec.getLsbD_extractLsb']
  by_cases h : i < 24
  · simp [h]
  · simp [h, show i - 24 < 8 by omega, show 24 + (i - 24) = i by omega]

@[simp] theorem fieldOpcode_append (a : BitVec 8) (x : BitVec 24) : fieldOpcode (a ++ x) = a := by
  apply BitVec.eq_of_getLsbD_eq
  intro i hi
  simp only [fieldOpcode, BitVec.getLsbD_append, BitVec.getLsbD_extractLsb']
  simp [hi]

@[simp] theorem fieldOperand_append (a : BitVec 8) (x : BitVec 24) : fieldOperand (a ++ x) = x := by
  apply BitVec.eq_of_getLsbD_eq
  intro i hi
  simp only [fieldOperand, BitVec.getLsbD_append, BitVec.getLsbD_extractLsb']
  simp [hi]

@[simp] theorem fieldOpcode_headerWord (o : Opcode) (x : BitVec 24) :
    fieldOpcode (headerWord o x) = opcodeValue o := fieldOpcode_append _ _

@[simp] theorem fieldOperand_headerWord (o : Opcode) (x : BitVec 24) :
    fieldOperand (headerWord o x) = x := fieldOperand_append _ _

@[simp] theorem fieldOpcode_payloadWord (p : Pixel) : fieldOpcode (payloadWord p) = 0#8 :=
  fieldOpcode_append _ _

/-- The byte and zero fields of a word are parts of its operand field. -/
theorem fieldByte_eq (w : Word) : fieldByte w = (fieldOperand w).extractLsb' 0 8 := by
  apply BitVec.eq_of_getLsbD_eq
  intro i hi
  simp only [fieldByte, fieldOperand, BitVec.getLsbD_extractLsb']
  simp [hi, show i < 24 by omega]

theorem fieldZeroB_eq (w : Word) : fieldZeroB w = (fieldOperand w).extractLsb' 8 16 := by
  apply BitVec.eq_of_getLsbD_eq
  intro i hi
  simp only [fieldZeroB, fieldOperand, BitVec.getLsbD_extractLsb']
  simp [hi, show 8 + i < 24 by omega]

theorem fieldRed_eq (w : Word) : fieldRed w = (fieldOperand w).extractLsb' 16 8 := by
  apply BitVec.eq_of_getLsbD_eq
  intro i hi
  simp only [fieldRed, fieldOperand, BitVec.getLsbD_extractLsb']
  simp [hi, show 16 + i < 24 by omega]

theorem fieldGreen_eq (w : Word) : fieldGreen w = (fieldOperand w).extractLsb' 8 8 := by
  apply BitVec.eq_of_getLsbD_eq
  intro i hi
  simp only [fieldGreen, fieldOperand, BitVec.getLsbD_extractLsb']
  simp [hi, show 8 + i < 24 by omega]

theorem fieldBlue_eq (w : Word) : fieldBlue w = (fieldOperand w).extractLsb' 0 8 := fieldByte_eq w

@[simp] theorem fieldByte_headerWord (o : Opcode) (b : Byte) :
    fieldByte (headerWord o (0#16 ++ b)) = b := by
  rw [fieldByte_eq, fieldOperand_headerWord]
  apply BitVec.eq_of_getLsbD_eq
  intro i hi
  simp only [BitVec.getLsbD_append, BitVec.getLsbD_extractLsb']
  simp [hi]

@[simp] theorem fieldZeroB_headerWord (o : Opcode) (b : Byte) :
    fieldZeroB (headerWord o (0#16 ++ b)) = 0#16 := by
  rw [fieldZeroB_eq, fieldOperand_headerWord]
  apply BitVec.eq_of_getLsbD_eq
  intro i hi
  simp only [BitVec.getLsbD_append, BitVec.getLsbD_extractLsb']
  simp

/-- The pixel fields of a word whose operand field is a packed pixel (R64, R67). -/
theorem fieldPixel_of_operand {w : Word} {p : Pixel}
    (h : fieldOperand w = packPixel p.red p.green p.blue) : fieldPixel w = p := by
  have hr : fieldRed w = p.red := by
    rw [fieldRed_eq, h]
    apply BitVec.eq_of_getLsbD_eq
    intro i hi
    simp only [packPixel, BitVec.getLsbD_append, BitVec.getLsbD_extractLsb']
    simp [hi, show ¬ 16 + i < 8 by omega, show 16 + i - 8 = 8 + i by omega,
      show ¬ 8 + i < 8 by omega]
  have hg : fieldGreen w = p.green := by
    rw [fieldGreen_eq, h]
    apply BitVec.eq_of_getLsbD_eq
    intro i hi
    simp only [packPixel, BitVec.getLsbD_append, BitVec.getLsbD_extractLsb']
    simp [hi]
  have hb : fieldBlue w = p.blue := by
    rw [fieldBlue_eq, h]
    apply BitVec.eq_of_getLsbD_eq
    intro i hi
    simp only [packPixel, BitVec.getLsbD_append, BitVec.getLsbD_extractLsb']
    simp [hi]
  simp [fieldPixel, hr, hg, hb]

@[simp] theorem fieldPixel_payloadWord (p : Pixel) : fieldPixel (payloadWord p) = p :=
  fieldPixel_of_operand (fieldOperand_append _ _)

@[simp] theorem fieldPixel_headerWord (o : Opcode) (p : Pixel) :
    fieldPixel (headerWord o (packPixel p.red p.green p.blue)) = p :=
  fieldPixel_of_operand (fieldOperand_headerWord _ _)

/-! ### A word rebuilt from its fields -/

/-- The pixel fields of a word make up its operand field (R64). -/
theorem packPixel_fields (w : Word) :
    packPixel (fieldRed w) (fieldGreen w) (fieldBlue w) = fieldOperand w := by
  rw [fieldRed_eq, fieldGreen_eq, fieldBlue_eq]
  generalize fieldOperand w = x
  apply BitVec.eq_of_getLsbD_eq
  intro i hi
  simp only [packPixel, BitVec.getLsbD_append, BitVec.getLsbD_extractLsb']
  by_cases h8 : i < 8
  · simp [h8]
  · by_cases h16 : i - 8 < 8
    · simp [h8, h16, show 8 + (i - 8) = i by omega]
    · simp [h8, h16, show i - 8 - 8 < 8 by omega, show 16 + (i - 8 - 8) = i by omega]

/-- A payload word with bits 31:24 zero is the payload word of its pixel (R65). -/
theorem payloadWord_fieldPixel {w : Word} (h : fieldOpcode w = 0#8) :
    payloadWord (fieldPixel w) = w := by
  simp only [payloadWord, fieldPixel, packPixel_fields, ← h, word_eq_fields]

/-- A word whose bits 23:8 are zero carries its byte (R63). -/
theorem zero_append_fieldByte {w : Word} (h : fieldZeroB w = 0#16) :
    0#16 ++ fieldByte w = fieldOperand w := by
  rw [← h, fieldZeroB_eq, fieldByte_eq]
  generalize fieldOperand w = x
  apply BitVec.eq_of_getLsbD_eq
  intro i hi
  simp only [BitVec.getLsbD_append, BitVec.getLsbD_extractLsb']
  by_cases h8 : i < 8
  · simp [h8]
  · simp [h8, show i - 8 < 16 by omega, show 8 + (i - 8) = i by omega]

/-- A word with a row's opcode is the header of that row with the word's operand field. -/
theorem headerWord_fieldOperand {w : Word} {o : Opcode} (h : opcodeOf (fieldOpcode w) = some o) :
    headerWord o (fieldOperand w) = w := by
  rw [headerWord, opcodeValue_of_opcodeOf h, word_eq_fields]

/-- The count field of a WRITE_ALL header (R65). -/
theorem fieldCount_headerWord {o : Opcode} {n : Nat} (h : n ≤ maxPixels) :
    fieldCount (headerWord o (BitVec.ofNat 24 n)) = n := by
  simp only [maxPixels] at h
  simp only [fieldCount, fieldOperand_headerWord, BitVec.toNat_ofNat]
  omega

theorem fieldCount_le (w : Word) : fieldCount w ≤ maxPixels := by
  have := (fieldOperand w).isLt
  simp only [fieldCount, maxPixels]
  omega

/-! ### The encoder -/

/-- Every command's encoding begins with a header. -/
theorem encode_ne_nil (i : Instr) : encode i ≠ [] := by
  cases i <;> simp [encode]

end Sys2Proof
end

