-- ==== Sys2Proof/Laws/PerInstr.lean ====
section
/-! SUPPORT. A statement about every command as syntax, one lemma per constructor. -/

namespace Sys2Proof.Laws.HeaderNamesCommand

/-- The row of the opcode map (30_encoding.md R66) a command belongs to. -/
def row : Instr → Opcode
  | .shCfg => .shCfg
  | .shXfer _ => .shXfer
  | .tmCfg => .tmCfg
  | .tmArm => .tmArm
  | .tmStop => .tmStop
  | .lcCfg => .lcCfg
  | .irqOff => .irqOff
  | .irqOn => .irqOn
  | .latch => .latch
  | .begin => .begin
  | .write _ _ _ => .write
  | .writeAll _ => .writeAll
  | .send _ => .send

/-- The first word of a command's encoding is a header with the command's opcode, and a well-formed
command has as many words as that header says (30_encoding.md R61, R69). -/
def Statement (i : Instr) : Prop :=
  ∃ w ws, encode i = w :: ws ∧ fieldOpcode w = opcodeValue (row i) ∧
    (i.wellFormed = true → (encode i).length = commandLength w)

theorem shCfg : Statement .shCfg := ⟨_, _, rfl, rfl, fun _ => rfl⟩
theorem shXfer (byte : Byte) : Statement (.shXfer byte) :=
  ⟨_, _, rfl, by simp [row], fun _ => by simp [encode, commandLength, opcodeValue]⟩
theorem tmCfg : Statement .tmCfg := ⟨_, _, rfl, rfl, fun _ => rfl⟩
theorem tmArm : Statement .tmArm := ⟨_, _, rfl, rfl, fun _ => rfl⟩
theorem tmStop : Statement .tmStop := ⟨_, _, rfl, rfl, fun _ => rfl⟩
theorem lcCfg : Statement .lcCfg := ⟨_, _, rfl, rfl, fun _ => rfl⟩
theorem irqOff : Statement .irqOff := ⟨_, _, rfl, rfl, fun _ => rfl⟩
theorem irqOn : Statement .irqOn := ⟨_, _, rfl, rfl, fun _ => rfl⟩
theorem latch : Statement .latch := ⟨_, _, rfl, rfl, fun _ => rfl⟩
theorem begin : Statement .begin := ⟨_, _, rfl, rfl, fun _ => rfl⟩
theorem write (red green blue : Byte) : Statement (.write red green blue) :=
  ⟨_, _, rfl, by simp [row], fun _ => by simp [encode, commandLength, opcodeValue]⟩
theorem writeAll (pixels : List Pixel) : Statement (.writeAll pixels) := by
  refine ⟨_, _, rfl, by simp [row], fun h => ?_⟩
  have hlen : pixels.length < 2 ^ 24 := by
    have : pixels.length ≤ maxPixels := by simpa [Instr.wellFormed] using h
    simp only [maxPixels] at this
    omega
  simp only [encode, List.length_cons, List.length_map, commandLength, fieldOpcode_headerWord,
    opcodeValue, if_true, fieldCount, fieldOperand_headerWord, BitVec.toNat_ofNat]
  rw [Nat.mod_eq_of_lt hlen]
  omega
theorem send (byte : Byte) : Statement (.send byte) :=
  ⟨_, _, rfl, by simp [row], fun _ => by simp [encode, commandLength, opcodeValue]⟩

end Sys2Proof.Laws.HeaderNamesCommand
end

