-- ==== Sys2Proof/Laws/Step.lean ====
section
/-! SUPPORT. What exec and a step can do: their inversion lemmas, and runs of steps. -/

namespace Sys2Proof.Machine

/-- No command writes the configuration, time, the trace, the stream or the host's own fields: exec
takes no ticks and records nothing (44_machine_step.md R135). -/
theorem exec_frame {i : Instr} {s u : State} (h : exec i s = .next u) :
    u.cfg = s.cfg ∧ u.t = s.t ∧ u.trace = s.trace ∧ u.stream = s.stream ∧ u.delays = s.delays ∧
    u.hostDelay = s.hostDelay ∧ u.applied = s.applied ∧ u.hostIdle = s.hostIdle ∧
    u.begun = s.begun := by
  cases i <;>
    simp only [exec, execShCfg, execShXfer, execTmCfg, execTmArm, execTmStop, execLcCfg, execIrqOff,
      execIrqOn, execLatch, execBegin, execWrite, execWriteAll, execSend, unlessBusy_eq_next,
      ifBegun_eq_next, Host.Outcome.next.injEq] at h
  case begin =>
    split at h
    · cases h
    · obtain ⟨-, rfl⟩ := unlessBusy_eq_next.mp h
      simp [configureShifter]
  case shCfg => obtain ⟨-, rfl⟩ := h; simp [configureShifter]
  case shXfer => subst h; simp [startTransfer]
  case tmCfg => obtain ⟨-, rfl⟩ := h; simp [configureTimer]
  case tmArm => subst h; simp [armTimer]
  case tmStop => subst h; simp [stopTimer]
  case lcCfg => obtain ⟨-, rfl⟩ := h; simp [configureCombiner]
  case irqOff => subst h; simp
  case irqOn => subst h; simp
  case latch => subst h; simp
  case write => obtain ⟨-, rfl⟩ := h; simp [armTimer]
  case writeAll => obtain ⟨-, rfl⟩ := h; simp
  case send => obtain ⟨-, rfl⟩ := h; simp [armTimer]

/-- What a command can do to the shifter: nothing, SH_CFG's writes on an idle shifter, or SH_XFER's. -/
theorem exec_sh_cases {i : Instr} {s u : State} (h : exec i s = .next u) :
    (u.sh = s.sh ∧ ∀ byte, i ≠ .shXfer byte) ∨
    ((i = .shCfg ∨ i = .begin) ∧ s.sh.busy = false ∧ u.sh = (configureShifter s).sh) ∨
    (∃ byte, i = .shXfer byte ∧ u.sh = writeTransmit byte (clearCollision s.sh)) := by
  cases i <;>
    simp only [exec, execShCfg, execShXfer, execTmCfg, execTmArm, execTmStop, execLcCfg, execIrqOff,
      execIrqOn, execLatch, execBegin, execWrite, execWriteAll, execSend, unlessBusy_eq_next,
      ifBegun_eq_next, Host.Outcome.next.injEq] at h
  case begin =>
    split at h
    · cases h
    · obtain ⟨hb, rfl⟩ := unlessBusy_eq_next.mp h
      exact .inr (.inl ⟨.inr rfl, hb, rfl⟩)
  case shCfg => obtain ⟨hb, rfl⟩ := h; exact .inr (.inl ⟨.inl rfl, hb, rfl⟩)
  case shXfer byte => subst h; exact .inr (.inr ⟨byte, rfl, rfl⟩)
  case tmCfg | lcCfg | write | writeAll | send =>
    obtain ⟨-, rfl⟩ := h; exact .inl ⟨rfl, fun _ => Instr.noConfusion⟩
  case tmArm | tmStop | irqOff | irqOn | latch =>
    subst h; exact .inl ⟨rfl, fun _ => Instr.noConfusion⟩

/-- What a command can do to the timer: nothing, or the writes of TM_CFG, TM_ARM or TM_STOP. -/
theorem exec_tm_cases {i : Instr} {s u : State} (h : exec i s = .next u) :
    (u.tm = s.tm ∧ i ≠ .tmCfg) ∨ (i = .tmCfg ∧ u.tm = (configureTimer s).tm) ∨
    u.tm = (armTimer s).tm ∧ i ≠ .tmCfg ∨ (i = .tmStop ∧ u.tm = (stopTimer s).tm) := by
  cases i <;>
    simp only [exec, execShCfg, execShXfer, execTmCfg, execTmArm, execTmStop, execLcCfg, execIrqOff,
      execIrqOn, execLatch, execBegin, execWrite, execWriteAll, execSend, unlessBusy_eq_next,
      ifBegun_eq_next, Host.Outcome.next.injEq] at h
  case begin =>
    split at h
    · cases h
    · obtain ⟨-, rfl⟩ := unlessBusy_eq_next.mp h
      exact .inl ⟨rfl, Instr.noConfusion⟩
  case tmCfg => obtain ⟨-, rfl⟩ := h; exact .inr (.inl ⟨rfl, rfl⟩)
  case tmArm => subst h; exact .inr (.inr (.inl ⟨rfl, Instr.noConfusion⟩))
  case tmStop => subst h; exact .inr (.inr (.inr ⟨rfl, rfl⟩))
  case write | send => obtain ⟨-, rfl⟩ := h; exact .inr (.inr (.inl ⟨rfl, Instr.noConfusion⟩))
  case shCfg | lcCfg | writeAll => obtain ⟨-, rfl⟩ := h; exact .inl ⟨rfl, Instr.noConfusion⟩
  case shXfer | irqOff | irqOn | latch => subst h; exact .inl ⟨rfl, Instr.noConfusion⟩

/-- Only LC_CFG writes the combiner. -/
theorem exec_lc_cases {i : Instr} {s u : State} (h : exec i s = .next u) :
    (u.lc = s.lc ∧ i ≠ .lcCfg) ∨ (i = .lcCfg ∧ u.lc = (configureCombiner s).lc) := by
  cases i <;>
    simp only [exec, execShCfg, execShXfer, execTmCfg, execTmArm, execTmStop, execLcCfg, execIrqOff,
      execIrqOn, execLatch, execBegin, execWrite, execWriteAll, execSend, unlessBusy_eq_next,
      ifBegun_eq_next, Host.Outcome.next.injEq] at h
  case begin =>
    split at h
    · cases h
    · obtain ⟨-, rfl⟩ := unlessBusy_eq_next.mp h
      exact .inl ⟨rfl, Instr.noConfusion⟩
  case lcCfg => obtain ⟨-, rfl⟩ := h; exact .inr ⟨rfl, rfl⟩
  case shCfg | tmCfg | write | writeAll | send =>
    obtain ⟨-, rfl⟩ := h; exact .inl ⟨rfl, Instr.noConfusion⟩
  case shXfer | tmArm | tmStop | irqOff | irqOn | latch =>
    subst h; exact .inl ⟨rfl, Instr.noConfusion⟩

/-- Only SH_XFER and LATCH leave a wait. -/
theorem exec_wait_cases {i : Instr} {s u : State} (h : exec i s = .next u) :
    (u.wait = s.wait ∧ i ≠ .latch ∧ ∀ byte, i ≠ .shXfer byte) ∨
    (∃ byte, i = .shXfer byte ∧ u.wait = .xfer) ∨
    (i = .latch ∧ u.wait = .latch s.cfg.latchTicks) := by
  cases i <;>
    simp only [exec, execShCfg, execShXfer, execTmCfg, execTmArm, execTmStop, execLcCfg, execIrqOff,
      execIrqOn, execLatch, execBegin, execWrite, execWriteAll, execSend, unlessBusy_eq_next,
      ifBegun_eq_next, Host.Outcome.next.injEq] at h
  case begin =>
    split at h
    · cases h
    · obtain ⟨-, rfl⟩ := unlessBusy_eq_next.mp h
      exact .inl ⟨rfl, Instr.noConfusion, fun _ => Instr.noConfusion⟩
  case shXfer byte => subst h; exact .inr (.inl ⟨byte, rfl, rfl⟩)
  case latch => subst h; exact .inr (.inr ⟨rfl, rfl⟩)
  case shCfg | tmCfg | lcCfg | write | writeAll | send =>
    obtain ⟨-, rfl⟩ := h; exact .inl ⟨rfl, Instr.noConfusion, fun _ => Instr.noConfusion⟩
  case tmArm | tmStop | irqOff | irqOn =>
    subst h; exact .inl ⟨rfl, Instr.noConfusion, fun _ => Instr.noConfusion⟩

/-- Only IRQ_ON, IRQ_OFF and WRITE_ALL, which begins with IRQ_OFF, write IE. -/
theorem exec_ie_cases {i : Instr} {s u : State} (h : exec i s = .next u) :
    (u.ie = s.ie ∧ i ≠ .irqOn) ∨ (u.ie = false ∧ i ≠ .irqOn) ∨ (i = .irqOn ∧ u.ie = true) := by
  cases i <;>
    simp only [exec, execShCfg, execShXfer, execTmCfg, execTmArm, execTmStop, execLcCfg, execIrqOff,
      execIrqOn, execLatch, execBegin, execWrite, execWriteAll, execSend, unlessBusy_eq_next,
      ifBegun_eq_next, Host.Outcome.next.injEq] at h
  case begin =>
    split at h
    · cases h
    · obtain ⟨-, rfl⟩ := unlessBusy_eq_next.mp h
      exact .inl ⟨rfl, Instr.noConfusion⟩
  case irqOff => subst h; exact .inr (.inl ⟨rfl, Instr.noConfusion⟩)
  case irqOn => subst h; exact .inr (.inr ⟨rfl, rfl⟩)
  case writeAll => obtain ⟨-, rfl⟩ := h; exact .inr (.inl ⟨rfl, Instr.noConfusion⟩)
  case shCfg | tmCfg | lcCfg | write | send => obtain ⟨-, rfl⟩ := h; exact .inl ⟨rfl, Instr.noConfusion⟩
  case shXfer | tmArm | tmStop | latch => subst h; exact .inl ⟨rfl, Instr.noConfusion⟩

/-- A command puts at most the rest of its own expansion in front of `queue`, and only BEGIN's rest
ends a BEGIN. -/
theorem exec_queue_cases {i : Instr} {s u : State} (h : exec i s = .next u) :
    ∃ items, u.queue = items ++ s.queue ∧
      ((i = .begin ∧ s.begun = false ∧ items = afterShCfg) ∨
        (i ≠ .begin ∧ ∀ item ∈ items, QueueItem.endsBegin item = false)) := by
  cases i <;>
    simp only [exec, execShCfg, execShXfer, execTmCfg, execTmArm, execTmStop, execLcCfg, execIrqOff,
      execIrqOn, execLatch, execBegin, execWrite, execWriteAll, execSend, unlessBusy_eq_next,
      ifBegun_eq_next, Host.Outcome.next.injEq] at h
  case begin =>
    split at h
    · cases h
    · rename_i hb
      obtain ⟨-, rfl⟩ := unlessBusy_eq_next.mp h
      exact ⟨afterShCfg, rfl, .inl ⟨rfl, by simpa using hb, rfl⟩⟩
  case write red green blue =>
    obtain ⟨-, rfl⟩ := h
    exact ⟨afterArm green ++ [plainItem (.send red), plainItem (.send blue)], rfl,
      .inr ⟨Instr.noConfusion, by simp [afterArm, plainItem]⟩⟩
  case writeAll pixels =>
    obtain ⟨-, rfl⟩ := h
    refine ⟨afterIrqOff pixels, rfl, .inr ⟨Instr.noConfusion, fun item hi => ?_⟩⟩
    simp only [afterIrqOff, List.mem_append, List.mem_map] at hi
    rcases hi with ⟨p, -, rfl⟩ | hi
    · rfl
    · simp [plainItem] at hi
      rcases hi with rfl | rfl <;> rfl
  case send byte =>
    obtain ⟨-, rfl⟩ := h
    exact ⟨afterArm byte, rfl, .inr ⟨Instr.noConfusion, by simp [afterArm, plainItem]⟩⟩
  case shCfg | tmCfg | lcCfg => obtain ⟨-, rfl⟩ := h; exact ⟨[], rfl, .inr ⟨Instr.noConfusion, by simp⟩⟩
  case shXfer | tmArm | tmStop | irqOff | irqOn | latch =>
    subst h; exact ⟨[], rfl, .inr ⟨Instr.noConfusion, by simp⟩⟩

/-- The stream has a word exactly when the decoder reads something. -/
theorem decode_eq_noWord_iff (ws : List Word) : decode ws = .noWord ↔ ws = [] := by
  cases ws with
  | nil => simp [decode]
  | cons w rest =>
    simp only [decode, reduceCtorEq, iff_false]
    have hp : ∀ n rest acc, decodePayload w n rest acc ≠ .noWord := by
      intro n
      induction n with
      | zero => intro rest acc; simp [decodePayload]
      | succ n ih =>
        intro rest acc
        cases rest with
        | nil => simp [decodePayload]
        | cons v rest =>
          simp only [decodePayload]
          split
          · exact ih _ _
          · simp
    split
    · rename_i o _
      cases o <;> simp only [decodeAs, decodeZ, decodeB] <;> first
        | exact hp _ _ _
        | (split <;> simp)
        | simp
    · simp

/-- Where the host acts there is a command to fetch. -/
theorem fetch_ne_nothing {s : State} (h : hostActs s = true) : fetch (clearWait s) ≠ .nothing := by
  simp only [hostActs, cmdEnabled, restEmpty, Bool.and_eq_true, Bool.not_eq_true',
    Bool.and_eq_false_iff] at h
  obtain ⟨⟨hq, -⟩, -⟩ := h
  cases hqueue : s.queue with
  | cons item q => simp [fetch, hqueue]
  | nil =>
    have hs : s.stream ≠ [] := by
      rintro he
      simp [hqueue, he] at hq
    simp only [fetch, clearWait_queue, hqueue, clearWait_stream]
    split <;> try simp
    rename_i hd
    exact hs ((decode_eq_noWord_iff _).mp hd)

/-- What taking a command from `rest` can do: it changes `queue` or `stream` only. -/
theorem fetch_cases {s u : State} {i : Instr} {e : Bool} (h : fetch s = .cmd i e u) :
    (∃ q, s.queue = { cmd := i, endsBegin := e } :: q ∧ u = s.setQueue q) ∨
    (∃ rest, s.queue = [] ∧ e = false ∧ decode s.stream = .ok i rest ∧ u = s.setStream rest) := by
  unfold fetch at h
  split at h
  · rename_i item q hq
    obtain ⟨rfl, rfl, rfl⟩ := Fetched.cmd.inj h
    exact .inl ⟨q, hq, rfl⟩
  · rename_i hq
    split at h
    · rename_i j rest hd
      obtain ⟨rfl, rfl, rfl⟩ := Fetched.cmd.inj h
      exact .inr ⟨rest, hq, rfl, hd, rfl⟩
    all_goals cases h

/-- Everything a step that answers a next state can do: a tick, or one command. -/
theorem step_cases {s u : State} (h : step s = .next u) :
    cfgOk s.cfg = true ∧
    ((hostActs s = false ∧ u = tick s) ∨
     (hostActs s = true ∧ ∃ i e v w, fetch (clearWait s) = .cmd i e v ∧ exec i v = .next w ∧
        u = drawDelay (markBegun e w))) := by
  unfold step at h
  split at h
  case isFalse => cases h
  case isTrue hc =>
    refine ⟨hc, ?_⟩
    split at h
    case isFalse ha =>
      cases h
      exact .inl ⟨by simpa using ha, rfl⟩
    case isTrue ha =>
      refine .inr ⟨ha, ?_⟩
      unfold cmdStep at h
      split at h
      · rename_i i e v hf
        refine ⟨i, e, v, ?_⟩
        cases hx : exec i v with
        | next w => rw [hx] at h; cases h; exact ⟨w, hf, rfl, rfl⟩
        | fault r => rw [hx] at h; cases h
        | refused r => rw [hx] at h; cases h
      · cases h
      · rename_i hf
        exact absurd hf (fetch_ne_nothing ha)

/-- A step is a tick where the host does not act. -/
theorem step_of_tick {s : State} (hc : cfgOk s.cfg = true) (ha : hostActs s = false) :
    step s = .next (tick s) := by
  simp [step, hc, ha]

/-- A step is the command where the host acts. -/
theorem step_of_cmd {s v w : State} {i : Instr} {e : Bool} (hc : cfgOk s.cfg = true)
    (ha : hostActs s = true) (hf : fetch (clearWait s) = .cmd i e v) (hx : exec i v = .next w) :
    step s = .next (drawDelay (markBegun e w)) := by
  simp [step, hc, ha, cmdStep, hf, hx, completeCmd]

/-! ### Runs of steps -/

@[simp] theorem runSteps_zero (s : State) : runSteps 0 s = .next s := rfl

theorem runSteps_succ {s u : State} (h : step s = .next u) (n : Nat) :
    runSteps (n + 1) s = runSteps n u := by
  show Host.Core.run Sys2Proof.core (n + 1) s = Host.Core.run Sys2Proof.core n u
  have h' : Sys2Proof.core.step s = .next u := h
  simp only [Host.Core.run, h']

/-- A run that goes on has made its first step. -/
theorem runSteps_succ_cases {s u : State} {n : Nat} (h : runSteps (n + 1) s = .next u) :
    ∃ v, step s = .next v ∧ runSteps n v = .next u := by
  cases hs : step s with
  | next v => exact ⟨v, rfl, (runSteps_succ hs n).symm.trans h⟩
  | fault r =>
    have h' : Sys2Proof.core.step s = .fault r := hs
    have : runSteps (n + 1) s = .fault r := by
      show Host.Core.run Sys2Proof.core (n + 1) s = _
      simp only [Host.Core.run, h']
      rfl
    rw [this] at h
    cases h
  | refused r =>
    have h' : Sys2Proof.core.step s = .refused r := hs
    have : runSteps (n + 1) s = .refused r := by
      show Host.Core.run Sys2Proof.core (n + 1) s = _
      simp only [Host.Core.run, h']
      rfl
    rw [this] at h
    cases h

/-- As long as the host does not act, a run is ticks (44_machine_step.md R136). -/
theorem runSteps_ticks {s : State} (hc : cfgOk s.cfg = true) {n : Nat}
    (h : ∀ j < n, hostActs (ticks j s) = false) : runSteps n s = .next (ticks n s) := by
  induction n generalizing s with
  | zero => rfl
  | succ n ih =>
    rw [runSteps_succ (step_of_tick hc (h 0 (by omega))), ticks_succ]
    exact ih (s := tick s) hc (fun j hj => h (j + 1) (by omega))

/-- Runs compose. -/
theorem runSteps_add {s u : State} {m : Nat} (h : runSteps m s = .next u) (n : Nat) :
    runSteps (m + n) s = runSteps n u := by
  induction m generalizing s with
  | zero => cases h; simp
  | succ m ih =>
    obtain ⟨v, hv, hr⟩ := runSteps_succ_cases h
    rw [Nat.succ_add, runSteps_succ hv, ih hr]

/-- An invariant that every step keeps is kept by every run. -/
theorem runSteps_keeps {P : State → Prop} (hstep : ∀ s u, P s → step s = .next u → P u)
    {n : Nat} {s u : State} (hs : P s) (h : runSteps n s = .next u) : P u := by
  induction n generalizing s with
  | zero => cases h; exact hs
  | succ n ih =>
    obtain ⟨v, hv, hr⟩ := runSteps_succ_cases h
    exact ih (hstep _ _ hs hv) hr

end Sys2Proof.Machine
end

