-- ==== Sys2Proof/Tests/Slice0.lean ====
section
/-! SUPPORT. The model's own tests: the check of ill-formed commands, every row's encoding written out
bit by bit, one step of every command against the spec's vectors (95_test_vectors.md), and for every
statement with hypotheses a state and operands that meet them. -/

namespace Sys2Proof.Tests

open Sys2Proof Sys2Proof.Machine

/-! ### Small states -/

/-- The state an answer carries; the reset state where it carries none. -/
def stateOf (a : Answer) : State :=
  match a with
  | .next s => s
  | .fault _ => State.reset
  | .refused _ => State.reset

/-- An answer is a next state with this property. -/
def nextWith (a : Answer) (p : State → Bool) : Bool :=
  match a with
  | .next s => p s
  | .fault _ => false
  | .refused _ => false

/-- An answer is this refusal. -/
def refusedWith (a : Answer) (r : Refusal) : Bool :=
  match a with
  | .next _ => false
  | .fault _ => false
  | .refused q => decide (q = r)

/-- The reference configuration with a known `L_MAX`. -/
def cfg1000 : Cfg := { Config.reference with lMax := 1000 }

/-- The state BEGIN leaves (43_facade.md R115), with these commands still to apply and these delays. -/
def ready (q : List QueueItem) (ds : List Nat) : State :=
  { State.reset with
    cfg := cfg1000
    sh := { State.reset.sh with en := true, mstr := true, div := 16#8 }
    tm := { mode := true, top := 15#8, cmp := 4#8, cnt := 0#8, run := false }
    lc := { en := true, runstdby := true, outen := true, lut0 := 0xF0#8, lut1 := 0xE0#8 }
    begun := true
    queue := q
    delays := ds }

/-- A transfer of 0xA5 in progress: the third cell, ninth tick (95_test_vectors.md V17), its wait pending. -/
def busy : State :=
  { ready [] [] with
    sh := { (ready [] []).sh with shift := 0x94#8, bitcnt := 2#4, phase := 8#8, busy := true }
    wait := .xfer }

/-- A transfer that has just started, with the timer armed as TWEAK = 10 and L_ARM = 2 leave it (V20). -/
def sending : State :=
  { ready [] [] with
    tm := { mode := true, top := 15#8, cmp := 4#8, cnt := 248#8, run := true } }

/-- The host waits for a transfer that a disabled shifter never started (40_shifter.md R83). -/
def hung : State := { State.reset with wait := .xfer, stream := [0x05000000#32] }

/-- Red 255, green 0, blue 0. -/
def red : Pixel := { red := 255#8, green := 0#8, blue := 0#8 }

/-! ### WellFormed -/

/-- The check of a WRITE_ALL of `n` equal pixels. -/
theorem wellFormed_replicate (n : Nat) (p : Pixel) :
    (Instr.writeAll (List.replicate n p)).wellFormed = decide (n ≤ maxPixels) := by
  simp [Instr.wellFormed]

/-- One pixel more than the 24-bit count holds (30_encoding.md R65). -/
theorem test_wellFormed_refuses_too_many_pixels :
    (Instr.writeAll (List.replicate 16777216 red)).wellFormed = false :=
  (wellFormed_replicate 16777216 red).trans (by decide)

theorem test_wellFormed_takes_the_largest_count :
    (Instr.writeAll (List.replicate 16777215 red)).wellFormed = true :=
  (wellFormed_replicate 16777215 red).trans (by decide)

/-! ### Decode: words written out from the formats of 30_encoding.md R62 to R66 (V1 to V9) -/

theorem test_decode_shCfg : decode [0b00000001000000000000000000000000#32] = .ok .shCfg [] := by decide
theorem test_decode_shXfer :
    decode [0b00000010000000000000000010100101#32] = .ok (.shXfer 0xA5#8) [] := by decide
theorem test_decode_tmCfg : decode [0b00000011000000000000000000000000#32] = .ok .tmCfg [] := by decide
theorem test_decode_tmArm : decode [0b00000100000000000000000000000000#32] = .ok .tmArm [] := by decide
theorem test_decode_tmStop : decode [0b00000101000000000000000000000000#32] = .ok .tmStop [] := by decide
theorem test_decode_lcCfg : decode [0b00000110000000000000000000000000#32] = .ok .lcCfg [] := by decide
theorem test_decode_irqOff : decode [0b00001000000000000000000000000000#32] = .ok .irqOff [] := by decide
theorem test_decode_irqOn : decode [0b00001001000000000000000000000000#32] = .ok .irqOn [] := by decide
theorem test_decode_latch : decode [0b00001010000000000000000000000000#32] = .ok .latch [] := by decide
theorem test_decode_begin : decode [0b00010000000000000000000000000000#32] = .ok .begin [] := by decide
theorem test_decode_write :
    decode [0b00010001000100100011010001010110#32] = .ok (.write 0x12#8 0x34#8 0x56#8) [] := by decide
theorem test_decode_writeAll :
    decode [0b00010010000000000000000000000010#32, 0b00000000111111110000000000000000#32,
      0b00000000000000001111111100000000#32] =
      .ok (.writeAll [⟨255#8, 0#8, 0#8⟩, ⟨0#8, 255#8, 0#8⟩]) [] := by decide
theorem test_decode_send :
    decode [0b00010011000000000000000011111111#32] = .ok (.send 0xFF#8) [] := by decide

/-- The payload word 0x00010203 is data, not the reserved opcode 0x00 (V8). -/
theorem test_decode_payload_is_data :
    decode [0x12000001#32, 0x00010203#32, 0x11000000#32] =
      .ok (.writeAll [⟨1#8, 2#8, 3#8⟩]) [0x11000000#32] := by decide
/-- A format B word with bit 8 set (V6). -/
theorem test_decode_reserved_bit : decode [0x02000100#32] = .reserved 0x02000100#32 := by decide
/-- A payload word with bits 31:24 not 0 (V6). -/
theorem test_decode_reserved_payload :
    decode [0x12000001#32, 0x01FF0000#32] = .reserved 0x01FF0000#32 := by decide
/-- A payload cut short (V7). -/
theorem test_decode_truncated :
    decode [0x12000002#32, 0x00FF0000#32] = .truncated 0x12000002#32 := by decide

/-! ### The host's reading of a table row -/

theorem test_tableWord_send : decodeTableWord 32 0x130000FF = some (.send 0xFF#8) := by decide
/-- The payload words the table gives no bits are zero. -/
theorem test_tableWord_writeAll :
    decodeTableWord 32 0x12000001 = some (.writeAll [⟨0#8, 0#8, 0#8⟩]) := by decide
theorem test_tableWord_reserved : decodeTableWord 32 0x07000000 = none := by decide
/-- After reset the very next step runs the placed command: TM_ARM loads 246 (V18). -/
theorem test_withFetchWord_tmArm :
    nextWith (step (State.reset.withFetchWord 32 0x04000000))
      (fun u => u.tm.cnt == 246#8 && u.tm.run && u.stream.isEmpty && u.applied == 1) = true := by decide
/-- A session must be initialised before any write (60_exceptions.md R157). -/
theorem test_withFetchWord_write :
    refusedWith (step (State.reset.withFetchWord 32 0x11FF0000))
      (.writeBeforeBegin (.write 255#8 0#8 0#8)) = true := by decide

/-! ### One step of every command -/

/-- V10. -/
theorem test_shCfg :
    nextWith (exec .shCfg State.reset)
      (fun u => u.sh.en && u.sh.mstr && !u.sh.dord && !u.sh.ckph && u.sh.div == 16#8 && !u.sh.busy) =
      true := by decide
/-- V11, the state after the command. -/
theorem test_shXfer_starts :
    nextWith (exec (.shXfer 0xA5#8) (ready [] []))
      (fun u => u.sh.shift == 0xA5#8 && u.sh.bitcnt == 0#4 && u.sh.phase == 0#8 && u.sh.busy &&
        !u.sh.iflag && !u.sh.wcol && decide (u.wait = .xfer)) = true := by decide
/-- V17: a write during a transfer sets SH_WCOL and leaves the transfer where it was. -/
theorem test_shXfer_collides :
    nextWith (exec (.shXfer 0x33#8) busy)
      (fun u => u.sh.wcol && u.sh.shift == 0x94#8 && u.sh.phase == 8#8 && u.sh.bitcnt == 2#4) =
      true := by decide
/-- V18, TM_CFG. -/
theorem test_tmCfg :
    nextWith (exec .tmCfg State.reset)
      (fun u => u.tm.mode && u.tm.top == 15#8 && u.tm.cmp == 4#8 && !u.tm.run && u.tm.cnt == 0#8) =
      true := by decide
/-- V18, TM_ARM with TWEAK = 10. -/
theorem test_tmArm :
    nextWith (exec .tmArm (ready [] [])) (fun u => u.tm.cnt == 246#8 && u.tm.run && !wo u.tm) = true := by
  decide
/-- V19, the rows 0, 241 and 255 of the loaded value. -/
theorem test_loadedCount :
    loadedCount 0 = 0#8 ∧ loadedCount 241 = 15#8 ∧ loadedCount 255 = 1#8 := by decide
/-- V21: the count is held. -/
theorem test_tmStop :
    nextWith (exec .tmStop { sending with tm := { sending.tm with cnt := 2#8 } })
      (fun u => u.tm.cnt == 2#8 && !u.tm.run && !wo u.tm) = true := by decide
/-- V34. -/
theorem test_lcCfg :
    nextWith (exec .lcCfg State.reset)
      (fun u => u.lc.lut0 == 0xF0#8 && u.lc.lut1 == 0xE0#8 && u.lc.runstdby && u.lc.outen && u.lc.en &&
        !outPin u) = true := by decide
/-- V27. -/
theorem test_irqOff : nextWith (exec .irqOff (ready [] [])) (fun u => !u.ie) = true := by decide
theorem test_irqOn :
    nextWith (exec .irqOn { ready [] [] with ie := false }) (fun u => u.ie) = true := by decide
/-- V31. -/
theorem test_latch :
    nextWith (exec .latch (ready [] [])) (fun u => decide (u.wait = .latch 1600)) = true := by decide
/-- R115: SH_CFG first, then TM_CFG and LC_CFG. -/
theorem test_begin :
    nextWith (exec .begin State.reset)
      (fun u => u.sh.en && !u.begun && decide (u.queue.map QueueItem.cmd = [.tmCfg, .lcCfg])) = true := by
  decide
/-- R116, R157: a second BEGIN. -/
theorem test_begin_twice : refusedWith (exec .begin (ready [] [])) .beginTwice = true := by decide
/-- V2: the bytes of WRITE 0x12, 0x34, 0x56 are 0x34, 0x12, 0x56. -/
theorem test_write_order : wireBytes (.write 0x12#8 0x34#8 0x56#8) = [0x34#8, 0x12#8, 0x56#8] := by decide
theorem test_write :
    nextWith (exec (.write 0x12#8 0x34#8 0x56#8) (ready [] []))
      (fun u => u.tm.run && u.ie && decide (u.queue.map QueueItem.cmd =
        [.shXfer 0x34#8, .tmStop, .send 0x12#8, .send 0x56#8])) = true := by decide
/-- S5 of 95_test_vectors.md: bytes 0, 255, 0, 255, 0, 0. -/
theorem test_writeAll_order :
    wireBytes (.writeAll [⟨255#8, 0#8, 0#8⟩, ⟨0#8, 255#8, 0#8⟩]) =
      [0#8, 255#8, 0#8, 255#8, 0#8, 0#8] := by decide
theorem test_writeAll :
    nextWith (exec (.writeAll [red]) (ready [] []))
      (fun u => !u.ie && decide (u.queue.map QueueItem.cmd = [.write 255#8 0#8 0#8, .irqOn, .latch])) =
      true := by decide
/-- R117. -/
theorem test_send :
    nextWith (exec (.send 0xA5#8) (ready [] []))
      (fun u => u.tm.cnt == 246#8 && decide (u.queue.map QueueItem.cmd = [.shXfer 0xA5#8, .tmStop])) =
      true := by decide

/-! ### One tick -/

/-- V11: the tick after 127 ends the transfer, with SH_BUSY 0 and SH_IF 1 at once. -/
theorem test_tick_completes :
    (fun u : State => !u.sh.busy && u.sh.iflag && u.sh.bitcnt == 8#4 && u.sh.shift == 0x00#8 &&
      u.sh.phase == 0#8)
      (tick { busy with sh := { busy.sh with shift := 0x80#8, bitcnt := 7#4, phase := 15#8 } }) = true := by
  decide
/-- V20, tick 18: SH_BITCNT 1 and SH_SHIFT 0x4A after the first cell. -/
theorem test_tick_cellEnd :
    (fun u : State => u.sh.busy && u.sh.bitcnt == 1#4 && u.sh.shift == 0x4A#8 && u.sh.phase == 0#8)
      (tick { busy with sh := { busy.sh with shift := 0xA5#8, bitcnt := 0#4, phase := 15#8 } }) = true := by
  decide
/-- V22: with TM_TOP 0 the count stays 0 once it is there. -/
theorem test_tick_timer_top_zero :
    (timerTick { mode := false, top := 0#8, cmp := 0#8, cnt := 0#8, run := true }).cnt = 0#8 := by decide
/-- 41_timer.md R92: a count above TM_TOP wraps from 255 to 0. -/
theorem test_tick_timer_wraps :
    (timerTick { mode := true, top := 15#8, cmp := 4#8, cnt := 255#8, run := true }).cnt = 0#8 := by decide
/-- V20, tick 26: clock high, data 0, pulse high give OUT = 1; tick 30: the pulse is over. -/
theorem test_outPin_short_pulse :
    outPin { busy with sh := { busy.sh with shift := 0x4A#8 }, tm := { sending.tm with cnt := 0#8 } } = true ∧
    outPin { busy with sh := { busy.sh with shift := 0x4A#8 }, tm := { sending.tm with cnt := 4#8 } } =
      false := by decide
/-- V35: LUT_MASK = 0x0F inverts WO. -/
theorem test_maskOut_inverted :
    maskOut { State.reset.lc with lut0 := 0x0F#8 } State.reset.tm = true := by decide
/-- V36. -/
theorem test_derivedLut : derivedLut 0 1 2 = 0xA8#8 := by decide

/-! ### The step and the observer -/

/-- R157, V7: the word is refused when the host reaches it, whatever stands behind it. -/
theorem test_step_reserved :
    refusedWith (step { State.reset with stream := [0x07000000#32, 0x10000000#32] })
      (.reservedEncoding 0x07000000#32) = true := by decide
/-- R170: a `Cfg` with an odd N_BIT is refused before the first step. -/
theorem test_step_badCfg :
    refusedWith (step { State.reset with cfg := { cfg1000 with nBit := 17, tTop := 16 } }) .badCfg =
      true := by decide
/-- R5: `ceil(50 µs * F_SYS)` is 640 at 12.8 MHz and 800 at 16 MHz, and `F_SYS` is positive. -/
theorem test_cfgOk :
    cfgOk cfg1000 = true ∧ cfgOk { cfg1000 with fSys := 12800000, resetTicks := 640 } = true ∧
    cfgOk { cfg1000 with resetTicks := 0, latchTicks := 0 } = false ∧
    cfgOk { cfg1000 with fSys := 0, resetTicks := 0 } = false := by decide
/-- Both reasons of R68 at once: the reserved word is reported (log 24, a choice of the model). -/
theorem test_decode_reserved_before_truncated :
    decode [0x12000002#32, 0x01FF0000#32] = .reserved 0x01FF0000#32 := by decide
/-- A cut-short WRITE_ALL before BEGIN: the decoder's reason is reported (log 25, a choice of the model). -/
theorem test_truncated_before_writeBeforeBegin :
    refusedWith (step { State.reset with stream := [0x12000002#32, 0x00FF0000#32] })
      (.truncatedPayload 0x12000002#32) = true := by decide
/-- V44. -/
theorem test_runs :
    runs [false, false, true, true, true, false] = [(false, 2), (true, 3), (false, 1)] := by decide
/-- V44 with RESET_TICKS = 8: five high, one low, six high, eight low is one frame 0, 1. -/
theorem test_decodeWave :
    decodeWave 6 8 (List.replicate 5 true ++ [false] ++ List.replicate 6 true ++ List.replicate 8 false) =
      ([[false, true]], []) := by decide
/-- R192, R193: the reference design fails the first predicate; its short pulse is 250 ns. -/
theorem test_predicates :
    bitPeriodOk cfg1000 = false ∧ pulseWidthOk 249 251 cfg1000 = true ∧
    pulseWidthOk 250 251 cfg1000 = false := by decide

/-! ### Witnesses: for every statement with hypotheses, inputs that meet them together -/

/-- The state BEGIN leaves is in the invariant, whatever plain commands follow it. -/
theorem ready_inv (q : List QueueItem) (ds : List Nat) (hq : ∀ item ∈ q, item.endsBegin = false) :
    Inv (ready q ds) where
  cfg := (cfgOk_iff cfg1000).mp (by decide)
  shifter :=
    { configured := fun _ => ⟨rfl, rfl, rfl, rfl⟩
      untouched := fun h => (by cases h)
      inCell := fun h => (by cases h)
      idle := fun _ => ⟨rfl, rfl⟩
      complete := fun h => (by cases h)
      noCollision := rfl }
  timer := { configured := fun _ => ⟨rfl, rfl⟩, untouched := fun h => (by cases h) }
  combiner := { configured := fun _ => rfl, untouched := fun h => (by cases h) }
  busyWaits := fun h => (by cases h)
  waitSees := fun h => (by cases h)
  latchOwes := fun _ h => (by cases h)
  idleWaits := fun h => (by cases h)
  delayBounded := fun h => (by cases h)
  traced := rfl
  session := fun _ => ⟨rfl, rfl, rfl⟩
  queue := .inl hq

/-- So is the stuck state of a transfer on a disabled shifter. -/
theorem hung_inv : Inv hung where
  cfg := (cfgOk_iff Config.reference).mp (by decide)
  shifter :=
    { configured := fun h => (by cases h)
      untouched := fun _ => rfl
      inCell := fun h => (by cases h)
      idle := fun _ => ⟨rfl, rfl⟩
      complete := fun h => (by cases h)
      noCollision := rfl }
  timer := { configured := fun h => (by cases h), untouched := fun _ => ⟨rfl, rfl⟩ }
  combiner := { configured := fun h => (by cases h), untouched := fun _ => rfl }
  busyWaits := fun h => (by cases h)
  waitSees := fun _ h => (by cases h)
  latchOwes := fun _ h => (by cases h)
  idleWaits := fun h => (by cases h)
  delayBounded := fun h => (by cases h)
  traced := rfl
  session := fun h => (by cases h)
  queue := .inl (fun item h => (by cases h))

theorem witness_DecodeOfEncode :
    (Instr.writeAll (List.replicate 16777215 red)).wellFormed = true ∧
    (Instr.writeAll []).wellFormed = true ∧ (Instr.send 0xFF#8).wellFormed = true :=
  ⟨test_wellFormed_takes_the_largest_count, rfl, rfl⟩
theorem witness_EncodeOfDecode :
    decode [0x12000000#32, 0x130000FF#32] = .ok (.writeAll []) [0x130000FF#32] := by decide
/-- One witness per clause. -/
theorem witness_ReservedEncodingsRefused :
    (∀ row ∈ matchMask, (0x02000100#32 : Word) &&& row.2 ≠ row.1) ∧
    ((0x13000000#32, 0xFFFFFF00#32) ∈ matchMask ∧
      (0x130000FF#32 : Word) &&& 0xFFFFFF00#32 = 0x13000000#32) ∧
    ((0x12000001#32 : Word) &&& 0xFF000000#32 = 0x12000000#32 ∧
      [(0x00FFFFFF#32 : Word)].length = ((0x12000001#32 : Word) &&& 0x00FFFFFF#32).toNat ∧
      (∀ v ∈ [(0x00FFFFFF#32 : Word)], v &&& 0xFF000000#32 = 0#32)) ∧
    (([] : List Word).length < ((0x12000001#32 : Word) &&& 0x00FFFFFF#32).toNat ∧
      (0x01FF0000#32 : Word) &&& 0xFF000000#32 ≠ 0#32) :=
  ⟨by simp [matchMask], ⟨by simp [matchMask], by decide⟩, by simp, by decide⟩
theorem witness_ReservedWordStopsTheStep :
    cfgOk cfg1000 = true ∧
    hostActs { ready [] [] with stream := [0x07000000#32] } = true ∧
    decode [0x07000000#32] = .reserved 0x07000000#32 ∧
    hostActs { ready [] [] with stream := [0x12000001#32] } = true ∧
    decode [0x12000001#32] = .truncated 0x12000001#32 := by decide
theorem witness_CommandLengthRule :
    decode [0x12000001#32, 0x00010203#32, 0x11000000#32] =
      .ok (.writeAll [⟨1#8, 2#8, 3#8⟩]) [0x11000000#32] ∧
    decode [0x11000000#32] = .ok (.write 0#8 0#8 0#8) [] := by decide

/-- Idle, busy, and a next state of each configuration command. -/
theorem witness_ShCfgConfiguresShifter :
    State.reset.sh.busy = false ∧ busy.sh.busy = true ∧ ∃ u, exec .shCfg State.reset = .next u :=
  ⟨rfl, rfl, _, rfl⟩
/-- The three cases of SH_XFER, its wait, a transfer with a divider of 16, and a disabled shifter. -/
theorem witness_ShXferStartsAndWaits :
    ((ready [] []).sh.en = true ∧ (ready [] []).sh.busy = false ∧ 0 < (ready [] []).sh.div.toNat) ∧
    (busy.sh.en = true ∧ busy.sh.busy = true ∧ busy.wait = .xfer) ∧
    (∃ u, exec (.shXfer 0xA5#8) (ready [] []) = .next u) ∧
    (State.reset.sh.en = false ∧ State.reset.sh.busy = false ∧ State.reset.sh.iflag = false ∧
      ∃ u, exec (.shXfer 0xA5#8) State.reset = .next u) :=
  ⟨by decide, ⟨rfl, rfl, rfl⟩, ⟨_, rfl⟩, rfl, rfl, rfl, _, rfl⟩
/-- Cell 7, last tick. -/
theorem witness_BitPlacement :
    (ready [] []).sh.en = true ∧ (ready [] []).sh.busy = false ∧
    (∃ u, exec (.shXfer 0x01#8) (ready [] []) = .next u) ∧ 7 < 8 ∧ 15 < (ready [] []).sh.div.toNat :=
  ⟨rfl, rfl, ⟨_, rfl⟩, by decide, by decide⟩
theorem witness_CompletionTime :
    ((ready [] []).sh.en = true ∧ (ready [] []).sh.busy = false ∧ 0 < (ready [] []).sh.div.toNat ∧
      127 < 8 * (ready [] []).sh.div.toNat ∧ 8 * (ready [] []).sh.div.toNat ≤ 128) ∧
    (∃ u, exec (.shXfer 0xA5#8) (ready [] []) = .next u) ∧
    (∀ byte, Instr.tmStop ≠ .shXfer byte) ∧ ∃ u, exec .tmStop (ready [] []) = .next u :=
  ⟨by decide, ⟨_, rfl⟩, fun _ => Instr.noConfusion, _, rfl⟩
theorem witness_WriteCollision :
    (busy.sh.en = true ∧ busy.sh.busy = true) ∧
    Inv (ready [plainItem .tmArm] []) ∧ hostActs (ready [plainItem .tmArm] []) = true :=
  ⟨⟨rfl, rfl⟩, ready_inv _ _ (by simp [plainItem]), by decide⟩
theorem witness_DisabledShifterHangs :
    (cfgOk State.reset.cfg = true ∧ State.reset.sh.en = false ∧ State.reset.sh.busy = false ∧
      State.reset.sh.iflag = false) ∧
    (ready [] []).sh.en = true ∧ ∃ u, step (ready [] []) = .next u :=
  ⟨⟨by decide, rfl, rfl, rfl⟩, rfl, _, rfl⟩
theorem witness_StuckForEver : cfgOk hung.cfg = true ∧ Stuck hung := ⟨by decide, rfl, rfl, rfl⟩
theorem witness_EveryWaitEnds :
    (Inv hung ∧ Stuck hung) ∧
    Inv (ready [plainItem .tmArm] []) ∧ ¬ Stuck (ready [plainItem .tmArm] []) ∧
    restEmpty (ready [plainItem .tmArm] []) = false :=
  ⟨⟨hung_inv, rfl, rfl, rfl⟩, ready_inv _ _ (by simp [plainItem]), fun h => (by cases h.1), rfl⟩

theorem witness_TmCfgConfiguresTimer :
    State.reset.sh.busy = false ∧ busy.sh.busy = true ∧ ∃ u, exec .tmCfg State.reset = .next u :=
  ⟨rfl, rfl, _, rfl⟩
/-- `TWEAK` 10, 0 and the largest 255; the timer before TM_CFG and after it. -/
theorem witness_TmArmLoadsOffset :
    ((ready [] []).cfg.tweak = 10 ∧ (ready [] []).tm.top = 15#8 ∧ (ready [] []).tm.cmp = 4#8) ∧
    (∃ u, exec .tmArm (ready [] []) = .next u) ∧ State.reset.tm.cmp = 0#8 ∧
    (∃ u, exec .tmArm { State.reset with cfg := { cfg1000 with tweak := 0 } } = .next u) ∧
    ∃ s : State, s.cfg.tweak = 255 ∧ ∃ u, exec .tmArm s = .next u :=
  ⟨⟨rfl, rfl, rfl⟩, ⟨_, rfl⟩, rfl, ⟨_, rfl⟩,
    { State.reset with cfg := { cfg1000 with tweak := 255 } }, rfl, _, rfl⟩
theorem witness_TmStopHoldsCount :
    (∃ u, exec .tmStop sending = .next u) ∧ (ready [] []).tm.run = false ∧
    (CombinerReady (ready [] []).lc ∧ sck (ready [] []).sh = false) ∧
    ((ready [] []).cfg.tweak = 10 ∧ (ready [] []).tm.top = 15#8 ∧
      ∃ u, exec .tmArm (ready [] []) = .next u) ∧
    ∃ s : State, s.tm.run = true ∧ s.tm.cnt.toNat ≤ s.tm.top.toNat :=
  ⟨⟨_, rfl⟩, rfl, ⟨rfl, rfl⟩, ⟨rfl, rfl, _, rfl⟩,
    { sending with tm := { sending.tm with cnt := 15#8 } }, rfl, le_refl _⟩
/-- The three cases at their boundaries: `TWEAK` 0, 1, 240, 241 and 255, with `TM_TOP` 15 and `TM_CMP` 4. -/
theorem witness_ArmToFirstPulse :
    (ready [] []).tm.cmp.toNat ≤ (ready [] []).tm.top.toNat ∧
    (∃ u, exec .tmArm (ready [] []) = .next u) ∧
    (firstZero 0 15 = 0 ∧ firstZero 1 15 = 1 ∧ firstZero 240 15 = 240 ∧ firstZero 241 15 = 1 ∧
      firstZero 255 15 = 15) ∧
    (1 ≤ 240 ∧ 240 ≤ 255 - 15 ∧ 255 - 15 < 241) ∧ (loadedCount 255).toNat < 4 :=
  ⟨by decide, ⟨_, rfl⟩, by decide, by decide, by decide⟩
theorem witness_PulseTrain :
    (ready [] []).cfg.tweak ≤ 255 ∧ (∃ u, exec .tmArm (ready [] []) = .next u) ∧
    firstZero (ready [] []).cfg.tweak (ready [] []).tm.top.toNat ≤ 10 :=
  ⟨by decide, ⟨_, rfl⟩, by decide⟩
/-- A state for each case of the two tick rules. -/
theorem witness_BlockTickRules :
    ((ready [] []).sh.busy = false ∧ (ready [] []).tm.run = false) ∧
    (busy.sh.busy = true ∧ busy.sh.phase.toNat + 1 ≠ busy.sh.div.toNat) ∧
    (∃ s : State, s.sh.busy = true ∧ s.sh.phase.toNat + 1 = s.sh.div.toNat ∧ s.sh.bitcnt.toNat + 1 ≠ 8) ∧
    (∃ s : State, s.sh.busy = true ∧ s.sh.phase.toNat + 1 = s.sh.div.toNat ∧ s.sh.bitcnt.toNat + 1 = 8) ∧
    (sending.tm.run = true ∧ sending.tm.cnt ≠ sending.tm.top) ∧
    (∃ s : State, s.tm.run = true ∧ s.tm.cnt = s.tm.top) :=
  ⟨⟨rfl, rfl⟩, by decide,
    ⟨{ busy with sh := { busy.sh with phase := 15#8 } }, by decide⟩,
    ⟨{ busy with sh := { busy.sh with phase := 15#8, bitcnt := 7#4 } }, by decide⟩, by decide,
    ⟨{ sending with tm := { sending.tm with cnt := 15#8 } }, by decide⟩⟩

theorem witness_LcCfgEnablesCombiner :
    State.reset.sh.busy = false ∧ busy.sh.busy = true ∧ (∃ u, exec .lcCfg State.reset = .next u) ∧
    (ready [] []).lc.en = true ∧ ∃ u, exec .tmArm (ready [] []) = .next u :=
  ⟨rfl, rfl, ⟨_, rfl⟩, rfl, _, rfl⟩
/-- Enabled and routed, with the host idle and not; and disabled. -/
theorem witness_OutRule :
    ((ready [] []).lc.en = true ∧ (ready [] []).lc.outen = true ∧ (ready [] []).hostIdle = false ∧
      (ready [] []).lc.runstdby = true ∧ (ready [] []).lc.lut1 = 0xE0#8) ∧ State.reset.lc.en = false :=
  ⟨⟨rfl, rfl, rfl, rfl, rfl⟩, rfl⟩
/-- The clock high with data 1 and with data 0, and the clock low. -/
theorem witness_OutClosedForm :
    (busy.lc.en = true ∧ busy.lc.outen = true ∧ busy.hostIdle = false ∧ busy.lc.lut1 = 0xE0#8) ∧
    (sck busy.sh = true ∧ sdo busy.sh = true) ∧
    (∃ s : State, s.lc = busy.lc ∧ sck s.sh = true ∧ sdo s.sh = false) ∧ sck (ready [] []).sh = false :=
  ⟨⟨rfl, rfl, rfl, rfl⟩, by decide,
    ⟨{ busy with sh := { busy.sh with shift := 0x4A#8 } }, rfl, by decide⟩, rfl⟩
theorem witness_RederivedTruthTable :
    ∃ c d p : Fin 8, c < 3 ∧ d < 3 ∧ p < 3 ∧ c ≠ d ∧ d ≠ p ∧ c ≠ p := ⟨2, 1, 0, by decide⟩

theorem witness_BeginExpands :
    (State.reset.begun = false ∧ State.reset.sh.busy = false) ∧ (ready [] []).begun = true :=
  ⟨⟨rfl, rfl⟩, rfl⟩
theorem witness_BeginRunsThrough :
    ∃ s : State, cfgOk s.cfg = true ∧ s.begun = false ∧ s.sh.busy = false ∧ s.tm.run = false ∧
      s.ie = true ∧ s.wait = .none ∧ s.hostIdle = false ∧ s.queue = [] ∧ s.hostDelay = 0 ∧
      s.stream = 0x10000000#32 :: [] ∧ s.delays = 0 :: 3 :: 5 :: [] ∧
      s.cfg.lutMask = 0xF0#8 ∧ s.cfg.lutFinal = 0xE0#8 :=
  ⟨{ State.reset with stream := [0x10000000#32], delays := [0, 3, 5] }, by decide⟩
theorem witness_SendExpands : (ready [] []).begun = true ∧ State.reset.begun = false := ⟨rfl, rfl⟩
/-- The example delays `L_ARM = 2`, `L_STOP = 0`, `L_GAP = 0` of 00_scope.md R8 are aligned (R142). -/
theorem witness_SendRunsThrough :
    ∃ s : State, cfgOk s.cfg = true ∧ s.begun = true ∧ s.sh.en = true ∧ s.sh.busy = false ∧
      0 < s.sh.div.toNat ∧ s.wait = .none ∧ s.hostDelay = 0 ∧
      s.queue = ⟨.send 0xA5#8, false⟩ :: [] ∧ s.delays = 2 :: 0 :: 0 :: [] :=
  ⟨ready [⟨.send 0xA5#8, false⟩] [2, 0, 0], by decide⟩
theorem witness_WriteExpands : (ready [] []).begun = true ∧ State.reset.begun = false := ⟨rfl, rfl⟩
theorem witness_WriteAllExpands : (ready [] []).begun = true ∧ State.reset.begun = false := ⟨rfl, rfl⟩
theorem witness_CompositesAreExpansions :
    (ready [] []).begun = true ∧ State.reset.begun = false ∧
    expansion (.writeAll []) = .irqOff :: [.irqOn, .latch] ∧
    expansion (.send 1#8) = .tmArm :: [.shXfer 1#8, .tmStop] ∧
    expansion (.write 1#8 2#8 3#8) = .send 2#8 :: [.send 1#8, .send 3#8] := by decide
theorem witness_MacroExpansionSameRun :
    let s := ready [plainItem (.writeAll [red])] [2]
    s.begun = true ∧ s.stream = [] ∧
    (∀ item ∈ s.queue, item.cmd ≠ .begin ∧ item.endsBegin = false) ∧ ∃ u, step s = .next u :=
  ⟨rfl, rfl, by simp [ready, plainItem], _, rfl⟩
theorem witness_InterruptSwitch :
    (∃ u v w, exec .irqOff State.reset = .next u ∧ exec .irqOff u = .next v ∧ exec .irqOn v = .next w) ∧
    (Instr.tmArm ≠ .irqOff ∧ Instr.tmArm ≠ .irqOn ∧ (∀ ps, Instr.tmArm ≠ .writeAll ps) ∧
      ∃ u, exec .tmArm State.reset = .next u) :=
  ⟨⟨_, _, _, rfl, rfl, rfl⟩, Instr.noConfusion, Instr.noConfusion, fun _ => Instr.noConfusion, _, rfl⟩
/-- At the first, a middle and the last tick of the delay. -/
theorem witness_LatchDelay :
    ∃ s : State, cfgOk s.cfg = true ∧ s.wait = .latch 1600 ∧ 0 ≤ 1600 ∧ 1599 < 1600 ∧ 1600 ≤ 1600 ∧
      s.sh.busy = false ∧ CombinerReady s.lc ∧ ∃ u, exec .latch State.reset = .next u :=
  ⟨{ ready [] [] with wait := .latch 1600 }, by decide, rfl, by decide, by decide, by decide, rfl, rfl,
    _, rfl⟩
theorem witness_EmptyFrame :
    ∃ s : State, cfgOk s.cfg = true ∧ s.begun = true ∧ s.sh.busy = false ∧ s.tm.run = false ∧
      CombinerReady s.lc ∧ s.wait = .none ∧ s.hostIdle = false ∧ s.hostDelay = 0 ∧ 1000 ≤ s.cfg.lMax ∧
      s.queue = ⟨.writeAll [], false⟩ :: [] ∧ s.delays = 1000 :: 5 :: 7 :: [] :=
  ⟨ready [⟨.writeAll [], false⟩] [1000, 5, 7], by decide, rfl, rfl, rfl, rfl, rfl, rfl, rfl, by decide,
    rfl, rfl⟩
theorem witness_InterruptsOffDuringFrame :
    ∃ u v : State, exec (.writeAll [red]) (ready [] []) = .next u ∧ runSteps 0 u = .next v ∧
      v.applied ≤ (ready [] []).applied + 9 * [red].length :=
  ⟨_, _, rfl, rfl, by decide⟩

theorem witness_StepRunsDecodedCommand :
    ∃ s : State, cfgOk s.cfg = true ∧ hostActs s = true ∧ s.queue = [] ∧
      decode s.stream = .ok .tmArm [0x05000000#32] ∧ s.delays = 4 :: [] ∧
      ∃ v, exec .tmArm { s with stream := [0x05000000#32], wait := .none, hostIdle := false } = .next v :=
  ⟨{ ready [] [4] with stream := [0x04000000#32, 0x05000000#32] }, by decide, by decide, rfl, by decide,
    rfl, _, rfl⟩
theorem witness_StepRunsDecodedCommand_refused :
    ∃ s : State, cfgOk s.cfg = true ∧ hostActs s = true ∧ s.queue = [] ∧
      decode s.stream = .ok .begin [] ∧
      ∃ r, exec .begin { s with stream := [], wait := .none, hostIdle := false } = .refused r :=
  ⟨{ ready [] [] with stream := [0x10000000#32] }, by decide, by decide, rfl, by decide, _, rfl⟩
theorem witness_StepRunsQueuedCommand :
    ∃ s : State, cfgOk s.cfg = true ∧ hostActs s = true ∧ s.queue = ⟨.lcCfg, true⟩ :: [] ∧
      ∃ v, exec .lcCfg { s with queue := [], wait := .none, hostIdle := false } = .next v :=
  ⟨{ ready [⟨.lcCfg, true⟩] [] with begun := false }, by decide, by decide, rfl, _, rfl⟩
theorem witness_StepRunsQueuedCommand_refused :
    ∃ s : State, cfgOk s.cfg = true ∧ hostActs s = true ∧ s.queue = ⟨.begin, false⟩ :: [] ∧
      ∃ r, exec .begin { s with queue := [], wait := .none, hostIdle := false } = .refused r :=
  ⟨ready [⟨.begin, false⟩] [], by decide, by decide, rfl, _, rfl⟩
/-- A tick with each kind of wait, and a command. -/
theorem witness_TickOrCommand :
    (hostActs (ready [] []) = false ∧ (ready [] []).wait = .none ∧ ∃ u, step (ready [] []) = .next u) ∧
    (hostActs busy = false ∧ busy.wait = .xfer ∧ ∃ u, step busy = .next u) ∧
    (∃ s : State, hostActs s = false ∧ s.wait = .latch 1 ∧ ∃ u, step s = .next u) ∧
    (hostActs (ready [plainItem .tmArm] []) = true ∧
      ∃ u, step (ready [plainItem .tmArm] []) = .next u) :=
  ⟨⟨by decide, rfl, _, rfl⟩, ⟨by decide, rfl, _, rfl⟩,
    ⟨{ ready [plainItem .tmArm] [] with wait := .latch 1 }, by decide, rfl, _, rfl⟩, by decide, _, rfl⟩

/-- A BEGIN in the stream and a host that delays: one step, and no command applied by it. -/
theorem witness_ResetOutputsStayLow :
    ∃ s : State, cfgOk s.cfg = true ∧ s.sh = { State.reset.sh with rx := s.sh.rx } ∧
      s.tm = State.reset.tm ∧ s.lc = State.reset.lc ∧ hostActs s = false ∧ s.stream = [0x10000000#32] ∧
      ∃ u, step s = .next u ∧ runSteps 1 s = .next u ∧ u.applied = s.applied :=
  ⟨{ State.reset with stream := [0x10000000#32], hostDelay := 3 }, by decide, rfl, rfl, rfl, by decide,
    rfl, _, rfl, rfl, rfl⟩
theorem witness_IdleLineLow :
    Inv (ready [] []) ∧ (ready [] []).cfg.lutMask = 0xF0#8 ∧ (ready [] []).cfg.lutFinal = 0xE0#8 ∧
    (ready [] []).sh.busy = false := ⟨ready_inv _ _ (by simp), rfl, rfl, rfl⟩
theorem witness_AlignmentCondition :
    (ready [] []).cfg.tweak ≤ 255 ∧ (ready [] []).tm.top.toNat + 1 = 16 ∧
    (∃ u, exec .tmArm (ready [] []) = .next u) ∧
    AlignedDelay (ready [] []).cfg.tweak (ready [] []).tm.top.toNat 16 false 2 ∧
    ¬ AlignedDelay (ready [] []).cfg.tweak (ready [] []).tm.top.toNat 16 false 3 :=
  ⟨by decide, by decide, ⟨_, rfl⟩, by unfold AlignedDelay; decide, by unfold AlignedDelay; decide⟩
/-- The timer at 248 when the transfer starts is at 0 eight ticks later (V20). -/
theorem witness_BitWaveform :
    CombinerReady sending.lc ∧ sending.sh.en = true ∧ sending.sh.busy = false ∧
    2 ∣ sending.sh.div.toNat ∧ sending.tm.run = true ∧
    sending.tm.top.toNat + 1 = sending.sh.div.toNat ∧
    (∃ u, exec (.shXfer 0xA5#8) sending = .next u ∧
      (ticks (riseOffset sending.sh.ckph sending.sh.div.toNat) u).tm.cnt = 0#8) ∧
    7 < 8 ∧ 15 < sending.sh.div.toNat :=
  ⟨rfl, rfl, rfl, by decide, rfl, by decide, ⟨_, rfl, by decide⟩, by decide, by decide⟩
/-- V38, row 9: the count is 1 at the rising edge; and a number for each range of `d`. -/
theorem witness_MisalignedWaveform :
    (∃ s u : State, CombinerReady s.lc ∧ s.sh.en = true ∧ s.sh.busy = false ∧ 2 ∣ s.sh.div.toNat ∧
      s.tm.run = true ∧ s.tm.top.toNat + 1 = s.sh.div.toNat ∧ exec (.shXfer 0x0F#8) s = .next u ∧
      (ticks (riseOffset s.sh.ckph s.sh.div.toNat) u).tm.cnt.toNat = 1 ∧ 1 < s.sh.div.toNat) ∧
    (2 ∣ 16 ∧ 4 < 16 / 2 ∧ (0 < 1 ∧ 1 < 4) ∧ (4 ≤ 8 ∧ 8 ≤ 16 - 16 / 2) ∧ (16 - 16 / 2 < 10 ∧ 4 ≤ 10) ∧
      10 < 16) :=
  ⟨⟨{ sending with tm := { sending.tm with cnt := 249#8 } }, _, rfl, rfl, rfl, by decide, rfl, by decide,
    rfl, by decide, by decide⟩, by decide⟩
theorem witness_TransferWithoutTimer :
    CombinerReady (ready [] []).lc ∧ (ready [] []).tm.run = false ∧
    ∃ u, exec (.shXfer 0xA5#8) (ready [] []) = .next u := ⟨rfl, rfl, _, rfl⟩
theorem witness_SendOnTheWire :
    let s := ready [⟨.send 0xA5#8, false⟩] [2, 0, 0]
    cfgOk s.cfg = true ∧ s.begun = true ∧ CombinerReady s.lc ∧ s.sh.en = true ∧ s.sh.busy = false ∧
    s.sh.ckph = s.cfg.ckph ∧ s.sh.div = BitVec.ofNat 8 s.cfg.nBit ∧
    s.tm.top = BitVec.ofNat 8 s.cfg.tTop ∧ s.tm.cmp = BitVec.ofNat 8 s.cfg.tCmp ∧ s.wait = .none ∧
    s.hostDelay = 0 ∧ s.queue = ⟨.send 0xA5#8, false⟩ :: [] ∧ s.delays = 2 :: 0 :: 0 :: [] ∧
    AlignedDelay s.cfg.tweak s.cfg.tTop s.cfg.nBit s.cfg.ckph (boundedDelay s 2) :=
  ⟨by decide, rfl, rfl, rfl, rfl, rfl, rfl, rfl, rfl, rfl, rfl, rfl, rfl, by unfold AlignedDelay; decide⟩

/-- One pixel, sent with the example delays of 00_scope.md R8. -/
def onePixelPlan : FramePlan :=
  { pixels := [red], afterIrqOff := 0, sends := [⟨2, 0, 0⟩, ⟨2, 0, 0⟩, ⟨2, 0, 0⟩], afterIrqOn := 0,
    afterLatch := 0 }

/-- A plan with the example delays and an empty one. -/
theorem witness_DriverRunDecodes :
    cfgOk cfg1000 = true ∧ cfg1000.lutMask = 0xF0#8 ∧ cfg1000.lutFinal = 0xE0#8 ∧ cfg1000.tCmp < 6 ∧
    6 ≤ cfg1000.nBit / 2 ∧
    ∀ p ∈ [onePixelPlan, { onePixelPlan with pixels := [], sends := [] }], p.good cfg1000 := by
  refine ⟨by decide, rfl, rfl, by decide, by decide, ?_⟩
  have ha : AlignedDelay cfg1000.tweak cfg1000.tTop cfg1000.nBit cfg1000.ckph 2 := by
    unfold AlignedDelay
    decide
  intro p hp
  simp only [List.mem_cons, List.not_mem_nil, or_false] at hp
  rcases hp with rfl | rfl
  · refine ⟨by decide, by decide, ?_, by simp only [onePixelPlan, GapsShort]; decide⟩
    intro d hd
    have hd : d = ⟨2, 0, 0⟩ := by simpa [onePixelPlan] using hd
    subst hd
    exact ⟨by decide, by decide, by decide, ha⟩
  · exact ⟨by decide, by decide, fun d hd => (by cases hd), trivial⟩

theorem witness_RunOverStaysOver : Inv (ready [] []) ∧ RunOver (ready [] []) :=
  ⟨ready_inv _ _ (by simp), rfl, rfl⟩
/-- A tick and a command from states of the invariant. -/
theorem witness_InvariantKept :
    (Inv (ready [] []) ∧ ∃ u, step (ready [] []) = .next u) ∧
    (Inv (ready [plainItem (.send 1#8)] []) ∧ ∃ u, step (ready [plainItem (.send 1#8)] []) = .next u) :=
  ⟨⟨ready_inv _ _ (by simp), _, rfl⟩, ready_inv _ _ (by simp [plainItem]), _, rfl⟩
theorem witness_BlockingHostNeverCollides : Inv (ready [plainItem .tmCfg] []) :=
  ready_inv _ _ (by simp [plainItem])
/-- Two states of the reset machine that differ in SH_RX; in `ready`, with the combiner on. -/
theorem witness_DrawsDoNotShow :
    (∃ s u : State, (s.lc.en = true → s.lc.runstdby = true) ∧ SameButDraws s u ∧ s.sh.rx ≠ u.sh.rx ∧
      ∃ v, step s = .next v) ∧
    ((ready [] []).lc.en = true ∧ (ready [] []).lc.runstdby = true) :=
  ⟨⟨{ hung with sh := { hung.sh with rx := 1#8 } }, { hung with sh := { hung.sh with rx := 2#8 } },
    fun h => (by cases h), rfl, (by decide : (1#8 : Byte) ≠ 2#8), _, rfl⟩, rfl, rfl⟩
theorem witness_NothingIsSwitchedOff :
    let s := ready [plainItem .tmStop] []
    (∃ u, step s = .next u) ∧ s.sh.en = true ∧ s.sh.mstr = true ∧ s.sh.dord = false ∧
    s.tm.mode = true ∧ s.lc.en = true ∧ s.lc.runstdby = true ∧ s.lc.outen = true ∧ s.begun = true :=
  ⟨⟨_, rfl⟩, rfl, rfl, rfl, rfl, rfl, rfl, rfl, rfl⟩
theorem witness_BitPeriodPredicate : 0 < cfg1000.fSys ∧ cfg1000.nBit = 16 := by decide
theorem witness_PulseWidthPredicate : 0 < cfg1000.fSys ∧ ∃ u, step (ready [] []) = .next u :=
  ⟨by decide, _, rfl⟩

end Sys2Proof.Tests
end

section
/-! PROOF. How many words of the stream a command takes (30_encoding.md R69). -/

namespace Sys2Proof

/-! ### The header's fields as shifts and masks -/

/-- `header[31:24]`, widened to a word, is the header shifted right by 24 (R61). -/
theorem toNat_fieldOpcode (w : Word) : (fieldOpcode w).toNat = (w >>> 24).toNat := by
  have hw := w.isLt
  simp only [fieldOpcode, BitVec.extractLsb'_toNat, BitVec.toNat_ushiftRight, Nat.shiftRight_eq_div_pow]
  omega

theorem fieldOpcode_eq_iff (w : Word) (a : BitVec 8) : fieldOpcode w = a ↔ w >>> 24 = a.setWidth 32 := by
  have ha := a.isLt
  rw [← BitVec.toNat_inj, ← BitVec.toNat_inj, toNat_fieldOpcode, BitVec.toNat_setWidth]
  omega

/-- `header[23:0]` is the header masked to its low 24 bits (R61, R67). -/
theorem fieldCount_eq_mask (w : Word) : fieldCount w = (w &&& 0x00FFFFFF#32).toNat := by
  rw [BitVec.toNat_and, show (0x00FFFFFF#32).toNat = 2 ^ 24 - 1 from rfl, Nat.and_two_pow_sub_one_eq_mod]
  simp only [fieldCount, fieldOperand, BitVec.extractLsb'_toNat, Nat.shiftRight_zero]

/-! ### What each reader leaves over -/

/-- A payload of `n` words that decodes is there in full, and what is left over is what stands after it. -/
theorem decodePayload_eq_ok {header : Word} {n : Nat} {ws : List Word} {acc : List Pixel} {i : Instr}
    {rest : List Word} (h : decodePayload header n ws acc = .ok i rest) :
    n ≤ ws.length ∧ rest = ws.drop n := by
  induction n generalizing ws acc with
  | zero =>
    obtain ⟨-, rfl⟩ := Decoded.ok.inj h
    simp
  | succ n ih =>
    cases ws with
    | nil => cases h
    | cons v ws =>
      simp only [decodePayload] at h
      split at h
      · obtain ⟨hlen, hrest⟩ := ih h
        exact ⟨Nat.succ_le_succ hlen, hrest⟩
      · cases h

theorem decodeZ_rest {j i : Instr} {w : Word} {ws rest : List Word}
    (h : decodeZ j w ws = .ok i rest) : rest = ws := by
  unfold decodeZ at h
  split at h
  · exact (Decoded.ok.inj h).2.symm
  · cases h

theorem decodeB_rest {j : Byte → Instr} {i : Instr} {w : Word} {ws rest : List Word}
    (h : decodeB j w ws = .ok i rest) : rest = ws := by
  unfold decodeB at h
  split at h
  · exact (Decoded.ok.inj h).2.symm
  · cases h

/-- Only WRITE_ALL has words after its header (R62 to R65). -/
theorem decodeAs_rest {o : Opcode} {w : Word} {ws : List Word} {i : Instr} {rest : List Word}
    (ho : o ≠ .writeAll) (h : decodeAs o w ws = .ok i rest) : rest = ws := by
  cases o with
  | writeAll => exact absurd rfl ho
  | write => exact (Decoded.ok.inj h).2.symm
  | shXfer | send => exact decodeB_rest h
  | shCfg | tmCfg | tmArm | tmStop | lcCfg | irqOff | irqOn | latch | begin => exact decodeZ_rest h

/-! ### The length of a command -/

theorem opcodeValue_eq_writeAll_iff (o : Opcode) : opcodeValue o = 0x12#8 ↔ o = .writeAll := by
  cases o <;> decide

/-- A command that decodes has the words `commandLength` reads from its header, and what is left over is the
stream without them. -/
theorem decode_cons_eq_ok {w : Word} {ws : List Word} {i : Instr} {rest : List Word}
    (h : decode (w :: ws) = .ok i rest) :
    commandLength w ≤ (w :: ws).length ∧ rest = (w :: ws).drop (commandLength w) := by
  simp only [decode] at h
  split at h
  next o ho =>
    simp only [commandLength, ← opcodeValue_of_opcodeOf ho, opcodeValue_eq_writeAll_iff]
    by_cases hw : o = .writeAll
    · subst hw
      obtain ⟨hlen, hrest⟩ := decodePayload_eq_ok h
      rw [if_pos rfl, Nat.add_comm]
      exact ⟨Nat.succ_le_succ hlen, hrest⟩
    · rw [if_neg hw]
      exact ⟨by simp, decodeAs_rest hw h⟩
  next => cases h

/-- R69 written with a shift and a mask: the header, and behind it as many words as a WRITE_ALL counts. -/
theorem commandLength_eq (w : Word) :
    commandLength w = 1 + if w >>> 24 = 0x12#32 then (w &&& 0x00FFFFFF#32).toNat else 0 := by
  simp only [commandLength, fieldOpcode_eq_iff, fieldCount_eq_mask,
    show (0x12#8).setWidth 32 = 0x12#32 from rfl]
  split <;> rfl

/-- Settles O6: what a command that decodes leaves over is the stream without its `commandLength` words. -/
theorem commandLengthRule : Obligations.CommandLengthRule := by
  intro w ws i rest h
  obtain ⟨hlen, hrest⟩ := decode_cons_eq_ok h
  have hdrop : rest = ws.drop (if w >>> 24 = 0x12#32 then (w &&& 0x00FFFFFF#32).toNat else 0) := by
    rw [hrest, commandLength_eq, Nat.add_comm, List.drop_succ_cons]
  have hcount : (w :: ws).length = rest.length + commandLength w := by
    rw [hrest, List.length_drop, Nat.sub_add_cancel hlen]
  refine ⟨hdrop, ?_⟩
  rw [hcount, commandLength_eq]
  split <;> rfl

end Sys2Proof
end

section
/-! PROOF. The Serial Shifter's commands and the two blocks' tick rules (40_shifter.md, 41_timer.md). -/

namespace Sys2Proof

/-! ### Reading a command of one word -/

/-- A header is read as the command of its row (30_encoding.md R66). -/
theorem decode_headerWord (o : Opcode) (x : BitVec 24) (ws : List Word) :
    decode (headerWord o x :: ws) = decodeAs o (headerWord o x) ws := by
  simp [decode]

/-- A format B word is its opcode and sixteen zeros in front of its byte (30_encoding.md R63). -/
theorem decode_shXfer (byte : Byte) (ws : List Word) :
    decode ((0x020000#24 ++ byte) :: ws) = .ok (.shXfer byte) ws := by
  have hword : (0x020000#24 ++ byte : Word) = headerWord .shXfer (0#16 ++ byte) := by
    show 0x02#8 ++ 0#16 ++ byte = 0x02#8 ++ (0#16 ++ byte)
    exact BitVec.append_assoc
  rw [hword, decode_headerWord]
  simp [decodeAs, decodeB]

namespace Machine

/-! ### What SH_CFG and SH_XFER answer -/

theorem exec_shCfg (s : State) : exec .shCfg s = unlessBusy .shCfg s (configureShifter s) := rfl

theorem exec_shXfer (byte : Byte) (s : State) : exec (.shXfer byte) s = .next (startTransfer byte s) := rfl

theorem unlessBusy_of_idle {i : Instr} {s e : State} (h : s.sh.busy = false) :
    unlessBusy i s e = .next e := unlessBusy_eq_next.mpr ⟨h, rfl⟩

theorem unlessBusy_of_busy {i : Instr} {s e : State} (h : s.sh.busy = true) :
    unlessBusy i s e = .refused (.configWhileBusy i) := if_pos h

@[simp] theorem configureShifter_busy (s : State) : (configureShifter s).sh.busy = s.sh.busy := rfl

/-- "applied a second time it writes the same values again" (40_shifter.md R75). -/
@[simp] theorem configureShifter_idem (s : State) :
    configureShifter (configureShifter s) = configureShifter s := rfl

/-- Settles O7: the writes of SH_CFG behind the check of SH_BUSY, which it leaves as it is. -/
theorem shCfgConfiguresShifter : Obligations.ShCfgConfiguresShifter := by
  refine ⟨fun s hb => ?writes, fun s hb => ?refused, fun s u h => ?again, rfl, by decide⟩
  case writes => exact (exec_shCfg s).trans (unlessBusy_of_idle hb)
  case refused => exact (exec_shCfg s).trans (unlessBusy_of_busy hb)
  case again =>
    obtain ⟨hb, rfl⟩ := unlessBusy_eq_next.mp h
    rw [exec_shCfg, configureShifter_idem, unlessBusy_of_idle ((configureShifter_busy s).trans hb)]

/-! ### The wait of SH_XFER -/

/-- The wait of SH_XFER is for SH_IF (40_shifter.md R76). -/
theorem waitPending_of_xfer {s : State} (h : s.wait = .xfer) : waitPending s = !s.sh.iflag := by
  simp [waitPending, h]

@[simp] theorem startTransfer_wait (byte : Byte) (s : State) : (startTransfer byte s).wait = .xfer := rfl

/-- The wait of an SH_XFER is pending at the ticks whose state has SH_IF 0, for as long as only ticks pass. -/
theorem waitPending_ticks_startTransfer (byte : Byte) (s : State) (j : Nat) :
    waitPending (ticks j (startTransfer byte s)) = !(ticks j (startTransfer byte s)).sh.iflag :=
  waitPending_of_xfer (ticks_wait_xfer (startTransfer_wait byte s) j)

/-- SH_IF is 1 from `8 * SH_DIV` ticks after the start of a transfer on, and not before (40_shifter.md R81). -/
theorem iflag_ticks_startTransfer (byte : Byte) {s : State} (he : s.sh.en = true) (hb : s.sh.busy = false)
    (hd : 0 < s.sh.div.toNat) (j : Nat) :
    (ticks j (startTransfer byte s)).sh.iflag = decide (8 * s.sh.div.toNat ≤ j) := by
  have hstart := startTransfer_atTransferStart byte he hb hd
  have hdiv : (startTransfer byte s).sh.div = s.sh.div := by rw [startTransfer_of_idle he hb]
  have hif : (startTransfer byte s).sh.iflag = false := by rw [startTransfer_of_idle he hb]
  by_cases hj : 8 * s.sh.div.toNat ≤ j
  · obtain ⟨rx, hend⟩ := ticks_sh_after_transfer hstart (j := j) (by rwa [hdiv])
    simp [hend, hj]
  · obtain ⟨rx, hin⟩ := ticks_sh_in_transfer hstart (j := j) (by rw [hdiv]; omega)
    simp [hin, hif, hj]

/-! ### A stuck host -/

/-- SH_XFER on a disabled shifter that is idle and not complete leaves the host stuck (40_shifter.md R83). -/
theorem stuck_startTransfer (byte : Byte) {s : State} (he : s.sh.en = false) (hb : s.sh.busy = false)
    (hi : s.sh.iflag = false) : Stuck (startTransfer byte s) := by
  rw [startTransfer_of_disabled he]
  exact ⟨rfl, hb, hi⟩

theorem waitPending_of_stuck {s : State} (h : Stuck s) : waitPending s = true := by
  obtain ⟨hw, -, hi⟩ := h
  rw [waitPending_of_xfer hw, hi, Bool.not_false]

theorem hostActs_of_stuck {s : State} (h : Stuck s) : hostActs s = false := by
  simp [hostActs, cmdEnabled, waitPending_of_stuck h]

theorem ticks_sh_of_stuck {s : State} (h : Stuck s) (n : Nat) : (ticks n s).sh = s.sh := by
  obtain ⟨-, hb, -⟩ := h
  exact ticks_sh_of_idle hb n

/-- While ticks pass a stuck host stays stuck: the shifter it waits for does not change. -/
theorem stuck_ticks {s : State} (h : Stuck s) (n : Nat) : Stuck (ticks n s) := by
  have hsh := ticks_sh_of_stuck h n
  obtain ⟨hw, hb, hi⟩ := h
  exact ⟨ticks_wait_xfer hw n, by rw [hsh, hb], by rw [hsh, hi]⟩

/-- From a stuck state only ticks pass (44_machine_step.md R138). -/
theorem runSteps_of_stuck {s : State} (hc : cfgOk s.cfg = true) (h : Stuck s) (n : Nat) :
    runSteps n s = .next (ticks n s) :=
  runSteps_ticks hc fun j _ => hostActs_of_stuck (stuck_ticks h j)

/-- Settles O8: the three cases of the transmit register's write, and the wait read off SH_IF. -/
theorem shXferStartsAndWaits : Obligations.ShXferStartsAndWaits := by
  refine ⟨fun byte s he hb => ?idle, fun byte s he hb => ?busy, fun byte s he => ?disabled,
    fun s hw => ?waitsForIf, fun byte s u he hb hd h => ?length, fun byte s u j he hb hi h => ?endless,
    fun byte => decode_shXfer byte []⟩
  case idle => rw [exec_shXfer, startTransfer_of_idle he hb]
  case busy => rw [exec_shXfer, startTransfer_of_busy he hb]
  case disabled => rw [exec_shXfer, startTransfer_of_disabled he]
  case waitsForIf => rw [waitPending_of_xfer hw, Bool.not_eq_false']
  case length =>
    obtain rfl := Host.Outcome.next.inj h
    simp only [waitPending_ticks_startTransfer, iflag_ticks_startTransfer byte he hb hd]
    exact ⟨fun j hj => by simp [hj], by simp⟩
  case endless =>
    obtain rfl := Host.Outcome.next.inj h
    exact waitPending_of_stuck (stuck_ticks (stuck_startTransfer byte he hb hi) j)

/-! ### SH_EN is never cleared -/

/-- Taking a command from `rest` leaves the shifter alone. -/
theorem fetch_sh {s u : State} {i : Instr} {e : Bool} (h : fetch s = .cmd i e u) : u.sh = s.sh := by
  obtain ⟨q, -, rfl⟩ | ⟨rest, -, -, -, rfl⟩ := fetch_cases h
  · rfl
  · rfl

theorem tick_keeps_en (s : State) : (tick s).sh.en = s.sh.en := (shifterTick_frame _ s.sh).1

/-- No command clears SH_EN: only SH_CFG, alone or in front of BEGIN's expansion, writes it, and writes 1. -/
theorem exec_keeps_en {i : Instr} {s u : State} (h : exec i s = .next u) (he : s.sh.en = true) :
    u.sh.en = true := by
  obtain ⟨hsh, -⟩ | ⟨-, -, hsh⟩ | ⟨byte, -, hsh⟩ := exec_sh_cases h
  · rw [hsh, he]
  · rw [hsh]; rfl
  · rw [hsh, (writeTransmit_frame byte _).1]; exact he

theorem step_keeps_en {s u : State} (h : step s = .next u) (he : s.sh.en = true) : u.sh.en = true := by
  obtain ⟨-, ⟨-, rfl⟩ | ⟨-, i, e, v, w, hf, hx, rfl⟩⟩ := step_cases h
  · rw [tick_keeps_en, he]
  · rw [drawDelay_sh, markBegun_sh]
    exact exec_keeps_en hx (by rw [fetch_sh hf, clearWait_sh, he])

/-- Settles O12: the state SH_XFER leaves is stuck, from a stuck state only ticks pass, and they leave its
shifter as it is; `step_keeps_en` is the second part. -/
theorem disabledShifterHangs : Obligations.DisabledShifterHangs := by
  refine ⟨fun byte s hc he hb hi => ?hangs, fun s u => step_keeps_en⟩
  have hcfg : cfgOk (startTransfer byte s).cfg = true := hc
  have hstuck := stuck_startTransfer byte he hb hi
  exact ⟨startTransfer byte s, rfl, startTransfer_of_disabled he, hstuck, fun n =>
    ⟨runSteps_of_stuck hcfg hstuck n, stuck_ticks hstuck n, ticks_sh_of_stuck hstuck n,
      ticks_applied n _⟩⟩

/-! ### The tick rules -/

/-- Settles O20: the cases of the shifter's tick rule and of the timer's; the byte SH_RX receives is the
tick's draw. -/
theorem blockTickRules : Obligations.BlockTickRules := by
  intro s
  refine ⟨shifterTick_idle, shifterTick_mid, fun hb hp hc => ⟨_, shifterTick_cellEnd hb hp hc⟩,
    fun hb hp hc => ⟨Config.freeRx s.t, ?lastCell⟩, timerTick_stopped, timerTick_wrap,
    fun hr hne => ?counts⟩
  case lastCell =>
    have h8 : s.sh.bitcnt + 1 = 8#4 := by bv_omega
    rw [tick_sh, shifterTick_last hb hp hc, h8]
  case counts =>
    have hcnt : s.tm.cnt + 1 = BitVec.ofNat 8 ((s.tm.cnt.toNat + 1) % 256) := by bv_omega
    rw [tick_tm, timerTick_count hr hne, hcnt]

end Machine

end Sys2Proof
end

section
/-! PROOF. The Pulse Timer's TM_ARM and TM_STOP (41_timer.md R89 to R91), and the pulse train of an armed
timer whose load value lies above TM_TOP. -/

namespace Sys2Proof.Machine

/-! ### What TM_ARM and TM_STOP answer -/

theorem exec_tmArm (s : State) : exec .tmArm s = .next (armTimer s) := rfl

theorem exec_tmStop (s : State) : exec .tmStop s = .next (stopTimer s) := rfl

@[simp] theorem armTimer_tm (s : State) :
    (armTimer s).tm = { s.tm with cnt := loadedCount s.cfg.tweak, run := true } := rfl

@[simp] theorem stopTimer_tm (s : State) : (stopTimer s).tm = { s.tm with run := false } := rfl

/-- "applied while already stopped it changes nothing" (41_timer.md R91). -/
theorem stopTimer_of_stopped {s : State} (h : s.tm.run = false) : stopTimer s = s := by
  rw [stopTimer, ← h]
  rfl

/-! ### The value TM_ARM loads -/

@[simp] theorem loadedCount_zero : loadedCount 0 = 0#8 := rfl

theorem toNat_loadedCount (tweak : Nat) : (loadedCount tweak).toNat = (256 - tweak) % 256 := by
  simp [loadedCount]

/-- The load value is the 8-bit two's complement of TWEAK (41_timer.md R90). -/
theorem loadedCount_add_tweak {tweak : Nat} (h : tweak ≤ 255) :
    loadedCount tweak + BitVec.ofNat 8 tweak = 0#8 := by
  apply BitVec.eq_of_toNat_eq
  rw [BitVec.toNat_add, toNat_loadedCount, BitVec.toNat_ofNat, BitVec.toNat_ofNat]
  omega

/-! ### A running timer, field by field and over its period -/

/-- Ticks write TM_CNT only. -/
theorem ticks_tm_eq (n : Nat) (s : State) : (ticks n s).tm = { s.tm with cnt := (ticks n s).tm.cnt } := by
  obtain ⟨hmode, htop, hcmp, hrun⟩ := ticks_tm_fields n s
  simp only [← hmode, ← htop, ← hcmp, ← hrun]

/-- Inside its period a running timer repeats every `TM_TOP + 1` ticks (41_timer.md R95). -/
theorem ticks_tm_periodic {s : State} (hr : s.tm.run = true) (hv : s.tm.cnt.toNat ≤ s.tm.top.toNat)
    (j : Nat) : (ticks (j + (s.tm.top.toNat + 1)) s).tm = (ticks j s).tm := by
  have hcnt : (ticks (j + (s.tm.top.toNat + 1)) s).tm.cnt = (ticks j s).tm.cnt := by
    apply BitVec.eq_of_toNat_eq
    rw [ticks_cnt_cycling hr hv, ticks_cnt_cycling hr hv, ← Nat.add_assoc, Nat.add_mod_right]
  rw [ticks_tm_eq, hcnt, ← ticks_tm_eq]

/-- A count above TM_TOP passes 255 to 0 (41_timer.md R92). -/
theorem ticks_cnt_overflow {s : State} (hr : s.tm.run = true) (hv : s.tm.top.toNat < s.tm.cnt.toNat) :
    (ticks (256 - s.tm.cnt.toNat) s).tm.cnt = 0#8 := by
  have hlt := s.tm.cnt.isLt
  obtain ⟨-, htop, -, hrun⟩ := ticks_tm_fields (255 - s.tm.cnt.toNat) s
  have hlast := ticks_cnt_climbing hr hv (j := 255 - s.tm.cnt.toNat) (by omega)
  have hne : (ticks (255 - s.tm.cnt.toNat) s).tm.cnt ≠ (ticks (255 - s.tm.cnt.toNat) s).tm.top := by
    intro he
    rw [he, htop] at hlast
    omega
  rw [show 256 - s.tm.cnt.toNat = (255 - s.tm.cnt.toNat) + 1 by omega, ticks_succ', tick_tm,
    timerTick_count (hrun.trans hr) hne]
  bv_omega

/-- From the overflow on the count is the tick modulo the period (41_timer.md R95). -/
theorem ticks_cnt_after_overflow {s : State} (hr : s.tm.run = true)
    (hv : s.tm.top.toNat < s.tm.cnt.toNat) (j : Nat) :
    (ticks (256 - s.tm.cnt.toNat + j) s).tm.cnt.toNat = j % (s.tm.top.toNat + 1) := by
  obtain ⟨-, htop, -, hrun⟩ := ticks_tm_fields (256 - s.tm.cnt.toNat) s
  have hzero := ticks_cnt_overflow hr hv
  rw [ticks_add, ticks_cnt_cycling (hrun.trans hr) (by rw [hzero]; exact Nat.zero_le _), hzero, htop]
  simp

/-! ### The armed timer, load value above TM_TOP (41_timer.md R94, case b) -/

theorem toNat_cnt_armTimer {s : State} (hpos : 1 ≤ s.cfg.tweak) :
    (armTimer s).tm.cnt.toNat = 256 - s.cfg.tweak := by
  rw [armTimer_tm, toNat_loadedCount, Nat.mod_eq_of_lt (by omega)]

section Armed

variable {s : State} (hpos : 1 ≤ s.cfg.tweak) (habove : s.cfg.tweak ≤ 255 - s.tm.top.toNat)
include hpos habove

theorem top_lt_cnt_armTimer : (armTimer s).tm.top.toNat < (armTimer s).tm.cnt.toNat := by
  have htop : (armTimer s).tm.top = s.tm.top := rfl
  rw [toNat_cnt_armTimer hpos, htop]
  omega

/-- For the first TWEAK ticks the count climbs from the load value. -/
theorem ticks_armTimer_cnt_before {j : Nat} (hj : j < s.cfg.tweak) :
    (ticks j (armTimer s)).tm.cnt.toNat = 256 - s.cfg.tweak + j := by
  have hload := toNat_cnt_armTimer hpos
  rw [ticks_cnt_climbing rfl (top_lt_cnt_armTimer hpos habove) (by omega), hload]

/-- TWEAK ticks after TM_ARM the count is 0, and it goes round the period from there. -/
theorem ticks_armTimer_cnt_from {j : Nat} (hj : s.cfg.tweak ≤ j) :
    (ticks j (armTimer s)).tm.cnt.toNat = (j - s.cfg.tweak) % (s.tm.top.toNat + 1) := by
  have hload := toNat_cnt_armTimer hpos
  have hcnt := ticks_cnt_after_overflow rfl (top_lt_cnt_armTimer hpos habove) (j - s.cfg.tweak)
  rwa [show 256 - (armTimer s).tm.cnt.toNat + (j - s.cfg.tweak) = j by omega] at hcnt

/-- WO of an armed timer: low for TWEAK ticks, then the first TM_CMP ticks of each period. -/
theorem wo_ticks_armTimer (hcmp : s.tm.cmp.toNat ≤ s.tm.top.toNat) (j : Nat) :
    wo (ticks j (armTimer s)).tm =
      (decide (s.cfg.tweak ≤ j) && decide ((j - s.cfg.tweak) % (s.tm.top.toNat + 1) < s.tm.cmp.toNat)) := by
  obtain ⟨-, -, hcmp', hrun⟩ := ticks_tm_fields j (armTimer s)
  have hwo : wo (ticks j (armTimer s)).tm = decide ((ticks j (armTimer s)).tm.cnt.toNat < s.tm.cmp.toNat) := by
    rw [wo, hrun, hcmp']
    rfl
  rw [hwo]
  by_cases hj : s.cfg.tweak ≤ j
  · rw [ticks_armTimer_cnt_from hpos habove hj, decide_eq_true hj, Bool.true_and]
  · rw [ticks_armTimer_cnt_before hpos habove (by omega), decide_eq_false hj, Bool.false_and,
      decide_eq_false (by omega)]

end Armed

/-- Settles O16: TM_ARM's writes, the load value as the two's complement of TWEAK, and the pulse train of
the armed timer at TWEAK 10, TM_TOP 15 and TM_CMP 4. -/
theorem tmArmLoadsOffset : Obligations.TmArmLoadsOffset := by
  refine ⟨exec_tmArm, fun s u ht h => ?complement, fun s u ht h => ?zero, fun s u n hc h => ?unconfigured,
    fun s u j ht htop hcmp h => ?reference, by decide⟩
  case complement =>
    obtain rfl := Host.Outcome.next.inj h
    exact loadedCount_add_tweak ht
  case zero =>
    obtain rfl := Host.Outcome.next.inj h
    rw [armTimer_tm, ht, loadedCount_zero]
  case unconfigured =>
    obtain rfl := Host.Outcome.next.inj h
    obtain ⟨-, -, hcmp, hrun⟩ := ticks_tm_fields n (armTimer s)
    exact ⟨hrun, wo_of_cmp_zero (hcmp.trans hc)⟩
  case reference =>
    obtain rfl := Host.Outcome.next.inj h
    have hpos : 1 ≤ s.cfg.tweak := by omega
    have habove : s.cfg.tweak ≤ 255 - s.tm.top.toNat := by rw [ht, htop]; decide
    refine ⟨fun hj => BitVec.eq_of_toNat_eq ?_, BitVec.eq_of_toNat_eq ?_, ?_⟩
    · rw [ticks_armTimer_cnt_before hpos habove (by omega), ht, BitVec.toNat_ofNat]
      omega
    · rw [ticks_armTimer_cnt_from hpos habove (by omega), ht]
      rfl
    · rw [wo_ticks_armTimer hpos habove (by rw [hcmp, htop]; decide), ht, htop, hcmp]
      rfl

/-- Settles O17: a stopped timer does not tick, a running one is periodic, the final cell gates the pulse
with SCK, and TM_ARM overwrites the count and the run bit. -/
theorem tmStopHoldsCount : Obligations.TmStopHoldsCount := by
  refine ⟨exec_tmStop, fun s u n h => ?held, fun s hr => ?again, fun s j hr hv => ticks_tm_periodic hr hv j,
    fun s tm hready hsck => ?gated, fun s c r => rfl, fun s u ht htop h => ?reference, by decide⟩
  case held =>
    obtain rfl := Host.Outcome.next.inj h
    rw [ticks_tm_of_stopped (s := stopTimer s) rfl]
    exact ⟨rfl, rfl, wo_of_stopped rfl⟩
  case again => rw [exec_tmStop, stopTimer_of_stopped hr]
  case gated =>
    rw [outPin_of_ready hready, outPin_of_ready (s := { s with tm := tm }) hready, hsck, Bool.false_and,
      Bool.false_and]
  case reference =>
    obtain rfl := Host.Outcome.next.inj h
    refine ⟨_, exec_tmStop _, BitVec.eq_of_toNat_eq ?_, wo_of_stopped rfl⟩
    have habove : s.cfg.tweak ≤ 255 - s.tm.top.toNat := by rw [ht, htop]; decide
    rw [stopTimer_tm, ticks_armTimer_cnt_from (by omega) habove (by omega), ht, htop]
    rfl

end Sys2Proof.Machine
end

section
/-! PROOF. The Logic Combiner's output function (42_combiner.md R106 to R109). -/

namespace Sys2Proof.Machine

/-! ### The two truth tables -/

/-- The three minterms of the final cell are its closed form (42_combiner.md R108, R109). -/
theorem cellOut_final_minterms (clock data pulse : Bool) : cellOut 0xE0#8 clock data pulse =
    ((clock && data && !pulse) || (clock && !data && pulse) || (clock && data && pulse)) := by
  rw [cellOut_final]
  cases clock
  case false => rfl
  case true => cases data <;> simp

/-- Settles O22: the mask cell forwards its third input, and the final cell is the sum of its minterms. -/
theorem truthTables : Obligations.TruthTables :=
  ⟨rfl, rfl, cellOut_mask, cellOut_final_minterms⟩

/-! ### OUT -/

/-- The mask cell looks up bit 4 of its table while the pulse is high, and bit 0 otherwise (42_combiner.md R105). -/
theorem maskOut_eq (lc : Combiner) (tm : Timer) :
    maskOut lc tm = lc.lut0.getLsbD (4 * (wo tm).toNat) := rfl

/-- An enabled combiner, routed and not stopped by an idle host, drives the final cell's bit (42_combiner.md R106). -/
theorem outPin_of_driven {s : State} (hen : s.lc.en = true) (hout : s.lc.outen = true)
    (hrun : s.hostIdle = false ∨ s.lc.runstdby = true) :
    outPin s = cellOut s.lc.lut1 (sck s.sh) (sdo s.sh) (maskOut s.lc s.tm) := by
  have hdraw : (s.hostIdle && !s.lc.runstdby) = false := by
    obtain hidle | hstdby := hrun
    · rw [hidle, Bool.false_and]
    · rw [hstdby, Bool.not_true, Bool.and_false]
  simp [outPin, hen, hout, hdraw]

/-- With LC_OUTEN = 0 the pin is low (42_combiner.md R106). -/
theorem outPin_of_unrouted {s : State} (h : s.lc.outen = false) : outPin s = false := by
  simp [outPin, h]

/-- Settles O23: a driven pin carries the final cell's bit, a disabled or unrouted one is low. -/
theorem outRule : Obligations.OutRule := by
  refine fun s => ⟨fun hen hout hrun => ?driven, fun hoff => ?low⟩
  case driven => rw [outPin_of_driven hen hout hrun, cellOut, maskOut_eq]
  case low => exact hoff.elim outPin_of_disabled outPin_of_unrouted

/-- Settles O24: the final cell's closed form on a driven pin, and its values by SCK and SDO. -/
theorem outClosedForm : Obligations.OutClosedForm := by
  intro s hen hout hrun hlut
  have hform : outPin s = (sck s.sh && (sdo s.sh || maskOut s.lc s.tm)) := by
    rw [outPin_of_driven hen hout hrun, hlut, cellOut_final]
  refine ⟨hform, fun hsck => ?clockLow, fun hsck hsdo => ?dataOne, fun hsck hsdo => ?dataZero⟩
  case clockLow => rw [hform, hsck, Bool.false_and]
  case dataOne => rw [hform, hsck, hsdo, Bool.true_or, Bool.true_and]
  case dataZero => rw [hform, hsck, hsdo, Bool.true_and, Bool.false_or]

end Sys2Proof.Machine
end

section
/-! PROOF. The interrupt switch and the latch delay of the driver façade (43_facade.md R122 to R124). -/

namespace Sys2Proof.Machine

/-! ### What IRQ_OFF, IRQ_ON and LATCH answer -/

theorem exec_irqOff (s : State) : exec .irqOff s = .next (s.setIe false) := rfl

theorem exec_irqOn (s : State) : exec .irqOn s = .next (s.setIe true) := rfl

theorem exec_latch (s : State) : exec .latch s = .next (s.setWait (.latch s.cfg.latchTicks)) := rfl

/-! ### The latch wait -/

/-- A pending wait keeps the host from its next command (44_machine_step.md R135). -/
theorem hostActs_of_waitPending {s : State} (h : waitPending s = true) : hostActs s = false := by
  simp [hostActs, cmdEnabled, h]

/-- The wait of LATCH is for the ticks still owed (44_machine_step.md R132). -/
theorem waitPending_of_latch {s : State} {k : Nat} (h : s.wait = .latch k) : waitPending s = (k != 0) := by
  simp [waitPending, h]

/-- A latch wait of `k` is pending at the first `k` ticks and over from then on. -/
theorem waitPending_ticks_latch {s : State} {k : Nat} (h : s.wait = .latch k) (j : Nat) :
    waitPending (ticks j s) = decide (j < k) := by
  rw [waitPending_of_latch (ticks_wait_latch h j), Bool.eq_iff_iff, bne_iff_ne, decide_eq_true_iff]
  omega

/-- During a latch wait the host does not act. -/
theorem hostActs_ticks_latch {s : State} {k j : Nat} (h : s.wait = .latch k) (hj : j < k) :
    hostActs (ticks j s) = false :=
  hostActs_of_waitPending ((waitPending_ticks_latch h j).trans (decide_eq_true hj))

/-! ### The line of an idle shifter -/

theorem sck_ticks_of_idle {s : State} (h : s.sh.busy = false) (n : Nat) : sck (ticks n s).sh = false := by
  rw [ticks_sh_of_idle h, sck_of_idle h]

/-- With SCK low the configured combiner holds OUT low, whatever the timer does (42_combiner.md R109). -/
theorem outPin_ticks_of_idle {s : State} (hb : s.sh.busy = false) (hlc : CombinerReady s.lc) (n : Nat) :
    outPin (ticks n s) = false := by
  have hready : CombinerReady (ticks n s).lc := by rwa [ticks_lc]
  rw [outPin_of_ready hready, sck_ticks_of_idle hb, Bool.false_and]

/-- Settles O36: a latch wait of `k` holds the host for exactly `k` ticks, and the shifter, idle all the
while, keeps the line low. -/
theorem latchDelay : Obligations.LatchDelay := by
  refine ⟨exec_latch, fun s k j hc hw hj => ?waits, fun u h => ?reference, by decide⟩
  case waits =>
    refine ⟨?_, ticks_applied j s, hostActs_ticks_latch hw, ticks_t j s,
      fun hb hlc => ⟨sck_ticks_of_idle hb j, outPin_ticks_of_idle hb hlc j⟩, ?_⟩
    · exact runSteps_ticks hc fun m hm => hostActs_ticks_latch hw (hm.trans_le hj)
    · rw [waitPending_ticks_latch hw, decide_eq_false (Nat.lt_irrefl k)]
  case reference =>
    obtain rfl := Host.Outcome.next.inj h
    rfl

/-! ### Who writes IE -/

/-- A command keeps IE, or is one of the three that write it (43_facade.md R121 to R123). -/
theorem exec_keeps_ie_or_writes {i : Instr} {s u : State} (h : exec i s = .next u) :
    u.ie = s.ie ∨ i = .irqOff ∨ i = .irqOn ∨ ∃ ps, i = .writeAll ps := by
  cases i with
  | irqOff => exact .inr (.inl rfl)
  | irqOn => exact .inr (.inr (.inl rfl))
  | writeAll ps => exact .inr (.inr (.inr ⟨ps, rfl⟩))
  | shCfg | tmCfg | lcCfg => obtain ⟨-, rfl⟩ := unlessBusy_eq_next.mp h; exact .inl rfl
  | write | send => obtain ⟨-, rfl⟩ := ifBegun_eq_next.mp h; exact .inl rfl
  | shXfer | tmArm | tmStop | latch => obtain rfl := Host.Outcome.next.inj h; exact .inl rfl
  | begin =>
    rw [exec, execBegin] at h
    split at h
    · cases h
    · obtain ⟨-, rfl⟩ := unlessBusy_eq_next.mp h
      exact .inl rfl

/-- Settles O35: the writes of the switch, IRQ_ON after two IRQ_OFFs, and the frame of IE by
`exec_keeps_ie_or_writes`. -/
theorem interruptSwitch : Obligations.InterruptSwitch := by
  refine ⟨exec_irqOff, exec_irqOn, fun s u v w _ _ hon => ?last, fun i s u hoff hon hall h => ?others,
    by decide, by decide⟩
  case last =>
    obtain rfl := Host.Outcome.next.inj hon
    rfl
  case others =>
    obtain hkeep | rfl | rfl | ⟨ps, rfl⟩ := exec_keeps_ie_or_writes h
    · exact hkeep
    · exact absurd rfl hoff
    · exact absurd rfl hon
    · exact absurd rfl (hall ps)

end Sys2Proof.Machine
end

section
/-! PROOF. The observer's runs (44_machine_step.md R148): `runs` and the spelling of a run list are inverse
to each other on the maximal run lists. -/

namespace Sys2Proof.Machine

/-- The bit sequence that a list of runs spells. -/
def runBits (rs : List (Bool × Nat)) : List Bool :=
  rs.flatMap (fun r => List.replicate r.2 r.1)

/-- No run is empty and neighbours have different values. -/
def MaximalRuns (rs : List (Bool × Nat)) : Prop :=
  (∀ r ∈ rs, 0 < r.2) ∧ rs.IsChain (fun a b => a.1 ≠ b.1)

@[simp] theorem runBits_nil : runBits [] = [] := rfl

@[simp] theorem runBits_cons (b : Bool) (n : Nat) (rs : List (Bool × Nat)) :
    runBits ((b, n) :: rs) = List.replicate n b ++ runBits rs := List.flatMap_cons

theorem maximalRuns_nil : MaximalRuns [] := ⟨List.forall_mem_nil _, .nil⟩

theorem maximalRuns_cons {b : Bool} {n : Nat} {rs : List (Bool × Nat)} :
    MaximalRuns ((b, n) :: rs) ↔ 0 < n ∧ (∀ r ∈ rs.head?, b ≠ r.1) ∧ MaximalRuns rs := by
  rw [MaximalRuns, MaximalRuns, List.forall_mem_cons, List.isChain_cons]
  tauto

/-! ### What one more bit in front does to the runs -/

/-- A list of runs begins with a run of `b`, or a run of `b` may stand before it. -/
theorem head_run_cases (b : Bool) (rs : List (Bool × Nat)) :
    (∃ n rest, rs = (b, n) :: rest) ∨ ∀ r ∈ rs.head?, b ≠ r.1 := by
  cases rs with
  | nil => exact .inr (by simp)
  | cons r rest =>
    obtain ⟨c, n⟩ := r
    by_cases hbc : b = c
    · exact .inl ⟨n, rest, by rw [hbc]⟩
    · exact .inr (by simpa using hbc)

theorem runs_cons_extends {b : Bool} {bs : List Bool} {n : Nat} {rest : List (Bool × Nat)}
    (h : runs bs = (b, n) :: rest) : runs (b :: bs) = (b, n + 1) :: rest := by
  simp [runs, h]

theorem runs_cons_starts {b : Bool} {bs : List Bool} (h : ∀ r ∈ (runs bs).head?, b ≠ r.1) :
    runs (b :: bs) = (b, 1) :: runs bs := by
  rw [runs]
  cases hr : runs bs with
  | nil => rfl
  | cons r rest =>
    have hne : b ≠ r.1 := h r (by rw [hr]; rfl)
    exact if_neg hne

/-! ### The runs of a sequence spell it and are maximal -/

theorem runBits_runs (w : List Bool) : runBits (runs w) = w := by
  induction w with
  | nil => rfl
  | cons b bs ih =>
    obtain ⟨n, rest, h⟩ | h := head_run_cases b (runs bs)
    · rw [runs_cons_extends h, runBits_cons, List.replicate_succ, List.cons_append, ← runBits_cons, ← h, ih]
    · rw [runs_cons_starts h, runBits_cons, ih, List.replicate_one, List.singleton_append]

theorem maximalRuns_runs (w : List Bool) : MaximalRuns (runs w) := by
  induction w with
  | nil => exact maximalRuns_nil
  | cons b bs ih =>
    obtain ⟨n, rest, h⟩ | h := head_run_cases b (runs bs)
    · rw [h] at ih
      obtain ⟨-, hhead, hrest⟩ := maximalRuns_cons.mp ih
      rw [runs_cons_extends h]
      exact maximalRuns_cons.mpr ⟨n.succ_pos, hhead, hrest⟩
    · rw [runs_cons_starts h]
      exact maximalRuns_cons.mpr ⟨Nat.one_pos, h, ih⟩

/-! ### A maximal run list is the runs of what it spells -/

/-- A block of `n + 1` bits in front of a sequence that does not begin with that bit is one run. -/
theorem runs_replicate_append {b : Bool} {w : List Bool} (h : ∀ r ∈ (runs w).head?, b ≠ r.1) (n : Nat) :
    runs (List.replicate (n + 1) b ++ w) = (b, n + 1) :: runs w := by
  induction n with
  | zero => exact runs_cons_starts h
  | succ n ih => exact runs_cons_extends ih

theorem runs_runBits {rs : List (Bool × Nat)} (h : MaximalRuns rs) : runs (runBits rs) = rs := by
  induction rs with
  | nil => rfl
  | cons r rs ih =>
    obtain ⟨b, n⟩ := r
    obtain ⟨hpos, hhead, hrs⟩ := maximalRuns_cons.mp h
    obtain ⟨n, rfl⟩ := Nat.exists_eq_add_one.mpr hpos
    rw [← ih hrs] at hhead
    rw [runBits_cons, runs_replicate_append hhead, ih hrs]

/-- Settles O60: a maximal run list is the runs of what it spells (`runs_runBits`), and the runs of a
sequence spell it and are maximal (`runBits_runs`, `maximalRuns_runs`). -/
theorem observerRuns : Obligations.ObserverRuns := by
  refine fun w rs => ⟨fun ⟨hspells, hpos, hchain⟩ => ?unique, fun h => ?runsOfW⟩
  case unique =>
    rw [← hspells]
    exact (runs_runBits ⟨hpos, hchain⟩).symm
  case runsOfW =>
    rw [h]
    exact ⟨runBits_runs w, maximalRuns_runs w⟩

end Sys2Proof.Machine
end

section
/-! PROOF. The state after reset (70_reset_and_hazards.md R172) and the two timing predicates of the
observer (R192, R193), which the model states multiplied out by `F_SYS` and the spec in nanoseconds. -/

namespace Sys2Proof.Machine

/-- Settles O42: the reset state is a literal, and each clause reads one field of it. The clause about the
shifter compares SH_RX with itself, so it holds for any value of `Config.rxAtReset`. -/
theorem resetState : Obligations.ResetState :=
  ⟨rfl, rfl, rfl, rfl, rfl, rfl, rfl, rfl, rfl⟩

/-! ### Ticks in nanoseconds -/

theorem ticksInNanos_le_iff {fSys : Nat} (h : 0 < fSys) (ticks bound : Nat) :
    (ticks : ℚ) * 1000000000 / fSys ≤ bound ↔ ticks * 1000000000 ≤ bound * fSys := by
  rw [div_le_iff₀ (Nat.cast_pos.mpr h)]
  norm_cast

theorem le_ticksInNanos_iff {fSys : Nat} (h : 0 < fSys) (ticks bound : Nat) :
    (bound : ℚ) ≤ (ticks : ℚ) * 1000000000 / fSys ↔ bound * fSys ≤ ticks * 1000000000 := by
  rw [le_div_iff₀ (Nat.cast_pos.mpr h)]
  norm_cast

/-! ### The bit-period predicate (R192) -/

/-- The predicate's two bounds are the ends of the tolerance, 1250 - 150 and 1250 + 150 ns. -/
theorem bitPeriodOk_iff (c : Cfg) :
    bitPeriodOk c = true ↔ 1100 * c.fSys ≤ c.nBit * 1000000000 ∧ c.nBit * 1000000000 ≤ 1400 * c.fSys := by
  simp [bitPeriodOk]

theorem bitPeriodOk_iff_abs_le {c : Cfg} (h : 0 < c.fSys) :
    bitPeriodOk c = true ↔ |(c.nBit : ℚ) * 1000000000 / c.fSys - 1250| ≤ 150 := by
  have hlow := le_ticksInNanos_iff h c.nBit 1100
  have hhigh := ticksInNanos_le_iff h c.nBit 1400
  push_cast at hlow hhigh
  rw [bitPeriodOk_iff, ← hlow, ← hhigh, abs_le, le_sub_iff_add_le, sub_le_iff_le_add]
  norm_num

/-- `16 * 10^9 / 1400` rounded up and `16 * 10^9 / 1100` rounded down. -/
theorem bitPeriodOk_iff_of_nBit_16 {c : Cfg} (h : c.nBit = 16) :
    bitPeriodOk c = true ↔ 11428572 ≤ c.fSys ∧ c.fSys ≤ 14545454 := by
  rw [bitPeriodOk_iff, h]
  omega

/-- Settles O58: the predicate is the tolerance of R192 (`bitPeriodOk_iff_abs_le`), its range at 16 ticks a
bit is `bitPeriodOk_iff_of_nBit_16`, and the reference `Cfg` fails it and passes the check of a run. -/
theorem bitPeriodPredicate : Obligations.BitPeriodPredicate :=
  ⟨fun _ => bitPeriodOk_iff_abs_le, by decide, by decide, fun _ => bitPeriodOk_iff_of_nBit_16, by decide⟩

/-! ### The pulse-width predicate (R193) -/

theorem pulseWidthOk_iff_lt {t0Min t01Split : Nat} {c : Cfg} (h : 0 < c.fSys) :
    pulseWidthOk t0Min t01Split c = true ↔
      (t0Min : ℚ) < (c.tCmp : ℚ) * 1000000000 / c.fSys ∧
      (c.tCmp : ℚ) * 1000000000 / c.fSys < t01Split := by
  rw [lt_iff_lt_of_le_iff_le (ticksInNanos_le_iff h c.tCmp t0Min),
    lt_iff_lt_of_le_iff_le (le_ticksInNanos_iff h c.tCmp t01Split)]
  simp [pulseWidthOk]

/-- The check every step makes holds the short pulse below half a bit period (00_scope.md R6 (c)). -/
theorem step_next_tCmp_lt {s u : State} (h : step s = .next u) : s.cfg.tCmp < s.cfg.nBit / 2 := by
  obtain ⟨hcfg, -⟩ := step_cases h
  obtain ⟨-, -, ⟨-, hcmp⟩, -⟩ := (cfgOk_iff s.cfg).mp hcfg
  exact hcmp

/-- Settles O59: the two thresholds are `pulseWidthOk_iff_lt`, and the enforced half is what the check of
the `Cfg` leaves to every step that answers (`step_next_tCmp_lt`). -/
theorem pulseWidthPredicate : Obligations.PulseWidthPredicate :=
  ⟨fun _ _ _ => pulseWidthOk_iff_lt, fun _ _ => step_next_tCmp_lt⟩

end Sys2Proof.Machine
end


section
/-! PROOF. The encoding (30_encoding.md): the decoder and the encoder are inverse to each other, and the words
that no row of the opcode table takes are the ones the decoder refuses. -/

namespace Sys2Proof

/-! ### The decoder on each format -/

theorem decodeZ_eq_ok {i j : Instr} {w : Word} {ws rest : List Word} :
    decodeZ i w ws = .ok j rest ↔ fieldOperand w = 0#24 ∧ i = j ∧ ws = rest := by
  unfold decodeZ
  split
  next h => simp [h]
  next h => simp [h]

theorem decodeB_eq_ok {i : Byte → Instr} {j : Instr} {w : Word} {ws rest : List Word} :
    decodeB i w ws = .ok j rest ↔ fieldZeroB w = 0#16 ∧ i (fieldByte w) = j ∧ ws = rest := by
  unfold decodeB
  split
  next h => simp [h]
  next h => simp [h]

/-- Payload words with bits 31:24 zero are read one after the other (R65). -/
theorem decodePayload_append {payload : List Word} (h : ∀ v ∈ payload, fieldOpcode v = 0#8) (header : Word)
    (n : Nat) (rest : List Word) (acc : List Pixel) :
    decodePayload header (payload.length + n) (payload ++ rest) acc =
      decodePayload header n rest ((payload.map fieldPixel).reverse ++ acc) := by
  induction payload generalizing acc with
  | nil => simp
  | cons v payload ih =>
    obtain ⟨hv, hrest⟩ := List.forall_mem_cons.mp h
    rw [List.length_cons, Nat.succ_add, List.cons_append, decodePayload, if_pos hv, ih hrest]
    simp

/-- A whole payload is read as its pixels. -/
theorem decodePayload_whole {payload : List Word} (h : ∀ v ∈ payload, fieldOpcode v = 0#8) (header : Word)
    (rest : List Word) :
    decodePayload header payload.length (payload ++ rest) [] = .ok (.writeAll (payload.map fieldPixel)) rest := by
  simpa [decodePayload] using decodePayload_append h header 0 rest []

/-- What a payload reader takes is the payload words of the pixels it answers. -/
theorem decodePayload_eq_ok_pixels {header : Word} {n : Nat} {ws : List Word} {acc : List Pixel} {i : Instr}
    {rest : List Word} (h : decodePayload header n ws acc = .ok i rest) :
    ∃ ps : List Pixel, ps.length = n ∧ i = .writeAll (acc.reverse ++ ps) ∧ ws = ps.map payloadWord ++ rest := by
  induction n generalizing ws acc with
  | zero =>
    obtain ⟨rfl, rfl⟩ := Decoded.ok.inj h
    exact ⟨[], by simp⟩
  | succ n ih =>
    cases ws with
    | nil => cases h
    | cons v ws =>
      rw [decodePayload] at h
      split at h
      next hv =>
        obtain ⟨ps, hlen, rfl, rfl⟩ := ih h
        exact ⟨fieldPixel v :: ps, by simp [hlen], by simp, by simp [payloadWord_fieldPixel hv]⟩
      next => cases h

/-! ### Decode after encode -/

@[simp] theorem decodeZ_headerWord (i : Instr) (o : Opcode) (ws : List Word) :
    decodeZ i (headerWord o 0#24) ws = .ok i ws := by
  simp [decodeZ]

@[simp] theorem decodeB_headerWord (i : Byte → Instr) (o : Opcode) (b : Byte) (ws : List Word) :
    decodeB i (headerWord o (0#16 ++ b)) ws = .ok (i b) ws := by
  simp [decodeB]

/-- A header that carries a packed pixel gives its three bytes back (R64). -/
theorem decodeAs_write (red green blue : Byte) (ws : List Word) :
    decodeAs .write (headerWord .write (packPixel red green blue)) ws = .ok (.write red green blue) ws := by
  have hp := Pixel.mk.inj (fieldPixel_headerWord .write ⟨red, green, blue⟩)
  obtain ⟨hr, hg, hb⟩ := hp
  rw [decodeAs, hr, hg, hb]

theorem decodeAs_writeAll {pixels : List Pixel} (h : pixels.length ≤ maxPixels) (ws : List Word) :
    decodeAs .writeAll (headerWord .writeAll (BitVec.ofNat 24 pixels.length)) (pixels.map payloadWord ++ ws) =
      .ok (.writeAll pixels) ws := by
  have hpayload : ∀ v ∈ pixels.map payloadWord, fieldOpcode v = 0#8 := by simp
  have hwhole := decodePayload_whole hpayload (headerWord .writeAll (BitVec.ofNat 24 pixels.length)) ws
  rw [decodeAs, fieldCount_headerWord h]
  simpa [Function.comp_def] using hwhole

/-- Settles O2: each format's reader undoes its writer, the payload of WRITE_ALL word by word. -/
theorem decodeOfEncode : Obligations.DecodeOfEncode := by
  intro i ws hwf
  cases i with
  | writeAll pixels =>
    have hlen : pixels.length ≤ maxPixels := of_decide_eq_true hwf
    rw [encode, List.cons_append, decode_headerWord, decodeAs_writeAll hlen]
  | write red green blue =>
    rw [encode, List.cons_append, decode_headerWord, List.nil_append, decodeAs_write]
  | shXfer b | send b =>
    rw [encode, List.cons_append, decode_headerWord, List.nil_append, decodeAs, decodeB_headerWord]
  | shCfg | tmCfg | tmArm | tmStop | lcCfg | irqOff | irqOn | latch | begin =>
    rw [encode, List.cons_append, decode_headerWord, List.nil_append, decodeAs, decodeZ_headerWord]

/-! ### Encode after decode -/

/-- What a row's reader answers is well-formed, and its words are the header of that row and the payload. -/
theorem encode_of_decodeAs {o : Opcode} {w : Word} {ws : List Word} {i : Instr} {rest : List Word}
    (h : decodeAs o w ws = .ok i rest) :
    i.wellFormed = true ∧ headerWord o (fieldOperand w) :: ws = encode i ++ rest := by
  cases o with
  | shCfg | tmCfg | tmArm | tmStop | lcCfg | irqOff | irqOn | latch | begin =>
    obtain ⟨h0, rfl, rfl⟩ := decodeZ_eq_ok.mp h
    rw [h0]
    exact ⟨rfl, rfl⟩
  | shXfer | send =>
    obtain ⟨h0, rfl, rfl⟩ := decodeB_eq_ok.mp h
    rw [← zero_append_fieldByte h0]
    exact ⟨rfl, rfl⟩
  | write =>
    obtain ⟨rfl, rfl⟩ := Decoded.ok.inj h
    rw [← packPixel_fields]
    exact ⟨rfl, rfl⟩
  | writeAll =>
    obtain ⟨ps, hlen, rfl, rfl⟩ := decodePayload_eq_ok_pixels h
    have hcount : BitVec.ofNat 24 ps.length = fieldOperand w := by
      rw [hlen, fieldCount, BitVec.ofNat_toNat, BitVec.setWidth_eq]
    rw [← hcount]
    exact ⟨decide_eq_true (hlen ▸ fieldCount_le w), rfl⟩

/-- Settles O3: the header names its row, and each row's reader takes the words its writer makes. -/
theorem encodeOfDecode : Obligations.EncodeOfDecode := by
  intro ws i rest h
  cases ws with
  | nil => cases h
  | cons w ws =>
    rw [decode] at h
    split at h
    next o ho =>
      have hwords := encode_of_decodeAs h
      rwa [headerWord_fieldOperand ho] at hwords
    next => cases h

/-- Settles O1: the fourteen worked encodings and the four reserved words are computed. -/
theorem workedEncodings : Obligations.WorkedEncodings := by
  refine ⟨?_, ?_⟩
  · simp only [List.forall_mem_cons]
    decide
  · simp only [List.forall_mem_cons]
    exact ⟨rfl, rfl, rfl, rfl, List.forall_mem_nil _⟩

/-! ### The rows of the opcode table as masks (R68) -/

/-- Masking two fields is masking each. -/
theorem and_append_eq_append_iff {n k : Nat} (v : BitVec (n + k)) (a b : BitVec n) (x m : BitVec k) :
    v &&& (b ++ m) = a ++ x ↔ v.extractLsb' k n &&& b = a ∧ v.extractLsb' 0 k &&& m = x := by
  refine ⟨fun h => ⟨?high, ?low⟩, ?fields⟩
  case high =>
    ext i hi
    simpa [BitVec.getLsbD_append, hi] using congrArg (·.getLsbD (k + i)) h
  case low =>
    ext i hi
    simpa [BitVec.getLsbD_append, hi] using congrArg (·.getLsbD i) h
  case fields =>
    rintro ⟨rfl, rfl⟩
    rw [← BitVec.and_append, BitVec.extractLsb'_append_extractLsb']

theorem word_and_eq_iff (w : Word) (a b : BitVec 8) (x m : BitVec 24) :
    w &&& (b ++ m) = a ++ x ↔ fieldOpcode w &&& b = a ∧ fieldOperand w &&& m = x :=
  and_append_eq_append_iff w a b x m

/-- The operand bits a format's mask holds to 0 (R62 to R65). -/
def formatMask : Format → BitVec 24
  | .Z => 0xFFFFFF#24
  | .B => 0xFFFF00#24
  | .P => 0#24
  | .N => 0#24

/-- The word matches the row `o`: its opcode, and 0 in the bits the format holds to 0. -/
def TakenBy (o : Opcode) (w : Word) : Prop :=
  fieldOpcode w = opcodeValue o ∧ fieldOperand w &&& formatMask (opcodeFormat o) = 0#24

/-- The (match, mask) pairs are made of the opcode and the format columns, row by row. -/
theorem matchMask_eq_rows : Machine.matchMask =
    allOpcodes.map (fun o => (opcodeValue o ++ 0#24, 0xFF#8 ++ formatMask (opcodeFormat o))) := by
  decide

theorem mem_allOpcodes (o : Opcode) : o ∈ allOpcodes := by
  cases o <;> decide

theorem masked_eq_row_iff (o : Opcode) (w : Word) :
    w &&& (0xFF#8 ++ formatMask (opcodeFormat o)) = opcodeValue o ++ 0#24 ↔ TakenBy o w := by
  have hff : fieldOpcode w &&& 0xFF#8 = fieldOpcode w := BitVec.and_allOnes
  rw [word_and_eq_iff, hff, TakenBy]

/-- A word matches some row of the table exactly when some opcode takes it. -/
theorem matches_no_row_iff (w : Word) :
    (∀ row ∈ Machine.matchMask, w &&& row.2 ≠ row.1) ↔ ∀ o, ¬ TakenBy o w := by
  rw [matchMask_eq_rows]
  simp only [List.forall_mem_map, ne_eq, masked_eq_row_iff]
  exact ⟨fun h o => h o (mem_allOpcodes o), fun h o _ => h o⟩

theorem row_of_mem_matchMask {row : Word × Word} (h : row ∈ Machine.matchMask) :
    ∃ o, row = (opcodeValue o ++ 0#24, 0xFF#8 ++ formatMask (opcodeFormat o)) := by
  rw [matchMask_eq_rows, List.mem_map] at h
  obtain ⟨o, -, rfl⟩ := h
  exact ⟨o, rfl⟩

theorem fieldOperand_and_maskZ (w : Word) : fieldOperand w &&& formatMask .Z = fieldOperand w :=
  BitVec.and_allOnes

/-- Format B's mask leaves the byte free (R63). -/
theorem fieldOperand_and_maskB (w : Word) :
    fieldOperand w &&& formatMask .B = 0#24 ↔ fieldZeroB w = 0#16 := by
  have hmask := and_append_eq_append_iff (n := 16) (k := 8) (fieldOperand w) 0#16 0xFFFF#16 0#8 0#8
  have hall : (fieldOperand w).extractLsb' 8 16 &&& 0xFFFF#16 = fieldZeroB w := by
    rw [← fieldZeroB_eq]
    exact BitVec.and_allOnes
  rw [hall, BitVec.and_zero, eq_self_iff_true, and_true] at hmask
  exact hmask

/-- A row takes exactly the words its reader does not call reserved, WRITE_ALL's header apart. -/
theorem decodeAs_of_takenBy {o : Opcode} {w : Word} (ho : o ≠ .writeAll) (h : TakenBy o w) (ws : List Word) :
    ∃ i, decodeAs o w ws = .ok i ws := by
  obtain ⟨-, hmask⟩ := h
  cases o with
  | writeAll => exact absurd rfl ho
  | write => exact ⟨_, rfl⟩
  | shXfer | send => exact ⟨_, decodeB_eq_ok.mpr ⟨(fieldOperand_and_maskB w).mp hmask, rfl, rfl⟩⟩
  | shCfg | tmCfg | tmArm | tmStop | lcCfg | irqOff | irqOn | latch | begin =>
    exact ⟨_, decodeZ_eq_ok.mpr ⟨(fieldOperand_and_maskZ w).symm.trans hmask, rfl, rfl⟩⟩

theorem decodeAs_of_not_takenBy {o : Opcode} {w : Word} (hop : fieldOpcode w = opcodeValue o)
    (h : ¬ TakenBy o w) (ws : List Word) : decodeAs o w ws = .reserved w := by
  have hmask : ¬ fieldOperand w &&& formatMask (opcodeFormat o) = 0#24 := fun hm => h ⟨hop, hm⟩
  cases o with
  | write | writeAll => exact absurd BitVec.and_zero hmask
  | shXfer | send => exact if_neg (fun hz => hmask ((fieldOperand_and_maskB w).mpr hz))
  | shCfg | tmCfg | tmArm | tmStop | lcCfg | irqOff | irqOn | latch | begin =>
    exact if_neg (fun hz => hmask ((fieldOperand_and_maskZ w).trans hz))

theorem decode_of_opcode {o : Opcode} {w : Word} (h : fieldOpcode w = opcodeValue o) (ws : List Word) :
    decode (w :: ws) = decodeAs o w ws := by
  rw [decode, h, opcodeOf_opcodeValue]

/-- A header that no row takes is reserved (R68). -/
theorem decode_of_not_takenBy {w : Word} (h : ∀ o, ¬ TakenBy o w) (ws : List Word) :
    decode (w :: ws) = .reserved w := by
  cases ho : opcodeOf (fieldOpcode w) with
  | none => rw [decode, ho]
  | some o =>
    have hop := (opcodeValue_of_opcodeOf ho).symm
    rw [decode_of_opcode hop, decodeAs_of_not_takenBy hop (h o)]

/-! ### The payload of a WRITE_ALL (R68) -/

theorem opcode_masked_eq_iff (w : Word) (a : BitVec 8) :
    w &&& 0xFF000000#32 = a ++ 0#24 ↔ fieldOpcode w = a := by
  have hff : fieldOpcode w &&& 0xFF#8 = fieldOpcode w := BitVec.and_allOnes
  have hmask : (0xFF000000#32 : Word) = 0xFF#8 ++ 0#24 := rfl
  rw [hmask, word_and_eq_iff, hff]
  simp

theorem decode_writeAll_header {w : Word} (h : w &&& 0xFF000000#32 = 0x12000000#32) (ws : List Word) :
    decode (w :: ws) = decodePayload w (w &&& 0x00FFFFFF#32).toNat ws [] := by
  have hop : fieldOpcode w = opcodeValue .writeAll := (opcode_masked_eq_iff w 0x12#8).mp h
  rw [decode_of_opcode hop, decodeAs, fieldCount_eq_mask]

theorem fieldOpcode_of_masked {payload : List Word} (h : ∀ v ∈ payload, v &&& 0xFF000000#32 = 0#32) :
    ∀ v ∈ payload, fieldOpcode v = 0#8 :=
  fun v hv => (opcode_masked_eq_iff v 0#8).mp (h v hv)

/-- Settles O4: the rows of the table are the rows of the decoder (`matches_no_row_iff`), and a payload is read
up to its first word with bits 31:24 not 0 (`decodePayload_append`). -/
theorem reservedEncodingsRefused : Obligations.ReservedEncodingsRefused := by
  refine ⟨fun w rest hrow => ?header, fun w rest row hmem hrow hne => ?oneWord,
    fun w payload rest hw hlen hp => ?whole, fun w v payload rest hw hlen hp hv => ?reserved,
    fun w payload hw hlen hp => ?short⟩
  case header => exact decode_of_not_takenBy ((matches_no_row_iff w).mp hrow) rest
  case oneWord =>
    obtain ⟨o, rfl⟩ := row_of_mem_matchMask hmem
    have htaken := (masked_eq_row_iff o w).mp hrow
    have ho : o ≠ .writeAll := by
      rintro rfl
      exact hne rfl
    rw [decode_of_opcode htaken.1]
    exact decodeAs_of_takenBy ho htaken rest
  case whole =>
    rw [List.cons_append, decode_writeAll_header hw, ← hlen]
    exact ⟨_, decodePayload_whole (fieldOpcode_of_masked hp) w rest⟩
  case reserved =>
    obtain ⟨m, hm⟩ := Nat.exists_eq_add_of_lt hlen
    have hop : fieldOpcode v ≠ 0#8 := fun h => hv ((opcode_masked_eq_iff v 0#8).mpr h)
    rw [List.cons_append, decode_writeAll_header hw, hm, Nat.add_assoc,
      decodePayload_append (fieldOpcode_of_masked hp), decodePayload, if_neg hop]
  case short =>
    obtain ⟨m, hm⟩ := Nat.exists_eq_add_of_lt hlen
    have happ := decodePayload_append (fieldOpcode_of_masked hp) w (m + 1) [] []
    rw [List.append_nil] at happ
    rw [decode_writeAll_header hw, hm, Nat.add_assoc, happ, decodePayload]

end Sys2Proof
end


section
/-! PROOF. The commands as `Cmd` steps: what the composites answer (43_facade.md), which commands are refused
(60_exceptions.md R157), and when a step is a command (44_machine_step.md R134, R135). -/

namespace Sys2Proof.Machine

/-! ### The guards -/

@[simp] theorem unlessBusy_eq_refused {i : Instr} {s e : State} {r : Refusal} :
    unlessBusy i s e = .refused r ↔ s.sh.busy = true ∧ r = .configWhileBusy i := by
  cases h : s.sh.busy with
  | false => simp [unlessBusy, h]
  | true => simp [unlessBusy, h, eq_comm]

@[simp] theorem ifBegun_eq_refused {r q : Refusal} {s e : State} :
    ifBegun q s e = .refused r ↔ s.begun = false ∧ r = q := by
  cases h : s.begun with
  | false => simp [ifBegun, h, eq_comm]
  | true => simp [ifBegun, h]

theorem ifBegun_of_begun {r : Refusal} {s e : State} (h : s.begun = true) : ifBegun r s e = .next e :=
  ifBegun_eq_next.mpr ⟨h, rfl⟩

theorem ifBegun_of_not_begun {r : Refusal} {s e : State} (h : s.begun = false) :
    ifBegun r s e = .refused r :=
  ifBegun_eq_refused.mpr ⟨h, rfl⟩

/-! ### What the other commands answer -/

theorem exec_tmCfg (s : State) : exec .tmCfg s = unlessBusy .tmCfg s (configureTimer s) := rfl

theorem exec_lcCfg (s : State) : exec .lcCfg s = unlessBusy .lcCfg s (configureCombiner s) := rfl

theorem exec_begin_of_begun {s : State} (h : s.begun = true) : exec .begin s = .refused .beginTwice :=
  if_pos h

theorem exec_begin_of_not_begun {s : State} (h : s.begun = false) :
    exec .begin s = unlessBusy .shCfg s (configureShifter (s.prepend afterShCfg)) :=
  if_neg (Bool.eq_false_iff.mp h)

theorem exec_send (b : Byte) (s : State) :
    exec (.send b) s = ifBegun (.sendBeforeBegin (.send b)) s (armTimer (s.prepend (afterArm b))) := rfl

theorem exec_write (red green blue : Byte) (s : State) :
    exec (.write red green blue) s = ifBegun (.writeBeforeBegin (.write red green blue)) s
      (armTimer (s.prepend (afterArm green ++ [plainItem (.send red), plainItem (.send blue)]))) := rfl

theorem exec_writeAll (pixels : List Pixel) (s : State) :
    exec (.writeAll pixels) s = ifBegun (.writeBeforeBegin (.writeAll pixels)) s
      ((s.prepend (afterIrqOff pixels)).setIe false) := rfl

/-- Settles O15: TM_CFG's writes behind the check of SH_BUSY, which it leaves as it is. -/
theorem tmCfgConfiguresTimer : Obligations.TmCfgConfiguresTimer := by
  refine ⟨fun s hb => ?writes, fun s hb => ?refused, fun s u h => ?again, rfl, by decide⟩
  case writes => exact (exec_tmCfg s).trans (unlessBusy_of_idle hb)
  case refused => exact (exec_tmCfg s).trans (unlessBusy_of_busy hb)
  case again =>
    obtain ⟨hb, rfl⟩ := unlessBusy_eq_next.mp h
    exact ⟨(exec_tmCfg _).trans (unlessBusy_of_idle hb), wo_of_stopped rfl⟩

/-- No command clears LC_EN: LC_CFG alone writes the combiner, and it writes 1 (42_combiner.md R110). -/
theorem exec_keeps_lc_en {i : Instr} {s u : State} (h : exec i s = .next u) (he : s.lc.en = true) :
    u.lc.en = true := by
  obtain ⟨hlc, -⟩ | ⟨-, hlc⟩ := exec_lc_cases h
  · rw [hlc, he]
  · rw [hlc]; rfl

/-- Settles O21: LC_CFG's writes behind the check of SH_BUSY, and `exec_keeps_lc_en`. -/
theorem lcCfgEnablesCombiner : Obligations.LcCfgEnablesCombiner := by
  refine ⟨fun s hb => ?writes, fun s hb => ?refused, fun s u h => ?again, ?fromReset,
    fun i s u h he => exec_keeps_lc_en h he, by decide⟩
  case writes => exact (exec_lcCfg s).trans (unlessBusy_of_idle hb)
  case refused => exact (exec_lcCfg s).trans (unlessBusy_of_busy hb)
  case again =>
    obtain ⟨hb, rfl⟩ := unlessBusy_eq_next.mp h
    exact (exec_lcCfg _).trans (unlessBusy_of_idle hb)
  case fromReset =>
    have hready : CombinerReady (configureCombiner State.reset).lc := rfl
    refine ⟨_, (exec_lcCfg _).trans (unlessBusy_of_idle rfl), hready, ?_⟩
    rw [outPin_of_ready hready, sck_of_idle rfl, Bool.false_and]

/-- Settles O25: the three truth tables of the six wirings are computed. -/
theorem rederivedTruthTable : Obligations.RederivedTruthTable :=
  ⟨by decide, by decide, by decide⟩

/-! ### The composites -/

/-- Settles O26: BEGIN's own step by its check of BEGUN. -/
theorem beginExpands : Obligations.BeginExpands := by
  refine ⟨fun s hbegun hb => ?expands, fun s => exec_begin_of_begun⟩
  rw [exec_begin_of_not_begun hbegun, unlessBusy_of_idle hb]
  rfl

/-- Settles O28: SEND's own step by its check of BEGUN. -/
theorem sendExpands : Obligations.SendExpands :=
  ⟨fun _ _ h => ifBegun_of_begun h, fun _ _ h => ifBegun_of_not_begun h⟩

/-- Settles O30: WRITE's own step by its check of BEGUN; its three bytes are read off its primitives. -/
theorem writeExpands : Obligations.WriteExpands :=
  ⟨fun _ _ _ _ h => ifBegun_of_begun h, fun _ _ _ _ h => ifBegun_of_not_begun h, fun _ _ _ => rfl⟩

theorem afterIrqOff_eq (pixels : List Pixel) : afterIrqOff pixels =
    (pixels.map (fun p : Pixel => Instr.write p.red p.green p.blue) ++
      [Instr.irqOn, .latch]).map plainItem := by
  simp [afterIrqOff]

/-- The bytes of a SEND are its operand. -/
theorem filterMap_xferByte_sends (bs : List Byte) :
    (bs.flatMap fun b => [Instr.tmArm, .shXfer b, .tmStop]).filterMap xferByte = bs := by
  induction bs with
  | nil => rfl
  | cons b bs ih =>
    rw [List.flatMap_cons, List.filterMap_append, ih]
    rfl

/-- The bytes of a frame go out green, red, blue, pixel by pixel (43_facade.md R120, R125). -/
theorem wireBytes_writeAll (pixels : List Pixel) :
    wireBytes (.writeAll pixels) = pixels.flatMap wireOrder := by
  have hbytes := filterMap_xferByte_sends (pixels.flatMap wireOrder)
  rw [List.flatMap_assoc] at hbytes
  rw [wireBytes, primitives, List.cons_append, List.filterMap_cons_none rfl, List.filterMap_append, hbytes]
  exact List.append_nil _

/-- Settles O31: WRITE_ALL's own step by its check of BEGUN, and its bytes by `wireBytes_writeAll`. -/
theorem writeAllExpands : Obligations.WriteAllExpands := by
  refine ⟨fun pixels s h => ?expands, fun _ _ h => ifBegun_of_not_begun h, wireBytes_writeAll⟩
  have hqueue := List.append_assoc (pixels.map fun p => plainItem (.write p.red p.green p.blue))
    [plainItem .irqOn, plainItem .latch] s.queue
  rw [exec_writeAll, ifBegun_of_begun h, State.prepend, afterIrqOff, hqueue]
  rfl

/-- Settles O32: each composite answers what the first command of its expansion answers behind the others. -/
theorem compositesAreExpansions : Obligations.CompositesAreExpansions := by
  refine ⟨fun i first others s hbegun hi hexp => ?composite, fun s hbegun => exec_begin_of_not_begun hbegun,
    rfl, fun b => rfl, fun r g b => rfl, fun ps => rfl⟩
  obtain ⟨b, rfl⟩ | ⟨r, g, b, rfl⟩ | ⟨ps, rfl⟩ := hi
  · obtain ⟨rfl, rfl⟩ := List.cons.inj hexp
    rw [exec_send, ifBegun_of_begun hbegun]
    rfl
  · obtain ⟨rfl, rfl⟩ := List.cons.inj hexp
    have hbegun' : (s.prepend ([.send r, .send b].map plainItem)).begun = true := hbegun
    rw [exec_write, ifBegun_of_begun hbegun, exec_send, ifBegun_of_begun hbegun']
    rfl
  · obtain ⟨rfl, rfl⟩ := List.cons.inj hexp
    rw [exec_writeAll, ifBegun_of_begun hbegun, afterIrqOff_eq]
    rfl

/-! ### Refusals -/

/-- Settles O34: the configuration commands are behind the check of SH_BUSY, the composites behind the check
of BEGUN, BEGIN behind both, and the rest answer a next state. -/
theorem commandRefusals : Obligations.CommandRefusals := by
  refine fun i s => ⟨fun r => ?refusals, fun f => nomatch f⟩
  cases i with
  | shCfg | tmCfg | lcCfg => simp [exec_shCfg, exec_tmCfg, exec_lcCfg]
  | send | write | writeAll => simp [exec_send, exec_write, exec_writeAll]
  | shXfer | tmArm | tmStop | irqOff | irqOn | latch =>
    simp [exec_shXfer, exec_tmArm, exec_tmStop, exec_irqOff, exec_irqOn, exec_latch]
  | begin =>
    cases h : s.begun with
    | true => simp [exec_begin_of_begun h, @eq_comm _ _ r]
    | false => simp [exec_begin_of_not_begun h]

/-! ### When a step is a command -/

theorem waitPending_eq_false_iff (s : State) : waitPending s = false ↔
    s.wait = .none ∨ (s.wait = .xfer ∧ s.sh.iflag = true) ∨ s.wait = .latch 0 := by
  cases h : s.wait <;> simp [waitPending, h]

theorem restEmpty_eq_false_iff (s : State) : restEmpty s = false ↔ s.queue ≠ [] ∨ s.stream ≠ [] := by
  simp [restEmpty, ← not_and_or]

theorem hostActs_iff (s : State) :
    hostActs s = true ↔ restEmpty s = false ∧ waitPending s = false ∧ s.hostDelay = 0 := by
  simp [hostActs, cmdEnabled, and_assoc]

theorem fetch_of_queue {s : State} {item : QueueItem} {q : List QueueItem} (h : s.queue = item :: q) :
    fetch s = .cmd item.cmd item.endsBegin (s.setQueue q) := by
  simp [fetch, h]

theorem fetch_of_decode {s : State} {i : Instr} {rest : List Word} (hq : s.queue = [])
    (h : decode s.stream = .ok i rest) : fetch s = .cmd i false (s.setStream rest) := by
  simp [fetch, hq, h]

/-- Where the host acts and the decoder or the command refuses, so does the step (60_exceptions.md R157). -/
theorem step_of_fetch_refuse {s : State} {r : Refusal} (hc : cfgOk s.cfg = true) (ha : hostActs s = true)
    (hf : fetch (clearWait s) = .refuse r) : step s = .refused r := by
  simp [step, hc, ha, cmdStep, hf]

theorem step_of_exec_refused {s v : State} {i : Instr} {e : Bool} {r : Refusal} (hc : cfgOk s.cfg = true)
    (ha : hostActs s = true) (hf : fetch (clearWait s) = .cmd i e v) (hx : exec i v = .refused r) :
    step s = .refused r := by
  simp [step, hc, ha, cmdStep, hf, hx, completeCmd]

/-- Settles O5: with nothing queued the host fetches from the stream, and the decoder's answer refuses. -/
theorem reservedWordStopsTheStep : Obligations.ReservedWordStopsTheStep := by
  intro s w hc ha hq
  refine ⟨fun hd => ?_, fun hd => ?_⟩
  · exact step_of_fetch_refuse hc ha (by simp [fetch, hq, hd])
  · exact step_of_fetch_refuse hc ha (by simp [fetch, hq, hd])

/-- The draw of a delay writes the host's own fields only (44_machine_step.md R136). -/
theorem drawDelay_eq (v : State) : drawDelay v = { v with
    hostDelay := (drawDelay v).hostDelay, delays := v.delays.drop 1, applied := v.applied + 1 } := by
  unfold drawDelay
  split
  next d ds h => simp [h]
  next h => simp [h]

/-- Settles O39: the fetch of a decoded command, its meaning, and the draw of the delay. -/
theorem stepRunsDecodedCommand : Obligations.StepRunsDecodedCommand := by
  intro s v i rest hc ha hq hd
  have hf : fetch (clearWait s) = .cmd i false ((clearWait s).setStream rest) :=
    fetch_of_decode (s := clearWait s) hq hd
  exact ⟨fun hx => step_of_cmd hc ha hf hx, fun r hx => step_of_exec_refused hc ha hf hx, drawDelay_eq v,
    fun d ds h => (drawDelay_of_given h).1⟩

/-- Settles O40: the fetch of a queued command, its meaning, and the mark of a BEGIN's last command. -/
theorem stepRunsQueuedCommand : Obligations.StepRunsQueuedCommand := by
  intro s v i e q hc ha hq
  have hf : fetch (clearWait s) = .cmd i e ((clearWait s).setQueue q) :=
    fetch_of_queue (s := clearWait s) hq
  exact ⟨fun hx => step_of_cmd hc ha hf hx, fun r hx => step_of_exec_refused hc ha hf hx⟩

/-- A command takes no time, records nothing, counts as applied and leaves the host awake. -/
theorem step_of_command_frame {s u : State} (h : step s = .next u) (ha : hostActs s = true) :
    u.trace = s.trace ∧ u.t = s.t ∧ u.applied = s.applied + 1 ∧ u.hostIdle = false ∧ u.cfg = s.cfg := by
  obtain ⟨-, ⟨hn, -⟩ | ⟨-, i, e, v, w, hf, hx, rfl⟩⟩ := step_cases h
  · rw [ha] at hn
    cases hn
  · obtain ⟨hcfg, ht, htrace, -, -, -, happ, hidle, -⟩ := exec_frame hx
    simp only [drawDelay_trace, markBegun_trace, htrace, drawDelay_t, markBegun_t, ht, drawDelay_applied,
      markBegun_applied, happ, drawDelay_hostIdle, markBegun_hostIdle, hidle, drawDelay_cfg, markBegun_cfg,
      hcfg]
    obtain ⟨q, -, rfl⟩ | ⟨rest, -, -, -, rfl⟩ := fetch_cases hf
    · exact ⟨rfl, rfl, rfl, rfl, rfl⟩
    · exact ⟨rfl, rfl, rfl, rfl, rfl⟩

theorem step_eq_tick {s u : State} (h : step s = .next u) (ha : hostActs s = false) : u = tick s := by
  obtain ⟨-, ⟨-, hu⟩ | ⟨hn, -⟩⟩ := step_cases h
  · exact hu
  · rw [ha] at hn
    cases hn

theorem step_keeps_cfg {s u : State} (h : step s = .next u) : u.cfg = s.cfg := by
  cases ha : hostActs s with
  | false => rw [step_eq_tick h ha, tick_cfg]
  | true => exact (step_of_command_frame h ha).2.2.2.2

/-- Settles O41: when the host acts (`hostActs_iff`), the tick field by field, and the command's frame. -/
theorem tickOrCommand : Obligations.TickOrCommand := by
  intro s u h
  refine ⟨?acts, fun ha => ?ticks, fun ha => ?command, step_keeps_cfg h⟩
  case acts =>
    rw [hostActs_iff, restEmpty_eq_false_iff, waitPending_eq_false_iff]
    tauto
  case ticks =>
    obtain rfl := step_eq_tick h ha
    refine ⟨rfl, ⟨_, rfl⟩, rfl, ?delay, rfl, rfl, rfl, rfl, rfl, rfl, rfl, rfl, rfl, fun hw => ?_, fun hw => ?_,
      fun k hw => ?_⟩
    case delay =>
      rw [tick_hostDelay]
      split <;> rfl
    all_goals simp [hw, waitTick, idleTick]
  case command =>
    obtain ⟨htrace, ht, happ, hidle, -⟩ := step_of_command_frame h ha
    exact ⟨htrace, ht, happ, hidle⟩

end Sys2Proof.Machine
end


section
/-! PROOF. Composites as macros (30_encoding.md R71, R72): what a command leaves in the queue is the rest of its
expansion, so expanding the queue beforehand gives the same run, and a frame has nine commands per pixel. -/

namespace Sys2Proof.Machine

/-! ### The expanded queue -/

theorem expandQueue_cons (item : QueueItem) (q : List QueueItem) :
    expandQueue (item :: q) = (primitives item.cmd).map plainItem ++ expandQueue q := List.flatMap_cons

theorem expandQueue_append (p q : List QueueItem) :
    expandQueue (p ++ q) = expandQueue p ++ expandQueue q := List.flatMap_append

/-- Expanding the queued rest of a command queues its primitives. -/
theorem expandQueue_map_plainItem (js : List Instr) :
    expandQueue (js.map plainItem) = (js.flatMap primitives).map plainItem := by
  simp [expandQueue, plainItem, List.flatMap_map, List.map_flatMap]

theorem primitives_ne_nil (i : Instr) : primitives i ≠ [] := by
  cases i <;> simp [primitives]

theorem isEmpty_expandQueue (q : List QueueItem) : (expandQueue q).isEmpty = q.isEmpty := by
  cases q with
  | nil => rfl
  | cons item q => simp [expandQueue_cons, primitives_ne_nil]

/-! ### What a command leaves in the queue -/

/-- `w` is what the first primitive of `i` leaves of `s`, with `js`, which come to the other primitives of `i`,
put in front of the queue; that primitive does the same whatever the queue holds. -/
structure LeavesRest (i first : Instr) (js : List Instr) (s w : State) : Prop where
  primitives_eq : primitives i = first :: js.flatMap primitives
  noBegin : ∀ j ∈ js, j ≠ .begin
  queue_eq : w.queue = js.map plainItem ++ s.queue
  exec_first : ∀ q, exec first (s.setQueue q) = .next (w.setQueue q)

/-- A command that answers a next state, BEGIN apart, has applied its first primitive and queued commands that
come to its other primitives (R71). -/
theorem exec_leavesRest {i : Instr} {s w : State} (hi : i ≠ .begin) (h : exec i s = .next w) :
    ∃ first js, LeavesRest i first js s w := by
  cases i with
  | begin => exact absurd rfl hi
  | shCfg | tmCfg | lcCfg =>
    obtain ⟨hb, rfl⟩ := unlessBusy_eq_next.mp h
    exact ⟨_, [], rfl, List.forall_mem_nil _, rfl, fun q => unlessBusy_of_idle hb⟩
  | shXfer | tmArm | tmStop | irqOff | irqOn | latch =>
    obtain rfl := Host.Outcome.next.inj h
    exact ⟨_, [], rfl, List.forall_mem_nil _, rfl, fun q => rfl⟩
  | send b =>
    obtain ⟨-, rfl⟩ := ifBegun_eq_next.mp h
    exact ⟨.tmArm, [.shXfer b, .tmStop], rfl, by simp, rfl, fun q => rfl⟩
  | write r g b =>
    obtain ⟨-, rfl⟩ := ifBegun_eq_next.mp h
    exact ⟨.tmArm, [.shXfer g, .tmStop, .send r, .send b], rfl, by simp, rfl, fun q => rfl⟩
  | writeAll pixels =>
    obtain ⟨-, rfl⟩ := ifBegun_eq_next.mp h
    refine ⟨.irqOff, pixels.map (fun p => .write p.red p.green p.blue) ++ [.irqOn, .latch], ?_, ?_, ?_,
      fun q => rfl⟩
    · simp [primitives, List.flatMap_map, wireOrder]
    · simp only [List.forall_mem_append, List.forall_mem_map]
      exact ⟨fun _ _ => Instr.noConfusion, by simp⟩
    · rw [← afterIrqOff_eq]
      rfl

/-! ### The same run with the queue expanded -/

/-- Ticks look at the queue only to see whether it is empty. -/
theorem tick_setQueue {s : State} {q : List QueueItem} (h : q.isEmpty = s.queue.isEmpty) :
    tick (s.setQueue q) = (tick s).setQueue q := by
  have hen : cmdEnabled (s.setQueue q) = cmdEnabled s := by
    simp only [cmdEnabled, restEmpty, State.setQueue_queue, h]
    rfl
  simp only [tick, hen]
  rfl

theorem hostActs_setQueue {s : State} {q : List QueueItem} (h : q.isEmpty = s.queue.isEmpty) :
    hostActs (s.setQueue q) = hostActs s := by
  simp only [hostActs, cmdEnabled, restEmpty, State.setQueue_queue, h]
  rfl

theorem drawDelay_setQueue (s : State) (q : List QueueItem) :
    drawDelay (s.setQueue q) = (drawDelay s).setQueue q := by
  cases h : s.delays with
  | nil => simp [drawDelay, State.setQueue, boundedDelay, h]
  | cons d ds => simp [drawDelay, State.setQueue, boundedDelay, h]

/-- A state whose host carries out commands of expansions only, no BEGIN among them. -/
def NoBeginQueued (s : State) : Prop := ∀ item ∈ s.queue, item.cmd ≠ .begin ∧ item.endsBegin = false

/-- A command taken from such a queue, and the command that the expanded queue has in its place (R72). -/
theorem cmd_of_expanded {s v w : State} {i : Instr} {e : Bool} (hstream : s.stream = [])
    (hqueue : NoBeginQueued s) (hf : fetch (clearWait s) = .cmd i e v) (hx : exec i v = .next w) :
    e = false ∧ v.stream = [] ∧ NoBeginQueued w ∧ ∃ first others,
      expandQueue s.queue = plainItem first :: others ∧
      exec first ((clearWait s).setQueue others) = .next (w.setQueue (expandQueue w.queue)) := by
  obtain ⟨q, hq, rfl⟩ | ⟨rest, -, -, hd, -⟩ := fetch_cases hf
  · rw [clearWait_queue] at hq
    rw [NoBeginQueued, hq, List.forall_mem_cons] at hqueue
    obtain ⟨⟨hi, he⟩, hrest⟩ := hqueue
    obtain ⟨first, js, hprim, hjs, hw, hfirst⟩ := exec_leavesRest hi hx
    rw [State.setQueue_queue] at hw
    refine ⟨he, hstream, ?_, first, expandQueue w.queue, ?_, hfirst _⟩
    · intro item hmem
      rw [hw, List.mem_append, List.mem_map] at hmem
      obtain ⟨j, hj, rfl⟩ | hmem := hmem
      · exact ⟨hjs j hj, rfl⟩
      · exact hrest item hmem
    · rw [hq, expandQueue_cons, hprim, hw, expandQueue_append, expandQueue_map_plainItem]
      rfl
  · rw [clearWait_stream, hstream] at hd
    cases hd

/-- Settles O33: a tick does not see the expansion (`tick_setQueue`), and a command is the first primitive of
its expansion (`cmd_of_expanded`). -/
theorem macroExpansionSameRun : Obligations.MacroExpansionSameRun := by
  intro s u hbegun hstream hqueue h
  have hacts := hostActs_setQueue (isEmpty_expandQueue s.queue)
  obtain ⟨hc, ⟨ha, rfl⟩ | ⟨ha, i, e, v, w, hf, hx, rfl⟩⟩ := step_cases h
  · refine ⟨?_, hbegun, hstream, hqueue⟩
    have htick := tick_setQueue (isEmpty_expandQueue s.queue)
    exact (step_of_tick (s := s.setQueue (expandQueue s.queue)) hc (hacts.trans ha)).trans
      (congrArg Host.Outcome.next htick)
  · obtain ⟨rfl, hv, hw, first, others, hexp, hfirst⟩ := cmd_of_expanded hstream hqueue hf hx
    obtain ⟨-, -, -, hws, -, -, -, -, hwb⟩ := exec_frame hx
    obtain ⟨-, -, -, -, -, -, -, -, hwb'⟩ := exec_frame hfirst
    refine ⟨?_, ?_, ?_, ?_⟩
    · have hfetch := fetch_of_queue (s := clearWait (s.setQueue (expandQueue s.queue))) hexp
      have hstep := step_of_cmd (s := s.setQueue (expandQueue s.queue)) hc (hacts.trans ha) hfetch hfirst
      rw [plainItem, markBegun, if_neg Bool.false_ne_true, drawDelay_setQueue] at hstep
      rw [markBegun, if_neg Bool.false_ne_true, drawDelay_queue]
      exact hstep
    · rw [drawDelay_begun, markBegun_begun, Bool.false_or]
      exact hwb'.trans hbegun
    · rw [drawDelay_stream, markBegun_stream, hws, hv]
    · rw [drawDelay_queue, markBegun_queue]
      exact hw

/-! ### The critical section of a frame (43_facade.md R126) -/

/-- A primitive of a SEND. -/
def SendPrimitive (i : Instr) : Prop := i = .tmArm ∨ i = .tmStop ∨ ∃ b, i = .shXfer b

/-- The host is inside the part of a frame that ends when `bound` commands have been applied: IE is 0, and what
stands first in the queue comes to the primitives of SENDs that are left until then. -/
def InFrame (bound : Nat) (s : State) : Prop :=
  s.ie = false ∧ ∃ (front : List Instr) (rest : List QueueItem), s.queue = front.map plainItem ++ rest ∧
    (∀ j ∈ front.flatMap primitives, SendPrimitive j) ∧
    s.applied + (front.flatMap primitives).length = bound

/-- A command made of SENDs leaves IE alone and is no BEGIN. -/
theorem exec_ie_of_sends {i : Instr} {s u : State} (hi : ∀ j ∈ primitives i, SendPrimitive j)
    (h : exec i s = .next u) : u.ie = s.ie := by
  obtain hkeep | rfl | rfl | ⟨ps, rfl⟩ := exec_keeps_ie_or_writes h
  · exact hkeep
  all_goals simp [primitives, SendPrimitive] at hi

theorem ne_begin_of_sends {i : Instr} (hi : ∀ j ∈ primitives i, SendPrimitive j) : i ≠ .begin := by
  rintro rfl
  simp [primitives, SendPrimitive] at hi

theorem applied_le_of_step {s u : State} (h : step s = .next u) : s.applied ≤ u.applied := by
  cases ha : hostActs s with
  | false => rw [step_eq_tick h ha, tick_applied]
  | true =>
    obtain ⟨-, -, happ, -, -⟩ := step_of_command_frame h ha
    omega

/-- A frame goes on, or its last SEND is over. -/
theorem step_inFrame {bound : Nat} {s u : State} (hs : InFrame bound s) (h : step s = .next u) :
    InFrame bound u ∨ bound < u.applied := by
  obtain ⟨hie, front, rest, hq, hsends, hcount⟩ := hs
  obtain ⟨-, ⟨-, rfl⟩ | ⟨ha, i, e, v, w, hf, hx, rfl⟩⟩ := step_cases h
  · exact .inl ⟨hie, front, rest, hq, hsends, hcount⟩
  cases front with
  | nil =>
    obtain ⟨-, -, happ, -, -⟩ := step_of_command_frame h ha
    have hcount : s.applied + 0 = bound := hcount
    exact .inr (by omega)
  | cons j front =>
    have hfetch := fetch_of_queue (s := clearWait s) hq
    obtain ⟨rfl, rfl, rfl⟩ := Fetched.cmd.inj (hf.symm.trans hfetch)
    rw [List.flatMap_cons, List.forall_mem_append] at hsends
    obtain ⟨hj, hfront⟩ := hsends
    have hwie := exec_ie_of_sends hj hx
    obtain ⟨first, js, hprim, -, hw, -⟩ := exec_leavesRest (ne_begin_of_sends hj) hx
    obtain ⟨-, -, -, -, -, -, happ, -⟩ := exec_frame hx
    refine .inl ⟨?_, js ++ front, rest, ?_, ?_, ?_⟩
    · rw [drawDelay_ie, markBegun_ie, hwie]
      exact hie
    · rw [drawDelay_queue, markBegun_queue, hw, List.map_append, List.append_assoc]
      rfl
    · rw [List.flatMap_append, List.forall_mem_append]
      exact ⟨fun k hk => hj k (by rw [hprim]; exact List.mem_cons_of_mem _ hk), hfront⟩
    · have happ : w.applied = s.applied := happ
      simp only [List.flatMap_cons, hprim, List.flatMap_append, List.length_append, List.length_cons] at hcount ⊢
      simp only [drawDelay_applied, markBegun_applied, happ]
      omega

theorem primitives_write_sends (r g b : Byte) : ∀ j ∈ primitives (.write r g b), SendPrimitive j := by
  simp [primitives, SendPrimitive]

/-- Nine primitives per pixel (R125). -/
theorem length_primitives_writes (pixels : List Pixel) :
    ((pixels.map fun p => Instr.write p.red p.green p.blue).flatMap primitives).length = 9 * pixels.length := by
  induction pixels with
  | nil => rfl
  | cons p pixels ih =>
    rw [List.map_cons, List.flatMap_cons, List.length_append, ih, List.length_cons]
    simp only [primitives, List.flatMap_cons, List.flatMap_nil, List.length_append, List.length_cons,
      List.length_nil]
    omega

/-- Settles O38: the state WRITE_ALL leaves is inside a frame of nine commands per pixel, and every step keeps
it there until the last of them. -/
theorem interruptsOffDuringFrame : Obligations.InterruptsOffDuringFrame := by
  intro pixels s u v n hx hrun hle
  obtain ⟨-, rfl⟩ := ifBegun_eq_next.mp hx
  have hstart : InFrame (s.applied + 9 * pixels.length) ((s.prepend (afterIrqOff pixels)).setIe false) := by
    refine ⟨rfl, pixels.map (fun p => .write p.red p.green p.blue),
      [plainItem .irqOn, plainItem .latch] ++ s.queue, ?_, ?_, ?_⟩
    · simp [afterIrqOff]
    · simp only [List.flatMap_map, List.forall_mem_flatMap]
      exact fun p _ => primitives_write_sends p.red p.green p.blue
    · rw [length_primitives_writes]
      rfl
  have hstep : ∀ x y, InFrame (s.applied + 9 * pixels.length) x ∨ s.applied + 9 * pixels.length < x.applied →
      step x = .next y →
      InFrame (s.applied + 9 * pixels.length) y ∨ s.applied + 9 * pixels.length < y.applied :=
    fun x y hx h => hx.elim (fun hx => step_inFrame hx h) (fun hx => .inr (hx.trans_le (applied_le_of_step h)))
  have hkeep := runSteps_keeps hstep (.inl hstart) hrun
  obtain ⟨hie, -⟩ | hlt := hkeep
  · exact hie
  · omega

end Sys2Proof.Machine
end


section
/-! PROOF. The invariant of the reachable states: it holds after reset, every tick and every command keeps it,
and under it a blocking host meets no collision and every wait on an enabled shifter ends. -/

namespace Sys2Proof.Machine

/-! ### The shifter's part -/

theorem toNat_ofNat_nBit {c : Cfg} (hc : CfgLegal c) : (BitVec.ofNat 8 c.nBit).toNat = c.nBit := by
  obtain ⟨⟨-, -, hle⟩, -⟩ := hc
  rw [BitVec.toNat_ofNat]
  omega

/-- A shifter that was never configured is idle. -/
theorem ShifterInv.en_of_busy {c : Cfg} {sh : Shifter} (h : ShifterInv c sh) (hb : sh.busy = true) :
    sh.en = true := by
  cases he : sh.en with
  | true => rfl
  | false =>
    rw [h.untouched he] at hb
    cases hb

theorem shiftLeft_eq_zero_succ {x : Byte} {b : BitVec 4} (hb : b.toNat < 7 + 1)
    (h : x <<< (8 - b.toNat) = 0#8) : x <<< 1 <<< (8 - (b.toNat + 1)) = 0#8 := by
  rw [← BitVec.shiftLeft_add, show 1 + (8 - (b.toNat + 1)) = 8 - b.toNat by omega, h]

/-- The shifter's tick keeps its invariant: a bit cell has `SH_DIV = N_BIT` ticks, and the eighth empties SH_SHIFT. -/
theorem shifterTick_keeps_inv {c : Cfg} (hc : CfgLegal c) {sh : Shifter} (h : ShifterInv c sh) (rx : Byte) :
    ShifterInv c (shifterTick rx sh) := by
  cases hb : sh.busy with
  | false => rwa [shifterTick_idle hb]
  | true =>
    have hen := h.en_of_busy hb
    have hconf := h.configured hen
    obtain ⟨hif, hphase, hcnt, hshift⟩ := h.inCell hb
    have hdiv : sh.div.toNat = c.nBit := by rw [hconf.2.2.2, toNat_ofNat_nBit hc]
    have hwcol := h.noCollision
    by_cases hp : sh.phase.toNat + 1 = sh.div.toNat
    · by_cases h8 : sh.bitcnt.toNat + 1 = 8
      · have hzero : sh.shift <<< 1 = 0#8 := by rwa [show 8 - sh.bitcnt.toNat = 1 by omega] at hshift
        rw [shifterTick_last hb hp h8]
        exact {
          configured := fun _ => hconf
          untouched := fun he => absurd hen (Bool.eq_false_iff.mp he)
          inCell := nofun
          idle := fun _ => ⟨rfl, hzero⟩
          complete := fun _ => by bv_omega
          noCollision := hwcol }
      · have hnext : (sh.bitcnt + 1).toNat = sh.bitcnt.toNat + 1 := by bv_omega
        rw [shifterTick_cellEnd hb hp h8]
        exact {
          configured := fun _ => hconf
          untouched := fun he => absurd hen (Bool.eq_false_iff.mp he)
          inCell := fun _ => ⟨hif, by simp; omega, by simp only [hnext]; omega, by
            simp only [hnext]
            exact shiftLeft_eq_zero_succ hcnt hshift⟩
          idle := fun hi => absurd hb (Bool.eq_false_iff.mp hi)
          complete := fun hi => absurd hi (Bool.eq_false_iff.mp hif)
          noCollision := hwcol }
    · rw [shifterTick_mid hb hp]
      exact {
        configured := fun _ => hconf
        untouched := fun he => absurd hen (Bool.eq_false_iff.mp he)
        inCell := fun _ => ⟨hif, by bv_omega, hcnt, hshift⟩
        idle := fun hi => absurd hb (Bool.eq_false_iff.mp hi)
        complete := fun hi => absurd hi (Bool.eq_false_iff.mp hif)
        noCollision := hwcol }

theorem configureShifter_keeps_inv {s : State} (h : ShifterInv s.cfg s.sh) :
    ShifterInv s.cfg (configureShifter s).sh where
  configured := fun _ => ⟨rfl, rfl, rfl, rfl⟩
  untouched := nofun
  inCell := h.inCell
  idle := h.idle
  complete := h.complete
  noCollision := h.noCollision

/-- SH_XFER on an idle shifter starts a transfer, or is ignored where the shifter was never configured. -/
theorem startTransfer_keeps_inv {s : State} (hc : CfgLegal s.cfg) (h : ShifterInv s.cfg s.sh)
    (hb : s.sh.busy = false) (byte : Byte) : ShifterInv s.cfg (startTransfer byte s).sh := by
  cases he : s.sh.en with
  | false =>
    have hsh : (startTransfer byte s).sh = s.sh := by
      rw [startTransfer_of_disabled he, ← h.noCollision]
    rwa [hsh]
  | true =>
    have hpos : 0 < s.cfg.nBit := by
      obtain ⟨⟨-, h4, -⟩, -⟩ := hc
      omega
    rw [startTransfer_of_idle he hb]
    exact {
      configured := fun _ => h.configured he
      untouched := fun hd => absurd he (Bool.eq_false_iff.mp hd)
      inCell := fun _ => ⟨rfl, hpos, Nat.succ_pos 7, BitVec.shiftLeft_eq_zero (Nat.le_refl 8)⟩
      idle := nofun
      complete := nofun
      noCollision := rfl }

theorem exec_keeps_shifterInv {i : Instr} {s u : State} (hc : CfgLegal s.cfg) (h : ShifterInv s.cfg s.sh)
    (hb : s.sh.busy = false) (hx : exec i s = .next u) : ShifterInv s.cfg u.sh := by
  obtain ⟨hsh, -⟩ | ⟨-, -, hsh⟩ | ⟨byte, -, hsh⟩ := exec_sh_cases hx
  · rwa [hsh]
  · rw [hsh]
    exact configureShifter_keeps_inv h
  · rw [hsh]
    exact startTransfer_keeps_inv hc h hb byte

/-! ### The timer's and the combiner's parts -/

theorem timerTick_keeps_inv {c : Cfg} {tm : Timer} (h : TimerInv c tm) : TimerInv c (timerTick tm) := by
  obtain ⟨hmode, htop, hcmp, -⟩ := timerTick_frame tm
  constructor
  · rw [hmode, htop, hcmp]
    exact h.configured
  · rw [hmode, htop, hcmp]
    exact h.untouched

theorem exec_keeps_timerInv {i : Instr} {s u : State} (h : TimerInv s.cfg s.tm) (hx : exec i s = .next u) :
    TimerInv s.cfg u.tm := by
  obtain ⟨htm, -⟩ | ⟨-, htm⟩ | ⟨htm, -⟩ | ⟨-, htm⟩ := exec_tm_cases hx
  · rwa [htm]
  · rw [htm]
    exact ⟨fun _ => ⟨rfl, rfl⟩, nofun⟩
  · rw [htm]
    exact ⟨h.configured, h.untouched⟩
  · rw [htm]
    exact ⟨h.configured, h.untouched⟩

theorem exec_keeps_combinerInv {i : Instr} {s u : State} (h : CombinerInv s.cfg s.lc)
    (hx : exec i s = .next u) : CombinerInv s.cfg u.lc := by
  obtain ⟨hlc, -⟩ | ⟨-, hlc⟩ := exec_lc_cases hx
  · rwa [hlc]
  · rw [hlc]
    exact ⟨fun _ => rfl, nofun⟩

theorem exec_keeps_mode {i : Instr} {s u : State} (hx : exec i s = .next u) (h : s.tm.mode = true) :
    u.tm.mode = true := by
  obtain ⟨htm, -⟩ | ⟨-, htm⟩ | ⟨htm, -⟩ | ⟨-, htm⟩ := exec_tm_cases hx
  · rwa [htm]
  · rw [htm]
    rfl
  · rw [htm]
    exact h
  · rw [htm]
    exact h

/-! ### The wait -/

/-- A command that finds no wait and an idle shifter leaves a busy one only behind SH_XFER's wait. -/
theorem exec_busy_waits {i : Instr} {s u : State} (hx : exec i s = .next u) (hb : s.sh.busy = false)
    (hbusy : u.sh.busy = true) : u.wait = .xfer := by
  obtain ⟨hsh, -⟩ | ⟨-, -, hsh⟩ | ⟨byte, rfl, -⟩ := exec_sh_cases hx
  · rw [hsh, hb] at hbusy
    cases hbusy
  · rw [hsh, configureShifter_busy, hb] at hbusy
    cases hbusy
  · obtain rfl := Host.Outcome.next.inj hx
    rfl

/-- SH_XFER on an enabled idle shifter waits for the transfer it has started. -/
theorem exec_wait_sees {i : Instr} {s u : State} (hx : exec i s = .next u) (hw : s.wait = .none)
    (hb : s.sh.busy = false) (huw : u.wait = .xfer) (he : u.sh.en = true) : u.sh.busy = true := by
  obtain ⟨hwait, -⟩ | ⟨byte, rfl, -⟩ | ⟨-, hwait⟩ := exec_wait_cases hx
  · rw [hwait, hw] at huw
    cases huw
  · obtain rfl := Host.Outcome.next.inj hx
    have hen : s.sh.en = true := (writeTransmit_frame byte (clearCollision s.sh)).1.symm.trans he
    rw [startTransfer_of_idle hen hb]
  · rw [hwait] at huw
    cases huw

/-- A transfer that is seen stays seen: it goes on or completes. -/
theorem shifterTick_busy_or_iflag {sh : Shifter} (h : sh.busy = true ∨ sh.iflag = true) (rx : Byte) :
    (shifterTick rx sh).busy = true ∨ (shifterTick rx sh).iflag = true := by
  cases hb : sh.busy with
  | false =>
    rw [shifterTick_idle hb]
    exact h
  | true =>
    by_cases hp : sh.phase.toNat + 1 = sh.div.toNat
    · by_cases h8 : sh.bitcnt.toNat + 1 = 8
      · rw [shifterTick_last hb hp h8]
        exact .inr rfl
      · rw [shifterTick_cellEnd hb hp h8]
        exact .inl hb
    · rw [shifterTick_mid hb hp]
      exact .inl hb

theorem waitTick_eq_xfer_iff (w : Wait) : waitTick w = .xfer ↔ w = .xfer := by
  cases w <;> simp [waitTick]

theorem waitTick_eq_none_iff (w : Wait) : waitTick w = .none ↔ w = .none := by
  cases w <;> simp [waitTick]

/-! ### Where BEGIN's expansion stands -/

/-- A command whose state has no BEGIN under way leaves none, or is a BEGIN that has applied its SH_CFG. -/
theorem exec_keeps_queueInv {i : Instr} {s u : State} (hq : ∀ item ∈ s.queue, QueueItem.endsBegin item = false)
    (hx : exec i s = .next u) : QueueInv u := by
  obtain ⟨items, hu, ⟨rfl, hbegun, rfl⟩ | ⟨-, hitems⟩⟩ := exec_queue_cases hx
  · rw [exec_begin_of_not_begun hbegun, unlessBusy_eq_next] at hx
    obtain ⟨-, rfl⟩ := hx
    exact .inr ⟨s.queue, hq, rfl, .inl hu⟩
  · rw [QueueInv, hu]
    exact .inl (List.forall_mem_append.mpr ⟨hitems, hq⟩)

/-- Taking a command and applying it keeps the place of BEGIN's expansion, and its last command finds the
shifter and the timer configured and configures the combiner. -/
theorem cmd_keeps_queueInv {s v w : State} {i : Instr} {e : Bool} (h : QueueInv s)
    (hf : fetch s = .cmd i e v) (hx : exec i v = .next w) :
    QueueInv w ∧ (e = true → w.sh.en = true ∧ w.tm.mode = true ∧ w.lc.en = true) := by
  obtain ⟨q, hq, rfl⟩ | ⟨rest, hq, rfl, -, rfl⟩ := fetch_cases hf
  · obtain hplain | ⟨p, hp, hen, hfront | ⟨hmode, hfront⟩⟩ := h
    · rw [hq, List.forall_mem_cons] at hplain
      obtain ⟨he, hrest⟩ := hplain
      exact ⟨exec_keeps_queueInv hrest hx, fun htrue => absurd htrue (Bool.eq_false_iff.mp he)⟩
    · rw [hq] at hfront
      obtain ⟨hitem, rfl⟩ := List.cons.inj hfront
      obtain ⟨rfl, rfl⟩ := QueueItem.mk.inj hitem
      obtain ⟨-, rfl⟩ := unlessBusy_eq_next.mp hx
      exact ⟨.inr ⟨p, hp, hen, .inr ⟨rfl, rfl⟩⟩, nofun⟩
    · rw [hq] at hfront
      obtain ⟨hitem, rfl⟩ := List.cons.inj hfront
      obtain ⟨rfl, rfl⟩ := QueueItem.mk.inj hitem
      obtain ⟨-, rfl⟩ := unlessBusy_eq_next.mp hx
      exact ⟨.inl hp, fun _ => ⟨hen, hmode, rfl⟩⟩
  · have hempty : ∀ item ∈ (s.setStream rest).queue, QueueItem.endsBegin item = false := by
      rw [State.setStream_queue, hq]
      exact List.forall_mem_nil _
    exact ⟨exec_keeps_queueInv hempty hx, nofun⟩

/-! ### The steps -/

/-- Settles O52: the reset state is a literal with a legal `Cfg`. -/
theorem invariantAtReset : Obligations.InvariantAtReset where
  cfg := (cfgOk_iff _).mp (by decide)
  shifter := ⟨nofun, fun _ => rfl, nofun, fun _ => ⟨rfl, rfl⟩, nofun, rfl⟩
  timer := ⟨nofun, fun _ => ⟨rfl, rfl⟩⟩
  combiner := ⟨nofun, fun _ => rfl⟩
  busyWaits := nofun
  waitSees := nofun
  latchOwes := nofun
  idleWaits := nofun
  delayBounded := nofun
  traced := rfl
  session := nofun
  queue := .inl (List.forall_mem_nil _)

theorem inv_tick {s : State} (h : Inv s) : Inv (tick s) where
  cfg := h.cfg
  shifter := shifterTick_keeps_inv h.cfg h.shifter _
  timer := timerTick_keeps_inv h.timer
  combiner := h.combiner
  busyWaits := fun hb => by
    cases hs : s.sh.busy with
    | false =>
      rw [tick_sh, shifterTick_idle hs, hs] at hb
      cases hb
    | true => rw [tick_wait, h.busyWaits hs, waitTick]
  waitSees := fun hw he =>
    shifterTick_busy_or_iflag (h.waitSees ((waitTick_eq_xfer_iff _).mp hw) ((tick_keeps_en s).symm.trans he)) _
  latchOwes := fun k hk => by
    cases hw : s.wait with
    | latch j =>
      rw [tick_wait, hw, waitTick] at hk
      have hj := h.latchOwes j hw
      have hjk := Wait.latch.inj hk
      rw [tick_cfg]
      omega
    | none | xfer =>
      rw [tick_wait, hw] at hk
      cases hk
  idleWaits := fun hi hw => by
    rw [tick_hostIdle, (waitTick_eq_none_iff _).mp hw] at hi
    cases hi
  delayBounded := fun hie => by
    have hle := h.delayBounded hie
    rw [tick_hostDelay, tick_cfg]
    split <;> omega
  traced := congrArg Nat.succ h.traced
  session := fun hb => by
    obtain ⟨hen, hmode, hlc⟩ := h.session hb
    exact ⟨(tick_keeps_en s).trans hen, (timerTick_frame s.tm).1.trans hmode, hlc⟩
  queue := by
    have hq := h.queue
    rw [QueueInv] at hq ⊢
    rw [tick_keeps_en, tick_queue, tick_tm, (timerTick_frame s.tm).1]
    exact hq

/-- The host acts on an idle shifter only: a transfer in progress is a wait that is pending (R76). -/
theorem idle_of_hostActs {s : State} (h : Inv s) (ha : hostActs s = true) : s.sh.busy = false := by
  cases hb : s.sh.busy with
  | false => rfl
  | true =>
    obtain ⟨-, hpend, -⟩ := (hostActs_iff s).mp ha
    obtain ⟨hif, -⟩ := h.shifter.inCell hb
    rw [waitPending_of_xfer (h.busyWaits hb), hif] at hpend
    cases hpend

theorem fetch_frame {s v : State} {i : Instr} {e : Bool} (h : fetch s = .cmd i e v) :
    ∃ q ws, v = (s.setQueue q).setStream ws := by
  obtain ⟨q, -, rfl⟩ | ⟨rest, -, -, -, rfl⟩ := fetch_cases h
  · exact ⟨q, s.stream, rfl⟩
  · exact ⟨s.queue, rest, rfl⟩

/-- What the invariant says of the state a command is applied to: no wait is left and the shifter is idle. -/
structure CmdReady (v : State) : Prop where
  cfg : CfgLegal v.cfg
  shifter : ShifterInv v.cfg v.sh
  timer : TimerInv v.cfg v.tm
  combiner : CombinerInv v.cfg v.lc
  idle : v.sh.busy = false
  noWait : v.wait = .none
  awake : v.hostIdle = false
  traced : v.trace.length = v.t
  session : v.begun = true → v.sh.en = true ∧ v.tm.mode = true ∧ v.lc.en = true

theorem cmdReady_of_fetch {s v : State} {i : Instr} {e : Bool} (h : Inv s) (hb : s.sh.busy = false)
    (hf : fetch (clearWait s) = .cmd i e v) : CmdReady v := by
  obtain ⟨q, ws, rfl⟩ := fetch_frame hf
  exact ⟨h.cfg, h.shifter, h.timer, h.combiner, hb, rfl, rfl, h.traced, h.session⟩

/-- A command keeps the invariant, given that it keeps the place of BEGIN's expansion. -/
theorem inv_of_exec {v w : State} {i : Instr} {e : Bool} (h : CmdReady v) (hx : exec i v = .next w)
    (hq : QueueInv w) (hends : e = true → w.sh.en = true ∧ w.tm.mode = true ∧ w.lc.en = true) :
    Inv (drawDelay (markBegun e w)) := by
  obtain ⟨hcfg, ht, htrace, -, -, -, -, hidle, hbegun⟩ := exec_frame hx
  have hsh := exec_keeps_shifterInv h.cfg h.shifter h.idle hx
  have htm := exec_keeps_timerInv h.timer hx
  have hlc := exec_keeps_combinerInv h.combiner hx
  have hwait := exec_wait_cases hx
  rw [← hcfg] at hsh htm hlc hwait
  constructor
  case cfg => simpa [hcfg] using h.cfg
  case shifter => simpa using hsh
  case timer => simpa using htm
  case combiner => simpa using hlc
  case busyWaits => simpa using exec_busy_waits hx h.idle
  case waitSees => simpa using fun hw he => .inl (exec_wait_sees hx h.noWait h.idle hw he)
  case latchOwes =>
    intro k hk
    rw [drawDelay_wait, markBegun_wait] at hk
    rw [drawDelay_cfg, markBegun_cfg]
    obtain ⟨hw, -⟩ | ⟨byte, -, hw⟩ | ⟨-, hw⟩ := hwait
    · rw [hw, h.noWait] at hk
      cases hk
    · rw [hw] at hk
      cases hk
    · rw [hw] at hk
      exact (Wait.latch.inj hk).ge
  case idleWaits =>
    rw [drawDelay_hostIdle, markBegun_hostIdle, hidle, h.awake]
    exact nofun
  case delayBounded =>
    intro hie
    rw [drawDelay_ie] at hie
    rw [drawDelay_cfg]
    exact drawDelay_hostDelay_le hie
  case traced => simp [htrace, ht, h.traced]
  case session =>
    intro hb
    rw [drawDelay_begun, markBegun_begun] at hb
    rw [drawDelay_sh, drawDelay_tm, drawDelay_lc, markBegun_sh, markBegun_tm, markBegun_lc]
    obtain he | hb := Bool.or_eq_true_iff.mp hb
    · exact hends he
    · obtain ⟨hen, hmode, hlcen⟩ := h.session (hbegun.symm.trans hb)
      exact ⟨exec_keeps_en hx hen, exec_keeps_mode hx hmode, exec_keeps_lc_en hx hlcen⟩
  case queue =>
    rw [QueueInv] at hq ⊢
    simpa only [drawDelay_queue, drawDelay_sh, drawDelay_tm, markBegun_queue, markBegun_sh, markBegun_tm] using hq

/-- Settles O53: a tick keeps the invariant part by part, and so does a command, which finds the shifter idle. -/
theorem invariantKept : Obligations.InvariantKept := by
  intro s u h hstep
  obtain ⟨-, ⟨-, rfl⟩ | ⟨ha, i, e, v, w, hf, hx, rfl⟩⟩ := step_cases hstep
  · exact inv_tick h
  · have hqueue : QueueInv (clearWait s) := h.queue
    obtain ⟨hq, hends⟩ := cmd_keeps_queueInv hqueue hf hx
    exact inv_of_exec (cmdReady_of_fetch h (idle_of_hostActs h ha) hf) hx hq hends

end Sys2Proof.Machine
end


section
/-! PROOF. What the invariant gives: a blocking host meets no collision, waits end, a run that is over stays
over, the idle line is low (40_shifter.md R82, 44_machine_step.md R138 to R140, 60_exceptions.md R158). -/

namespace Sys2Proof.Machine

/-! ### Waits that end -/

theorem shifterTick_keeps_iflag {sh : Shifter} (h : sh.iflag = true) (rx : Byte) :
    (shifterTick rx sh).iflag = true := by
  unfold shifterTick noteCellEnd
  split
  · split
    · split
      · rfl
      · exact h
    · exact h
  · exact h

/-- A wait that is satisfied stays so while ticks pass (44_machine_step.md R135). -/
theorem waitPending_tick_of_not {s : State} (h : waitPending s = false) : waitPending (tick s) = false := by
  rw [waitPending_eq_false_iff] at h ⊢
  rw [tick_wait, tick_sh]
  obtain hw | ⟨hw, hi⟩ | hw := h
  · rw [hw]
    exact .inl rfl
  · rw [hw]
    exact .inr (.inl ⟨rfl, shifterTick_keeps_iflag hi _⟩)
  · rw [hw]
    exact .inr (.inr rfl)

theorem waitPending_ticks_of_not {s : State} (h : waitPending s = false) (n : Nat) :
    waitPending (ticks n s) = false := by
  induction n with
  | zero => exact h
  | succ n ih =>
    rw [ticks_succ']
    exact waitPending_tick_of_not ih

@[simp] theorem restEmpty_ticks (n : Nat) (s : State) : restEmpty (ticks n s) = restEmpty s := by
  simp [restEmpty]

theorem cmdEnabled_iff (s : State) : cmdEnabled s = true ↔ restEmpty s = false ∧ waitPending s = false := by
  simp [cmdEnabled]

theorem cmdEnabled_ticks {s : State} (h : cmdEnabled s = true) (n : Nat) : cmdEnabled (ticks n s) = true := by
  obtain ⟨hrest, hwait⟩ := (cmdEnabled_iff s).mp h
  exact (cmdEnabled_iff _).mpr ⟨(restEmpty_ticks n s).trans hrest, waitPending_ticks_of_not hwait n⟩

/-- While a command is enabled every tick uses up one of the host's delay (44_machine_step.md R136). -/
theorem hostDelay_ticks {s : State} (h : cmdEnabled s = true) (n : Nat) :
    (ticks n s).hostDelay = s.hostDelay - n := by
  induction n with
  | zero => rfl
  | succ n ih =>
    rw [ticks_succ', tick_hostDelay, if_pos (cmdEnabled_ticks h n), ih]
    omega

/-- From when a command is enabled the host acts as soon as its delay is over. -/
theorem hostActs_ticks_of_enabled {s : State} (h : cmdEnabled s = true) (n : Nat) :
    hostActs (ticks n s) = decide (s.hostDelay ≤ n) := by
  rw [hostActs, cmdEnabled_ticks h, hostDelay_ticks h, Bool.true_and, Bool.eq_iff_iff, beq_iff_eq,
    decide_eq_true_iff]
  omega

/-- Once the host's wait is over it comes to act. -/
theorem exists_hostActs_of_wait_over {s : State} (hrest : restEmpty s = false) {n : Nat}
    (hn : waitPending (ticks n s) = false) : ∃ m, hostActs (ticks m s) = true := by
  have hen : cmdEnabled (ticks n s) = true := (cmdEnabled_iff _).mpr ⟨(restEmpty_ticks n s).trans hrest, hn⟩
  refine ⟨n + (ticks n s).hostDelay, ?_⟩
  rw [ticks_add, hostActs_ticks_of_enabled hen, decide_eq_true (Nat.le_refl _)]

/-- Until the host acts for the first time a run is ticks. -/
theorem run_until_hostActs {s : State} (hc : cfgOk s.cfg = true) (h : ∃ m, hostActs (ticks m s) = true) :
    ∃ n, runSteps n s = .next (ticks n s) ∧ hostActs (ticks n s) = true := by
  classical
  refine ⟨Nat.find h, runSteps_ticks hc fun j hj => ?_, Nat.find_spec h⟩
  exact Bool.eq_false_iff.mpr (Nat.find_min h hj)

/-! ### A transfer in progress ends -/

/-- The ticks a transfer of `n`-tick bit cells still needs at most. -/
def ticksLeft (n : Nat) (sh : Shifter) : Nat := (8 - sh.bitcnt.toNat) * n - sh.phase.toNat

/-- A tick of a transfer in progress brings it nearer to its end, or ends it. -/
theorem ticksLeft_shifterTick {c : Cfg} {sh : Shifter} (h : ShifterInv c sh) (hc : CfgLegal c)
    (hb : sh.busy = true) (rx : Byte) : (shifterTick rx sh).busy = false ∨
      ticksLeft c.nBit (shifterTick rx sh) < ticksLeft c.nBit sh := by
  obtain ⟨-, hphase, hcnt, -⟩ := h.inCell hb
  have hdiv : sh.div.toNat = c.nBit := by
    rw [(h.configured (h.en_of_busy hb)).2.2.2, toNat_ofNat_nBit hc]
  obtain ⟨k, hk⟩ : ∃ k, 8 - sh.bitcnt.toNat = k + 1 := ⟨7 - sh.bitcnt.toNat, by omega⟩
  by_cases hp : sh.phase.toNat + 1 = sh.div.toNat
  · by_cases h8 : sh.bitcnt.toNat + 1 = 8
    · rw [shifterTick_last hb hp h8]
      exact .inl rfl
    · have hnext : (sh.bitcnt + 1).toNat = sh.bitcnt.toNat + 1 := by bv_omega
      rw [shifterTick_cellEnd hb hp h8]
      right
      simp only [ticksLeft, hnext, hk, show 8 - (sh.bitcnt.toNat + 1) = k by omega, Nat.succ_mul,
        BitVec.toNat_ofNat, Nat.zero_mod]
      omega
  · have hnext : (sh.phase + 1).toNat = sh.phase.toNat + 1 := by bv_omega
    rw [shifterTick_mid hb hp]
    right
    simp only [ticksLeft, hnext, hk, Nat.succ_mul]
    omega

/-- Every transfer in progress ends (60_exceptions.md R158). -/
theorem exists_ticks_idle {s : State} (h : Inv s) : ∃ n, (ticks n s).sh.busy = false := by
  induction hm : ticksLeft s.cfg.nBit s.sh using Nat.strong_induction_on generalizing s with
  | _ m ih =>
    cases hb : s.sh.busy with
    | false => exact ⟨0, hb⟩
    | true =>
      obtain hend | hless := ticksLeft_shifterTick h.shifter h.cfg hb (Config.freeRx s.t)
      · exact ⟨1, hend⟩
      · obtain ⟨n, hn⟩ := ih _ (hm ▸ hless) (inv_tick h) rfl
        exact ⟨n + 1, hn⟩

/-- A stuck host waits on a disabled shifter (40_shifter.md R83). -/
theorem not_enabled_of_stuck {s : State} (h : Inv s) (hs : Stuck s) : s.sh.en = false := by
  obtain ⟨hw, hb, hi⟩ := hs
  cases he : s.sh.en with
  | false => rfl
  | true =>
    obtain hbusy | hif := h.waitSees hw he
    · rw [hb] at hbusy
      cases hbusy
    · rw [hi] at hif
      cases hif

/-- The wait of a host that is not stuck ends. -/
theorem exists_wait_over {s : State} (h : Inv s) (hs : ¬ Stuck s) : ∃ n, waitPending (ticks n s) = false := by
  cases hw : s.wait with
  | none => exact ⟨0, (waitPending_eq_false_iff s).mpr (.inl hw)⟩
  | latch k => exact ⟨k, (waitPending_ticks_latch hw k).trans (decide_eq_false (Nat.lt_irrefl k))⟩
  | xfer =>
    have hseen : s.sh.busy = true ∨ s.sh.iflag = true := by
      by_contra hno
      rw [not_or, Bool.not_eq_true, Bool.not_eq_true] at hno
      exact hs ⟨hw, hno⟩
    have hsees : ∀ n, (ticks n s).sh.busy = true ∨ (ticks n s).sh.iflag = true := by
      intro n
      induction n with
      | zero => exact hseen
      | succ n ih =>
        rw [ticks_succ', tick_sh]
        exact shifterTick_busy_or_iflag ih _
    obtain ⟨n, hidle⟩ := exists_ticks_idle h
    refine ⟨n, ?_⟩
    obtain hbusy | hif := hsees n
    · rw [hidle] at hbusy
      cases hbusy
    · rw [waitPending_of_xfer (ticks_wait_xfer hw n), hif, Bool.not_true]

/-- Settles O14: a wait that an enabled shifter sees is for a transfer that ends (`exists_ticks_idle`), and from
there the host's delay runs out. -/
theorem everyWaitEnds : Obligations.EveryWaitEnds := by
  refine ⟨fun s h hs => not_enabled_of_stuck h hs, fun s h hs hrest => ?_⟩
  obtain ⟨n, hn⟩ := exists_wait_over h hs
  exact run_until_hostActs ((cfgOk_iff _).mpr h.cfg) (exists_hostActs_of_wait_over hrest hn)

/-- Settles O13: a stuck host does not act, and ticks write neither the queue, the stream nor the combiner. -/
theorem stuckForEver : Obligations.StuckForEver :=
  fun s hc hs n => ⟨runSteps_of_stuck hc hs n, stuck_ticks hs n, hostActs_of_stuck (stuck_ticks hs n),
    ticks_queue n s, ticks_stream n s, ticks_lc n s⟩

/-! ### The end of a run -/

theorem hostActs_of_restEmpty {s : State} (h : restEmpty s = true) : hostActs s = false := by
  simp [hostActs, cmdEnabled, h]

theorem runOver_ticks {s : State} (h : RunOver s) (n : Nat) : RunOver (ticks n s) :=
  ⟨(restEmpty_ticks n s).trans h.1, waitPending_ticks_of_not h.2 n⟩

theorem idle_of_not_waitPending {s : State} (h : Inv s) (hw : waitPending s = false) : s.sh.busy = false := by
  cases hb : s.sh.busy with
  | false => rfl
  | true =>
    obtain ⟨hif, -⟩ := h.shifter.inCell hb
    rw [waitPending_of_xfer (h.busyWaits hb), hif] at hw
    cases hw

/-- Settles O51: with nothing left to apply only ticks follow, and they leave an idle shifter as it is. -/
theorem runOverStaysOver : Obligations.RunOverStaysOver := by
  intro s h hover
  have hidle := idle_of_not_waitPending h hover.2
  have hticks : ∀ n, runSteps n s = .next (ticks n s) := fun n =>
    runSteps_ticks ((cfgOk_iff _).mpr h.cfg) fun j _ => hostActs_of_restEmpty (runOver_ticks hover j).1
  exact ⟨hidle, fun n => ⟨hticks n, runOver_ticks hover n, ticks_sh_of_idle hidle n⟩⟩

/-! ### Collisions -/

theorem shifterTick_setWcol (rx : Byte) (sh : Shifter) (b : Bool) :
    shifterTick rx { sh with wcol := b } = { shifterTick rx sh with wcol := b } := by
  unfold shifterTick noteCellEnd
  split
  · split
    · split <;> rfl
    · rfl
  · rfl

/-- SH_WCOL is the only trace of a collision, at every later tick (40_shifter.md R82). -/
theorem ticks_sh_setWcol {s u : State} {b : Bool} (hsh : u.sh = { s.sh with wcol := b }) (ht : u.t = s.t)
    (n : Nat) : (ticks n u).sh = { (ticks n s).sh with wcol := b } := by
  induction n with
  | zero => exact hsh
  | succ n ih => rw [ticks_succ', ticks_succ', tick_sh, tick_sh, ih, ticks_t, ticks_t, ht, shifterTick_setWcol]

/-- Settles O11: the collision writes SH_WCOL alone, which no tick reads, and the invariant keeps the host from
acting on a busy shifter. -/
theorem writeCollision : Obligations.WriteCollision := by
  refine ⟨fun byte s he hb => ?_, fun s => idle_of_hostActs⟩
  have hsh : (startTransfer byte s).sh = { s.sh with wcol := true } := by rw [startTransfer_of_busy he hb]
  exact ⟨startTransfer byte s, exec_shXfer byte s, hsh, ticks_sh_setWcol hsh rfl⟩

/-! ### What a step is refused for -/

/-- A step is refused for its `Cfg`, by the decoder, or by the command it applies. -/
theorem step_refused_cases {s : State} {r : Refusal} (h : step s = .refused r) :
    (cfgOk s.cfg = false ∧ r = .badCfg) ∨
    (cfgOk s.cfg = true ∧ hostActs s = true ∧ (fetch (clearWait s) = .refuse r ∨
      ∃ i e v, fetch (clearWait s) = .cmd i e v ∧ exec i v = .refused r)) := by
  unfold step at h
  split at h
  case isFalse hc => exact .inl ⟨Bool.eq_false_iff.mpr hc, (Host.Outcome.refused.inj h).symm⟩
  case isTrue hc =>
    split at h
    case isFalse => cases h
    case isTrue ha =>
      refine .inr ⟨hc, ha, ?_⟩
      unfold cmdStep at h
      split at h
      next i e v hf =>
        refine .inr ⟨i, e, v, hf, ?_⟩
        cases hx : exec i v with
        | next w => rw [hx] at h; cases h
        | fault f => cases f
        | refused q => rw [hx] at h; rw [Host.Outcome.refused.inj h]
      next q hf => exact .inl (hf.trans (congrArg _ (Host.Outcome.refused.inj h)))
      next => cases h

/-- The decoder refuses a reserved word or a payload cut short (30_encoding.md R68). -/
theorem fetch_refuse_cases {s : State} {r : Refusal} (h : fetch s = .refuse r) :
    ∃ w, r = .reservedEncoding w ∨ r = .truncatedPayload w := by
  unfold fetch at h
  split at h
  · cases h
  · split at h
    · cases h
    · exact ⟨_, .inl (Fetched.refuse.inj h).symm⟩
    · exact ⟨_, .inr (Fetched.refuse.inj h).symm⟩
    · cases h

theorem exec_ne_badCfg (i : Instr) (s : State) : exec i s ≠ .refused .badCfg := by
  rw [ne_eq, (commandRefusals i s).1]
  simp

/-- On an idle shifter no command is refused as ConfigWhileBusy. -/
theorem exec_ne_configWhileBusy {s : State} (hb : s.sh.busy = false) (i j : Instr) :
    exec i s ≠ .refused (.configWhileBusy j) := by
  rw [ne_eq, (commandRefusals i s).1]
  simp [hb]

theorem step_eq_badCfg_iff (s : State) : step s = .refused .badCfg ↔ cfgOk s.cfg = false := by
  constructor
  · intro h
    obtain ⟨hc, -⟩ | ⟨-, -, hf | ⟨i, e, v, -, hx⟩⟩ := step_refused_cases h
    · exact hc
    · obtain ⟨w, hr | hr⟩ := fetch_refuse_cases hf
      · cases hr
      · cases hr
    · exact absurd hx (exec_ne_badCfg i v)
  · intro hc
    simp [step, hc]

/-- Settles O56: the check of the `Cfg` is the list of constraints, with `RESET_TICKS` the ceiling of R5. -/
theorem configurationChecked : Obligations.ConfigurationChecked := by
  intro s
  have hreset := ticksOfMicros_eq_ceil s.cfg.fSys 50
  rw [Nat.cast_ofNat] at hreset
  rw [step_eq_badCfg_iff, ← Bool.not_eq_true, cfgOk_iff, CfgLegal, hreset]

/-- Settles O54: the invariant keeps SH_WCOL 0, the `Cfg` legal, and a command on an idle shifter. -/
theorem blockingHostNeverCollides : Obligations.BlockingHostNeverCollides := by
  intro s h
  refine ⟨h.shifter.noCollision, fun j hstep => ?busy, fun hstep => ?cfg⟩
  case busy =>
    obtain ⟨-, hr⟩ | ⟨-, ha, hf | ⟨i, e, v, hf, hx⟩⟩ := step_refused_cases hstep
    · cases hr
    · obtain ⟨w, hr | hr⟩ := fetch_refuse_cases hf
      · cases hr
      · cases hr
    · have hidle : v.sh.busy = false := by rw [fetch_sh hf, clearWait_sh, idle_of_hostActs h ha]
      exact exec_ne_configWhileBusy hidle i j hx
  case cfg =>
    rw [step_eq_badCfg_iff, (cfgOk_iff _).mpr h.cfg] at hstep
    cases hstep

/-! ### The idle line -/

/-- With the reference truth tables a combiner of the invariant that is enabled is ready (42_combiner.md R111). -/
theorem combinerReady_of_inv {s : State} (h : CombinerInv s.cfg s.lc) (hm : s.cfg.lutMask = 0xF0#8)
    (hf : s.cfg.lutFinal = 0xE0#8) (he : s.lc.en = true) : CombinerReady s.lc := by
  rw [CombinerReady, h.configured he, hm, hf]

/-- Settles O44: the combiner is off, or it gates the pulse with SCK, which is low on an idle shifter. -/
theorem idleLineLow : Obligations.IdleLineLow := by
  intro s h hm hf hb
  have hout : ∀ tm : Timer, outPin { s with tm := tm } = false := by
    intro tm
    cases he : s.lc.en with
    | false => exact outPin_of_disabled he
    | true =>
      rw [outPin_of_ready (s := { s with tm := tm }) (combinerReady_of_inv h.combiner hm hf he), sck_of_idle hb,
        Bool.false_and]
  exact ⟨sck_of_idle hb, hout s.tm, hout⟩

end Sys2Proof.Machine
end


section
/-! PROOF. What no step does: switch a block off, move the blocks without a command, or show a draw
(10_state.md R16 and R33 to R37, 70_reset_and_hazards.md R173, 44_machine_step.md R139). -/

namespace Sys2Proof.Machine

/-! ### Nothing is switched off -/

theorem exec_keeps_master {i : Instr} {s u : State} (hx : exec i s = .next u) :
    (s.sh.mstr = true → u.sh.mstr = true) ∧ (s.sh.dord = false → u.sh.dord = false) := by
  obtain ⟨hsh, -⟩ | ⟨-, -, hsh⟩ | ⟨byte, -, hsh⟩ := exec_sh_cases hx
  · rw [hsh]
    exact ⟨id, id⟩
  · rw [hsh]
    exact ⟨fun _ => rfl, fun _ => rfl⟩
  · obtain ⟨-, hmstr, hdord, -⟩ := writeTransmit_frame byte (clearCollision s.sh)
    rw [hsh, hmstr, hdord]
    exact ⟨id, id⟩

theorem exec_keeps_standby_outen {i : Instr} {s u : State} (hx : exec i s = .next u) :
    (s.lc.runstdby = true → u.lc.runstdby = true) ∧ (s.lc.outen = true → u.lc.outen = true) := by
  obtain ⟨hlc, -⟩ | ⟨-, hlc⟩ := exec_lc_cases hx
  · rw [hlc]
    exact ⟨id, id⟩
  · rw [hlc]
    exact ⟨fun _ => rfl, fun _ => rfl⟩

/-- Settles O57: a tick writes none of these fields, and the commands that write them write 1 (SH_DORD: 0). -/
theorem nothingIsSwitchedOff : Obligations.NothingIsSwitchedOff := by
  intro s u h
  have hcfg := step_keeps_cfg h
  have hen := step_keeps_en h
  obtain ⟨-, ⟨-, rfl⟩ | ⟨-, i, e, v, w, hf, hx, rfl⟩⟩ := step_cases h
  · obtain ⟨-, hmstr, hdord, -⟩ := shifterTick_frame (Config.freeRx s.t) s.sh
    refine ⟨hen, ?_, ?_, ?_, id, id, id, id, hcfg⟩
    · rw [tick_sh, hmstr]
      exact id
    · rw [tick_sh, hdord]
      exact id
    · rw [tick_tm, (timerTick_frame s.tm).1]
      exact id
  · obtain ⟨q, ws, rfl⟩ := fetch_frame hf
    obtain ⟨hmstr, hdord⟩ := exec_keeps_master hx
    obtain ⟨hstandby, houten⟩ := exec_keeps_standby_outen hx
    obtain ⟨-, -, -, -, -, -, -, -, hbegun⟩ := exec_frame hx
    simp only [drawDelay_sh, markBegun_sh, drawDelay_tm, markBegun_tm, drawDelay_lc, markBegun_lc,
      drawDelay_begun, markBegun_begun, hbegun] at hen hcfg ⊢
    exact ⟨hen, hmstr, hdord, fun h => exec_keeps_mode hx h, fun h => exec_keeps_lc_en hx h, hstandby, houten,
      fun hb => Bool.or_eq_true_iff.mpr (.inr hb), hcfg⟩

/-! ### The blocks at their reset values (70_reset_and_hazards.md R173) -/

/-- The three blocks as reset leaves them, SH_RX aside. -/
def BlocksAtReset (s : State) : Prop :=
  s.sh = { State.reset.sh with rx := s.sh.rx } ∧ s.tm = State.reset.tm ∧ s.lc = State.reset.lc

theorem signals_of_blocksAtReset {s : State} (h : BlocksAtReset s) :
    signals s = { sck := false, sdo := false, wo := false, m := false, out := false } := by
  obtain ⟨hsh, htm, hlc⟩ := h
  have hbusy : s.sh.busy = false := by rw [hsh]; rfl
  have hrun : s.tm.run = false := by rw [htm]; rfl
  have hen : s.lc.en = false := by rw [hlc]; rfl
  have hmask : maskOut s.lc s.tm = false := by rw [hlc]; exact cellOut_zero _ _ _
  rw [signals, sck_of_idle hbusy, sdo_of_idle hbusy, wo_of_stopped hrun, hmask, outPin_of_disabled hen]

theorem blocks_tick_of_atReset {s : State} (h : BlocksAtReset s) :
    (tick s).sh = s.sh ∧ (tick s).tm = s.tm ∧ (tick s).lc = s.lc := by
  obtain ⟨hsh, htm, -⟩ := h
  have hbusy : s.sh.busy = false := by rw [hsh]; rfl
  have hrun : s.tm.run = false := by rw [htm]; rfl
  exact ⟨shifterTick_idle hbusy, timerTick_stopped hrun, rfl⟩

/-- The blocks are those of `s`, or a command has been applied since. -/
def BlocksUntilCommand (s u : State) : Prop :=
  (u.sh = s.sh ∧ u.tm = s.tm ∧ u.lc = s.lc ∧ u.applied = s.applied) ∨ s.applied < u.applied

theorem blocksAtReset_of_eq {s u : State} (h : BlocksAtReset s) (hsh : u.sh = s.sh) (htm : u.tm = s.tm)
    (hlc : u.lc = s.lc) : BlocksAtReset u := by
  rwa [BlocksAtReset, hsh, htm, hlc]

theorem step_keeps_blocksUntilCommand {s u v : State} (hs : BlocksAtReset s) (h : BlocksUntilCommand s u)
    (hstep : step u = .next v) : BlocksUntilCommand s v := by
  have hle := applied_le_of_step hstep
  obtain ⟨hsh, htm, hlc, happ⟩ | hlt := h
  · cases ha : hostActs u with
    | false =>
      obtain rfl := step_eq_tick hstep ha
      obtain ⟨hsh', htm', hlc'⟩ := blocks_tick_of_atReset (blocksAtReset_of_eq hs hsh htm hlc)
      exact .inl ⟨hsh'.trans hsh, htm'.trans htm, hlc'.trans hlc, happ⟩
    | true =>
      obtain ⟨-, -, happ', -, -⟩ := step_of_command_frame hstep ha
      exact .inr (by omega)
  · exact .inr (hlt.trans_le hle)

/-- Settles O43: a tick leaves an idle shifter, a stopped timer and the combiner as they are. -/
theorem resetOutputsStayLow : Obligations.ResetOutputsStayLow := by
  intro s _ hsh htm hlc
  have hs : BlocksAtReset s := ⟨hsh, htm, hlc⟩
  refine ⟨fun u ha hstep => ?_, fun n u hrun happ => ?_⟩
  · obtain rfl := step_eq_tick hstep ha
    exact ⟨signals_of_blocksAtReset hs, blocks_tick_of_atReset hs⟩
  · have hkept : BlocksUntilCommand s u := runSteps_keeps
      (fun x y hx hstep => step_keeps_blocksUntilCommand hs hx hstep) (.inl ⟨rfl, rfl, rfl, rfl⟩) hrun
    obtain ⟨hsh', htm', hlc', -⟩ | hlt := hkept
    · exact ⟨signals_of_blocksAtReset (blocksAtReset_of_eq hs hsh' htm' hlc'), hsh', htm', hlc'⟩
    · omega

/-! ### Draws that do not show -/

/-- `s` with other values of the two draws SH_RX and HOST_IDLE. -/
def redraw (rx : Byte) (idle : Bool) (s : State) : State :=
  { s with sh := { s.sh with rx := rx }, hostIdle := idle }

theorem sameButDraws_redraw (rx : Byte) (idle : Bool) (s : State) : SameButDraws s (redraw rx idle s) := rfl

/-- States that are the same but for draws are the same state drawn again. -/
theorem eq_redraw_of_sameButDraws {s u : State} (h : SameButDraws s u) : u = redraw u.sh.rx u.hostIdle s := by
  have hback := congrArg (redraw u.sh.rx u.hostIdle) h
  exact hback.symm

theorem signals_redraw {s : State} (h : s.lc.en = true → s.lc.runstdby = true) (rx : Byte) (idle : Bool) :
    signals (redraw rx idle s) = signals s := by
  have hout : outPin (redraw rx idle s) = outPin s := by
    cases he : s.lc.en with
    | false => rw [outPin_of_disabled he, outPin_of_disabled (s := redraw rx idle s) he]
    | true =>
      cases ho : s.lc.outen with
      | false => rw [outPin_of_unrouted ho, outPin_of_unrouted (s := redraw rx idle s) ho]
      | true =>
        rw [outPin_of_driven he ho (.inr (h he)),
          outPin_of_driven (s := redraw rx idle s) he ho (.inr (h he))]
        rfl
  rw [signals, signals, hout]
  rfl

/-- The draw of SH_RX goes into the shifter's tick and comes out of it, and moves nothing else. -/
theorem shifterTick_setRx (draw rx : Byte) (sh : Shifter) :
    ∃ rx', shifterTick draw { sh with rx := rx } = { shifterTick draw sh with rx := rx' } := by
  unfold shifterTick noteCellEnd
  split
  · split
    · split
      · exact ⟨draw, rfl⟩
      · exact ⟨draw, rfl⟩
    · exact ⟨rx, rfl⟩
  · exact ⟨rx, rfl⟩

theorem tick_redraw {s : State} (h : s.lc.en = true → s.lc.runstdby = true) (rx : Byte) (idle : Bool) :
    ∃ rx', tick (redraw rx idle s) = redraw rx' (tick s).hostIdle (tick s) := by
  obtain ⟨rx', hsh⟩ := shifterTick_setRx (Config.freeRx s.t) rx s.sh
  refine ⟨rx', ?_⟩
  rw [tick, signals_redraw h]
  simp only [redraw, tick, hsh]
  rfl

theorem writeTransmit_setRx (byte rx : Byte) (sh : Shifter) :
    writeTransmit byte (clearCollision { sh with rx := rx }) =
      { writeTransmit byte (clearCollision sh) with rx := rx } := by
  unfold writeTransmit clearCollision
  split
  · split <;> rfl
  · rfl

/-- No command reads a draw. -/
theorem exec_redraw {i : Instr} {s w : State} (hx : exec i s = .next w) (rx : Byte) (idle : Bool) :
    exec i (redraw rx idle s) = .next (redraw rx idle w) := by
  cases i with
  | shCfg | tmCfg | lcCfg =>
    obtain ⟨hb, rfl⟩ := unlessBusy_eq_next.mp hx
    exact unlessBusy_eq_next.mpr ⟨hb, rfl⟩
  | begin =>
    cases hbegun : s.begun with
    | true =>
      rw [exec_begin_of_begun hbegun] at hx
      cases hx
    | false =>
      rw [exec_begin_of_not_begun hbegun, unlessBusy_eq_next] at hx
      obtain ⟨hb, rfl⟩ := hx
      rw [exec_begin_of_not_begun (s := redraw rx idle s) hbegun, unlessBusy_eq_next]
      exact ⟨hb, rfl⟩
  | send | write | writeAll =>
    obtain ⟨hbegun, rfl⟩ := ifBegun_eq_next.mp hx
    exact ifBegun_eq_next.mpr ⟨hbegun, rfl⟩
  | shXfer byte =>
    obtain rfl := Host.Outcome.next.inj hx
    have hsh := writeTransmit_setRx byte rx s.sh
    rw [exec_shXfer, startTransfer, redraw, hsh]
    rfl
  | tmArm | tmStop | irqOff | irqOn | latch =>
    obtain rfl := Host.Outcome.next.inj hx
    rfl

theorem fetch_redraw {s v : State} {i : Instr} {e : Bool} (hf : fetch s = .cmd i e v) (rx : Byte) (idle : Bool) :
    fetch (redraw rx idle s) = .cmd i e (redraw rx idle v) := by
  obtain ⟨q, hq, rfl⟩ | ⟨rest, hq, rfl, hd, rfl⟩ := fetch_cases hf
  · exact fetch_of_queue (s := redraw rx idle s) hq
  · exact fetch_of_decode (s := redraw rx idle s) hq hd

theorem drawDelay_redraw (rx : Byte) (idle : Bool) (s : State) :
    drawDelay (redraw rx idle s) = redraw rx idle (drawDelay s) := by
  cases hd : s.delays with
  | nil => simp [drawDelay, redraw, boundedDelay, hd]
  | cons d ds => simp [drawDelay, redraw, boundedDelay, hd]

/-- Settles O55: a tick and a command of a state drawn again are those of the state, drawn again. -/
theorem drawsDoNotShow : Obligations.DrawsDoNotShow := by
  intro s u v hstandby hsame hstep
  obtain ⟨rx, idle, rfl⟩ : ∃ rx idle, u = redraw rx idle s := ⟨_, _, eq_redraw_of_sameButDraws hsame⟩
  refine ⟨(signals_redraw hstandby rx idle).symm, ?_⟩
  obtain ⟨hc, ⟨ha, rfl⟩ | ⟨ha, i, e, x, w, hf, hx, rfl⟩⟩ := step_cases hstep
  · obtain ⟨rx', htick⟩ := tick_redraw hstandby rx idle
    refine ⟨_, step_of_tick (s := redraw rx idle s) hc ha, ?_⟩
    rw [htick]
    exact ⟨sameButDraws_redraw _ _ _, rfl⟩
  · refine ⟨_, step_of_cmd (s := redraw rx idle s) hc ha (fetch_redraw hf rx false)
      (exec_redraw hx rx false), ?_⟩
    have hmark : markBegun e (redraw rx false w) = redraw rx false (markBegun e w) := by cases e <;> rfl
    rw [hmark, drawDelay_redraw]
    exact ⟨sameButDraws_redraw _ _ _, rfl⟩

end Sys2Proof.Machine
end


section
/-! PROOF. The armed timer in closed form (41_timer.md section 4), the transfer bit by bit (40_shifter.md section
4), and the waveform of the two together (44_machine_step.md R141 to R147). -/

namespace Sys2Proof.Machine

/-! ### From arming to the first count 0 (41_timer.md R94, R95) -/

/-- Case c of R94: a load value inside the period, from which the count goes round. -/
theorem ticks_armTimer_cnt_inside {s : State} (ht : s.cfg.tweak ≤ 255) (hin : 255 - s.tm.top.toNat < s.cfg.tweak)
    (j : Nat) : (ticks j (armTimer s)).tm.cnt.toNat = (256 - s.cfg.tweak + j) % (s.tm.top.toNat + 1) := by
  have hload := toNat_cnt_armTimer (s := s) (by omega)
  have hle : (armTimer s).tm.cnt.toNat ≤ (armTimer s).tm.top.toNat := by
    have htop : (armTimer s).tm.top = s.tm.top := rfl
    rw [hload, htop]
    omega
  have hcnt := ticks_cnt_cycling rfl hle j
  rwa [hload] at hcnt

/-- With TWEAK 0 the count is 0 at once. -/
theorem ticks_armTimer_cnt_zero {s : State} (ht : s.cfg.tweak = 0) (j : Nat) :
    (ticks j (armTimer s)).tm.cnt.toNat = j % (s.tm.top.toNat + 1) := by
  have hload : (armTimer s).tm.cnt = 0#8 := by rw [armTimer_tm, ht, loadedCount_zero]
  have hcnt := ticks_cnt_cycling (s := armTimer s) rfl (by rw [hload]; exact Nat.zero_le _) j
  rwa [hload, BitVec.toNat_ofNat, Nat.zero_mod, Nat.zero_add] at hcnt

/-- From its first count 0 on the armed timer counts the ticks modulo its period (R95). -/
theorem ticks_armTimer_cnt_from_firstZero {s : State} (ht : s.cfg.tweak ≤ 255) {j : Nat}
    (hj : firstZero s.cfg.tweak s.tm.top.toNat ≤ j) : (ticks j (armTimer s)).tm.cnt.toNat =
      (j - firstZero s.cfg.tweak s.tm.top.toNat) % (s.tm.top.toNat + 1) := by
  by_cases habove : s.cfg.tweak ≤ 255 - s.tm.top.toNat
  · rw [firstZero, if_pos habove] at hj ⊢
    obtain hzero | hpos := Nat.eq_zero_or_pos s.cfg.tweak
    · rw [ticks_armTimer_cnt_zero hzero, hzero, Nat.sub_zero]
    · exact ticks_armTimer_cnt_from hpos habove hj
  · rw [firstZero, if_neg habove] at hj ⊢
    have htop := s.tm.top.isLt
    have hge : s.tm.top.toNat + 1 ≤ 256 - s.cfg.tweak + j := by omega
    rw [ticks_armTimer_cnt_inside ht (by omega), Nat.mod_eq_sub_mod hge]
    congr 1
    omega

/-- Before its first count 0 the armed timer's count is not 0 (R94). -/
theorem ticks_armTimer_cnt_before_firstZero {s : State} (ht : s.cfg.tweak ≤ 255) {j : Nat}
    (hj : j < firstZero s.cfg.tweak s.tm.top.toNat) : (ticks j (armTimer s)).tm.cnt.toNat ≠ 0 := by
  by_cases habove : s.cfg.tweak ≤ 255 - s.tm.top.toNat
  · rw [firstZero, if_pos habove] at hj
    rw [ticks_armTimer_cnt_before (by omega) habove hj]
    omega
  · rw [firstZero, if_neg habove] at hj
    have htop := s.tm.top.isLt
    rw [ticks_armTimer_cnt_inside ht (by omega), Nat.mod_eq_of_lt (by omega)]
    omega

theorem ticks_armTimer_cnt_eq_zero_iff {s : State} (ht : s.cfg.tweak ≤ 255) (j : Nat) :
    (ticks j (armTimer s)).tm.cnt = 0#8 ↔ firstZero s.cfg.tweak s.tm.top.toNat ≤ j ∧
      (j - firstZero s.cfg.tweak s.tm.top.toNat) % (s.tm.top.toNat + 1) = 0 := by
  rw [← BitVec.toNat_inj, BitVec.toNat_ofNat, Nat.zero_mod]
  by_cases hj : firstZero s.cfg.tweak s.tm.top.toNat ≤ j
  · rw [ticks_armTimer_cnt_from_firstZero ht hj]
    exact ⟨fun h => ⟨hj, h⟩, And.right⟩
  · have hne := ticks_armTimer_cnt_before_firstZero ht (Nat.lt_of_not_le hj)
    exact ⟨fun h => absurd h hne, fun h => absurd h.1 hj⟩

/-- The pulse of a running timer is its count compared with TM_CMP, which ticks do not write (R93). -/
theorem wo_ticks_of_running {s : State} (hr : s.tm.run = true) (j : Nat) :
    wo (ticks j s).tm = decide ((ticks j s).tm.cnt.toNat < s.tm.cmp.toNat) := by
  obtain ⟨-, -, hcmp, hrun⟩ := ticks_tm_fields j s
  rw [wo, hrun, hr, hcmp, Bool.true_and]

/-- Settles O18: the three cases of the load value, each with its `firstZero`. -/
theorem armToFirstPulse : Obligations.ArmToFirstPulse := by
  intro s u ht hcmp h
  obtain rfl := Host.Outcome.next.inj h
  have htop := s.tm.top.isLt
  refine ⟨⟨?zero, fun j hj he => ?nonzero⟩, fun h0 => ?tweakZero, fun hpos habove => ?above, fun hin => ?inside⟩
  case zero =>
    rw [ticks_armTimer_cnt_eq_zero_iff ht, Nat.sub_self, Nat.zero_mod]
    exact ⟨Nat.le_refl _, rfl⟩
  case nonzero =>
    obtain ⟨hle, -⟩ := (ticks_armTimer_cnt_eq_zero_iff ht j).mp he
    omega
  case tweakZero =>
    rw [firstZero, h0, if_pos (Nat.zero_le _)]
  case above =>
    refine ⟨if_pos habove, top_lt_cnt_armTimer hpos habove, fun j hj => ?_⟩
    have hcnt := ticks_armTimer_cnt_before hpos habove hj
    rw [wo_ticks_of_running rfl, hcnt, toNat_cnt_armTimer hpos]
    refine ⟨rfl, decide_eq_false ?_⟩
    have hcmp' : (armTimer s).tm.cmp = s.tm.cmp := rfl
    rw [hcmp']
    omega
  case inside =>
    have hload := toNat_cnt_armTimer (s := s) (by omega)
    rw [hload, firstZero, if_neg (by omega)]
    refine ⟨by omega, by omega, fun hlt => ?_⟩
    have hwo := wo_ticks_of_running (s := armTimer s) rfl 0
    rw [ticks_zero, hload] at hwo
    exact hwo.trans (decide_eq_true hlt)

/-- Settles O19: the count from `firstZero` on, compared with TM_CMP. -/
theorem pulseTrain : Obligations.PulseTrain := by
  intro s u j ht h hj
  obtain rfl := Host.Outcome.next.inj h
  have hcnt := ticks_armTimer_cnt_from_firstZero ht hj
  rw [wo_ticks_of_running rfl, hcnt, decide_eq_true_iff]
  exact ⟨rfl, Iff.rfl⟩

/-- Settles O45: the alignment condition is the one of `ticks_armTimer_cnt_eq_zero_iff` at the rising edge. -/
theorem alignmentCondition : Obligations.AlignmentCondition := by
  intro s u n arm ckph ht hn h
  obtain rfl := Host.Outcome.next.inj h
  rw [ticks_armTimer_cnt_eq_zero_iff ht, AlignedDelay, hn]
  exact and_iff_right rfl

/-! ### A transfer bit by bit (40_shifter.md R80, R81) -/

/-- The shifter at offset `k` of bit cell `i`: the byte shifted `i` times. -/
theorem ticks_sh_in_cell (byte : Byte) {s : State} (he : s.sh.en = true) (hb : s.sh.busy = false) {i k : Nat}
    (hi : i < 8) (hk : k < s.sh.div.toNat) :
    ∃ rx, (ticks (i * s.sh.div.toNat + k) (startTransfer byte s)).sh = { s.sh with
      wcol := false, shift := byte <<< i, bitcnt := BitVec.ofNat 4 i, phase := BitVec.ofNat 8 k,
      busy := true, iflag := false, rx := rx } := by
  have hN : 0 < s.sh.div.toNat := by omega
  have hstart := startTransfer_atTransferStart byte he hb hN
  have hj : i * s.sh.div.toNat + k < 8 * s.sh.div.toNat := by
    have := Nat.mul_le_mul_right s.sh.div.toNat (show i + 1 ≤ 8 by omega)
    rw [Nat.succ_mul] at this
    omega
  have hquot : (i * s.sh.div.toNat + k) / s.sh.div.toNat = i := by
    rw [Nat.mul_comm, Nat.mul_add_div hN, Nat.div_eq_of_lt hk, Nat.add_zero]
  have hrem : (i * s.sh.div.toNat + k) % s.sh.div.toNat = k := by
    rw [Nat.mul_comm, Nat.mul_add_mod, Nat.mod_eq_of_lt hk]
  rw [startTransfer_of_idle he hb] at hstart ⊢
  obtain ⟨rx, hsh⟩ := ticks_sh_in_transfer hstart hj
  refine ⟨rx, hsh.trans ?_⟩
  simp only [hquot, hrem]

/-- Settles O9: the byte shifted `i` times has its bit `7 - i` in front, and SCK follows the offset. -/
theorem bitPlacement : Obligations.BitPlacement := by
  intro byte s u i k he hb h hi hk
  obtain rfl := Host.Outcome.next.inj h
  obtain ⟨rx, hsh⟩ := ticks_sh_in_cell byte he hb hi hk
  have hk256 : k % 256 = k := Nat.mod_eq_of_lt (hk.trans s.sh.div.isLt)
  refine ⟨?data, ?clock⟩
  case data =>
    rw [hsh, sdo, Bool.true_and, BitVec.getLsbD_shiftLeft]
    simp [show ¬ 7 < i by omega]
  case clock =>
    have hen : (ticks (i * s.sh.div.toNat + k) (startTransfer byte s)).sh.en = true := by rw [hsh]; exact he
    have hbusy : (ticks (i * s.sh.div.toNat + k) (startTransfer byte s)).sh.busy = true := by rw [hsh]
    rw [sck_of_busy hen hbusy, hsh]
    simp [hk256]

/-- Settles O10: the transfer in progress, the transfer complete, and the frame of the other commands. -/
theorem completionTime : Obligations.CompletionTime := by
  refine ⟨fun byte s u j he hb hd h => ⟨fun hj => ?busy, fun hj => ?complete⟩, fun i s u hi h => ?others⟩
  case busy =>
    obtain rfl := Host.Outcome.next.inj h
    have hstart := startTransfer_atTransferStart byte he hb hd
    rw [startTransfer_of_idle he hb] at hstart
    obtain ⟨rx, hsh⟩ := ticks_sh_in_transfer hstart hj
    rw [startTransfer_of_idle he hb, hsh]
    exact ⟨rfl, rfl⟩
  case complete =>
    obtain rfl := Host.Outcome.next.inj h
    have hstart := startTransfer_atTransferStart byte he hb hd
    rw [startTransfer_of_idle he hb] at hstart
    obtain ⟨rx, hsh⟩ := ticks_sh_after_transfer hstart hj
    rw [startTransfer_of_idle he hb, hsh]
    exact ⟨rfl, rfl, rfl, rfl, rfl⟩
  case others =>
    obtain ⟨hsh, -⟩ | ⟨-, -, hsh⟩ | ⟨byte, rfl, -⟩ := exec_sh_cases h
    · rw [hsh]
      exact ⟨rfl, rfl, rfl⟩
    · rw [hsh]
      exact ⟨rfl, rfl, rfl⟩
    · exact absurd rfl (hi byte)

/-! ### The waveform of a byte (44_machine_step.md R141 to R147) -/

@[simp] theorem startTransfer_tm (byte : Byte) (s : State) : (startTransfer byte s).tm = s.tm := rfl

/-- The half of the cell in which SCK is high begins at the rise and is half a cell long. -/
theorem clock_high_iff (ckph : Bool) {n k : Nat} (h2 : 2 ∣ n) (hk : k < n) :
    (if ckph then decide (k < n / 2) else decide (n / 2 ≤ k)) =
      decide (riseOffset ckph n ≤ k ∧ k < riseOffset ckph n + n / 2) := by
  obtain ⟨m, rfl⟩ := h2
  cases ckph with
  | true => simp [riseOffset]
  | false =>
    rw [Bool.eq_iff_iff, decide_eq_true_iff]
    simp [riseOffset]
    omega

/-- A timer whose period is a bit cell has the same count at the same offset after the rise in every cell. -/
theorem ticks_cnt_in_cell {s : State} {r n d i k : Nat} (hr : s.tm.run = true) (hn : s.tm.top.toNat + 1 = n)
    (hd : (ticks r s).tm.cnt.toNat = d) (hdn : d < n) (hk : r ≤ k) :
    (ticks (i * n + k) s).tm.cnt.toNat = (k - r + d) % n := by
  obtain ⟨-, htop, -, hrun⟩ := ticks_tm_fields r s
  have hcnt := ticks_cnt_cycling (hrun.trans hr) (by rw [hd, htop]; omega) (i * n + (k - r))
  rw [← ticks_add, hd, htop, hn, show r + (i * n + (k - r)) = i * n + k by omega] at hcnt
  rw [hcnt, show d + (i * n + (k - r)) = k - r + d + n * i by rw [Nat.mul_comm]; omega, Nat.add_mul_mod_self_left]

/-- OUT at offset `k` of cell `i`: high in the clock's half, where the bit or the pulse is. -/
theorem outPin_in_cell (byte : Byte) {s : State} (hlc : CombinerReady s.lc) (he : s.sh.en = true)
    (hb : s.sh.busy = false) (h2 : 2 ∣ s.sh.div.toNat) {i k : Nat} (hi : i < 8) (hk : k < s.sh.div.toNat) :
    outPin (ticks (i * s.sh.div.toNat + k) (startTransfer byte s)) =
      (decide (riseOffset s.sh.ckph s.sh.div.toNat ≤ k ∧
        k < riseOffset s.sh.ckph s.sh.div.toNat + s.sh.div.toNat / 2) &&
      (byte.getLsbD (7 - i) || wo (ticks (i * s.sh.div.toNat + k) (startTransfer byte s)).tm)) := by
  obtain ⟨hsdo, hsck⟩ := bitPlacement byte s _ i k he hb (exec_shXfer byte s) hi hk
  rw [outPin_of_ready (by rwa [ticks_lc]), hsdo, hsck, clock_high_iff _ h2 hk]

/-- The pulse of a 0 bit that is `d` ticks off, in its three ranges (R143). -/
theorem shifted_pulse_ranges (n w d x : Nat) (h2 : 2 ∣ n) (hw : w < n / 2) (hd : d < n) (hx : x < n / 2) :
    (0 < d → d < w → ((x + d) % n < w ↔ x < w - d)) ∧
    (w ≤ d → d ≤ n - n / 2 → ¬ (x + d) % n < w) ∧
    (n - n / 2 < d → w ≤ d →
      ((x + d) % n < w ↔ n - d ≤ x ∧ x < n - d + min w (d - (n - n / 2)))) := by
  obtain ⟨m, rfl⟩ := h2
  have hhalf : 2 * m / 2 = m := by omega
  rw [hhalf] at hw hx ⊢
  refine ⟨fun _ hdw => ?cut, fun hwd hdn => ?missing, fun hdn hwd => ?late⟩
  case cut =>
    rw [Nat.mod_eq_of_lt (by omega)]
    omega
  case missing =>
    rw [Nat.mod_eq_of_lt (by omega)]
    omega
  case late =>
    by_cases hlt : x + d < 2 * m
    · rw [Nat.mod_eq_of_lt hlt]
      omega
    · rw [Nat.mod_eq_sub_mod (by omega), Nat.mod_eq_of_lt (by omega)]
      omega

/-- Settles O47: OUT in a cell (`outPin_in_cell`) with the count `d` ticks on (`ticks_cnt_in_cell`). -/
theorem misalignedWaveform : Obligations.MisalignedWaveform := by
  refine ⟨fun byte s u d i k hlc he hb h2 hr hn h hd hdn hi hk => ?_, shifted_pulse_ranges⟩
  obtain rfl := Host.Outcome.next.inj h
  rw [outPin_in_cell byte hlc he hb h2 hi hk, Bool.and_eq_true, decide_eq_true_iff, Bool.or_eq_true, and_assoc]
  refine and_congr_right fun hrise => and_congr_right fun _ => or_congr_right ?_
  have hcnt := ticks_cnt_in_cell (s := startTransfer byte s) (i := i) hr hn hd hdn hrise
  rw [wo_ticks_of_running (s := startTransfer byte s) hr, hcnt, decide_eq_true_iff, startTransfer_tm]

/-- Settles O46: the misaligned waveform with a count of 0 at the rise. -/
theorem bitWaveform : Obligations.BitWaveform := by
  intro byte s u i k hlc he hb h2 hr hn h h0 hi hk
  have hzero : (ticks (riseOffset s.sh.ckph s.sh.div.toNat) u).tm.cnt.toNat = 0 := by rw [h0]; rfl
  have hwave := misalignedWaveform.1 byte s u 0 i k hlc he hb h2 hr hn h hzero (by omega) hi hk
  rwa [Nat.add_zero, Nat.mod_eq_of_lt (by omega)] at hwave

/-- Settles O48: a stopped timer's pulse is low at every tick. -/
theorem transferWithoutTimer : Obligations.TransferWithoutTimer := by
  intro byte s u hlc hr h j
  obtain rfl := Host.Outcome.next.inj h
  have hwo : wo (ticks j (startTransfer byte s)).tm = false :=
    wo_of_stopped ((ticks_tm_fields j (startTransfer byte s)).2.2.2.trans hr)
  refine ⟨hwo, ?_⟩
  rw [outPin_of_ready (by rwa [ticks_lc]), hwo, Bool.or_false]

end Sys2Proof.Machine
end


section
/-! PROOF. Commands carried out with the host's delays between them (44_machine_step.md R135, R136): BEGIN, SEND
and an empty WRITE_ALL run through (43_facade.md), and one SEND on the wire (44_machine_step.md section 2). -/

namespace Sys2Proof.Machine

/-! ### The next command of a run -/

/-- The host lets its delay pass and then applies its next command. -/
theorem run_next_command {s v w : State} {i : Instr} {e : Bool} (hc : cfgOk s.cfg = true)
    (hen : cmdEnabled s = true) (hf : fetch (clearWait (ticks s.hostDelay s)) = .cmd i e v)
    (hx : exec i v = .next w) : runSteps (s.hostDelay + 1) s = .next (drawDelay (markBegun e w)) := by
  have hwait : ∀ j < s.hostDelay, hostActs (ticks j s) = false := fun j hj => by
    rw [hostActs_ticks_of_enabled hen, decide_eq_false (Nat.not_le.mpr hj)]
  have hacts : hostActs (ticks s.hostDelay s) = true := by
    rw [hostActs_ticks_of_enabled hen, decide_eq_true (Nat.le_refl _)]
  have hcfg : cfgOk (ticks s.hostDelay s).cfg = true := by rwa [ticks_cfg]
  rw [runSteps_add (runSteps_ticks hc hwait), runSteps_succ (step_of_cmd hcfg hacts hf hx), runSteps_zero]

/-- The state in which the host, its delay over, applies its next queued command, `q` being left in the queue. -/
def atCommand (s : State) (q : List QueueItem) : State := (clearWait (ticks s.hostDelay s)).setQueue q

@[simp] theorem atCommand_cfg (s : State) (q : List QueueItem) : (atCommand s q).cfg = s.cfg := by simp [atCommand]
@[simp] theorem atCommand_lc (s : State) (q : List QueueItem) : (atCommand s q).lc = s.lc := by simp [atCommand]
@[simp] theorem atCommand_ie (s : State) (q : List QueueItem) : (atCommand s q).ie = s.ie := by simp [atCommand]
@[simp] theorem atCommand_begun (s : State) (q : List QueueItem) : (atCommand s q).begun = s.begun := by
  simp [atCommand]
@[simp] theorem atCommand_stream (s : State) (q : List QueueItem) : (atCommand s q).stream = s.stream := by
  simp [atCommand]
@[simp] theorem atCommand_delays (s : State) (q : List QueueItem) : (atCommand s q).delays = s.delays := by
  simp [atCommand]
@[simp] theorem atCommand_applied (s : State) (q : List QueueItem) : (atCommand s q).applied = s.applied := by
  simp [atCommand]
@[simp] theorem atCommand_t (s : State) (q : List QueueItem) : (atCommand s q).t = s.t + s.hostDelay := by
  simp [atCommand]
@[simp] theorem atCommand_queue (s : State) (q : List QueueItem) : (atCommand s q).queue = q := rfl
@[simp] theorem atCommand_wait (s : State) (q : List QueueItem) : (atCommand s q).wait = .none := rfl
@[simp] theorem atCommand_hostIdle (s : State) (q : List QueueItem) : (atCommand s q).hostIdle = false := rfl
@[simp] theorem atCommand_tm (s : State) (q : List QueueItem) :
    (atCommand s q).tm = (ticks s.hostDelay s).tm := rfl
@[simp] theorem atCommand_trace (s : State) (q : List QueueItem) :
    (atCommand s q).trace = (ticks s.hostDelay s).trace := rfl

theorem atCommand_sh_of_idle {s : State} (h : s.sh.busy = false) (q : List QueueItem) :
    (atCommand s q).sh = s.sh := ticks_sh_of_idle h s.hostDelay

theorem run_queued_command {s w : State} {i : Instr} {e : Bool} {q : List QueueItem} (hc : cfgOk s.cfg = true)
    (hen : cmdEnabled s = true) (hq : s.queue = ⟨i, e⟩ :: q) (hx : exec i (atCommand s q) = .next w) :
    runSteps (s.hostDelay + 1) s = .next (drawDelay (markBegun e w)) := by
  have hqueue : (clearWait (ticks s.hostDelay s)).queue = ⟨i, e⟩ :: q := by rw [clearWait_queue, ticks_queue, hq]
  exact run_next_command hc hen (fetch_of_queue hqueue) hx

/-- A command is enabled where one is queued and no wait is pending. -/
theorem cmdEnabled_of_queue {s : State} {item : QueueItem} {q : List QueueItem} (hq : s.queue = item :: q)
    (hw : waitPending s = false) : cmdEnabled s = true := by
  refine (cmdEnabled_iff s).mpr ⟨(restEmpty_eq_false_iff s).mpr (.inl ?_), hw⟩
  rw [hq]
  exact List.cons_ne_nil _ _

theorem waitPending_of_none {s : State} (h : s.wait = .none) : waitPending s = false :=
  (waitPending_eq_false_iff s).mpr (.inl h)

/-! ### The draw of a delay that is given -/

theorem drawDelay_of_delays {s : State} {d : Nat} {ds : List Nat} (h : s.delays = d :: ds) :
    drawDelay s = { s with hostDelay := boundedDelay s d, delays := ds, applied := s.applied + 1 } := by
  simp [drawDelay, h]

/-- The bound of a delay depends on IE and `L_MAX` alone (60_exceptions.md R160). -/
theorem boundedDelay_congr {s u : State} (hie : u.ie = s.ie) (hcfg : u.cfg = s.cfg) (d : Nat) :
    boundedDelay u d = boundedDelay s d := by
  simp [boundedDelay, hie, hcfg]

theorem boundedDelay_of_ie {s : State} (h : s.ie = true) (d : Nat) : boundedDelay s d = d := by
  simp [boundedDelay, h]

theorem boundedDelay_of_le {s : State} {d : Nat} (h : d ≤ s.cfg.lMax) : boundedDelay s d = d := by
  simp [boundedDelay, h]

/-! ### BEGIN carried out -/

/-- A state that nothing moves but time, the trace and the host's delay. -/
structure Still (s : State) : Prop where
  idle : s.sh.busy = false
  stopped : s.tm.run = false
  noWait : s.wait = .none
  awake : s.hostIdle = false
  queued : s.queue ≠ []

theorem tick_of_still {s : State} (h : Still s) : tick s =
    { s with t := s.t + 1, hostDelay := s.hostDelay - 1, trace := signals s :: s.trace } := by
  have hen : cmdEnabled s = true := (cmdEnabled_iff s).mpr
    ⟨(restEmpty_eq_false_iff s).mpr (.inl h.queued), waitPending_of_none h.noWait⟩
  rw [tick, shifterTick_idle h.idle, timerTick_stopped h.stopped, h.noWait, waitTick, idleTick, if_pos hen,
    ← h.noWait, ← h.awake]

theorem ticks_of_still {s : State} (h : Still s) (n : Nat) :
    ticks n s = { s with t := s.t + n, hostDelay := s.hostDelay - n, trace := (ticks n s).trace } := by
  induction n with
  | zero => rfl
  | succ n ih =>
    have hstill : Still (ticks n s) := by
      rw [ih]
      exact ⟨h.idle, h.stopped, h.noWait, h.awake, h.queued⟩
    rw [ticks_succ', tick_of_still hstill, ih]
    rfl

theorem atCommand_of_still {s : State} (h : Still s) (q : List QueueItem) : atCommand s q =
    { s with
      t := s.t + s.hostDelay, hostDelay := 0, queue := q, trace := (ticks s.hostDelay s).trace } := by
  rw [atCommand, ticks_of_still h, Nat.sub_self, clearWait, ← h.noWait, ← h.awake]
  rfl

theorem runSteps_trans {s u v : State} {m n : Nat} (hm : runSteps m s = .next u) (hn : runSteps n u = .next v) :
    runSteps (m + n) s = .next v := (runSteps_add hm n).trans hn

theorem clearWait_of_none {s : State} (hw : s.wait = .none) (hidle : s.hostIdle = false) : clearWait s = s := by
  rw [clearWait, ← hw, ← hidle]

/-- The state BEGIN's own step leaves, `d` being the delay that follows (43_facade.md R115). -/
def afterBegin (s : State) (rest : List Word) (d : Nat) (ds : List Nat) : State :=
  { s with
    sh := (configureShifter s).sh, queue := afterShCfg, stream := rest, delays := ds, hostDelay := d,
    applied := s.applied + 1 }

theorem run_begin {s : State} {rest : List Word} {d : Nat} {ds : List Nat} (hc : cfgOk s.cfg = true)
    (hbegun : s.begun = false) (hb : s.sh.busy = false) (hie : s.ie = true) (hw : s.wait = .none)
    (hidle : s.hostIdle = false) (hq : s.queue = []) (hd : s.hostDelay = 0)
    (hstream : s.stream = encode .begin ++ rest) (hds : s.delays = d :: ds) :
    runSteps 1 s = .next (afterBegin s rest d ds) := by
  have hdecode : decode s.stream = .ok .begin rest := by
    rw [hstream]
    exact decodeOfEncode .begin rest rfl
  have hen : cmdEnabled s = true := (cmdEnabled_iff s).mpr
    ⟨(restEmpty_eq_false_iff s).mpr (.inr fun h => by rw [h] at hdecode; cases hdecode), waitPending_of_none hw⟩
  have hfetch : fetch (clearWait (ticks s.hostDelay s)) = .cmd .begin false (s.setStream rest) := by
    rw [hd, ticks_zero, clearWait_of_none hw hidle]
    exact fetch_of_decode hq hdecode
  have hqueue : (s.setStream rest).prepend afterShCfg = (s.setStream rest).setQueue afterShCfg := by
    rw [State.prepend, State.setStream_queue, hq, List.append_nil, State.setQueue]
  have hx : exec .begin (s.setStream rest) =
      .next (configureShifter ((s.setStream rest).setQueue afterShCfg)) := by
    rw [exec_begin_of_not_begun (s := s.setStream rest) hbegun, hqueue]
    exact unlessBusy_of_idle hb
  have hrun := run_next_command hc hen hfetch hx
  rw [hd] at hrun
  rw [hrun, markBegun, if_neg Bool.false_ne_true, drawDelay_of_delays (by exact hds), boundedDelay_of_ie (by exact hie)]
  rfl

theorem still_afterBegin {s : State} (hb : s.sh.busy = false) (hr : s.tm.run = false) (hw : s.wait = .none)
    (hidle : s.hostIdle = false) (rest : List Word) (d : Nat) (ds : List Nat) : Still (afterBegin s rest d ds) :=
  ⟨hb, hr, hw, hidle, List.cons_ne_nil _ _⟩

/-- The state TM_CFG leaves inside BEGIN, `d` being the delay that follows. -/
def afterTmCfg (s : State) (d : Nat) (ds : List Nat) : State :=
  { s with
    tm := (configureTimer s).tm, t := s.t + s.hostDelay, queue := [{ cmd := .lcCfg, endsBegin := true }],
    delays := ds, hostDelay := d, applied := s.applied + 1, trace := (ticks s.hostDelay s).trace }

theorem run_tmCfg {s : State} {d : Nat} {ds : List Nat} (hc : cfgOk s.cfg = true) (h : Still s)
    (hie : s.ie = true) (hq : s.queue = afterShCfg) (hds : s.delays = d :: ds) :
    runSteps (s.hostDelay + 1) s = .next (afterTmCfg s d ds) := by
  have hen := cmdEnabled_of_queue hq (waitPending_of_none h.noWait)
  have hx : exec .tmCfg (atCommand s [{ cmd := .lcCfg, endsBegin := true }]) = .next _ :=
    unlessBusy_of_idle (by rw [atCommand_sh_of_idle h.idle, h.idle])
  have hrun := run_queued_command hc hen hq hx
  rw [hrun, markBegun, if_neg Bool.false_ne_true, atCommand_of_still h]
  rw [drawDelay_of_delays (by exact hds), boundedDelay_of_ie (by exact hie)]
  rfl

theorem still_afterTmCfg {s : State} (h : Still s) (d : Nat) (ds : List Nat) : Still (afterTmCfg s d ds) :=
  ⟨h.idle, rfl, h.noWait, h.awake, List.cons_ne_nil _ _⟩

/-- The state LC_CFG leaves at the end of BEGIN, `d` being the delay that follows. -/
def afterLcCfg (s : State) (d : Nat) (ds : List Nat) : State :=
  { s with
    lc := (configureCombiner s).lc, t := s.t + s.hostDelay, queue := [], begun := true, delays := ds,
    hostDelay := d, applied := s.applied + 1, trace := (ticks s.hostDelay s).trace }

theorem run_lcCfg {s : State} {d : Nat} {ds : List Nat} (hc : cfgOk s.cfg = true) (h : Still s)
    (hie : s.ie = true) (hq : s.queue = [{ cmd := .lcCfg, endsBegin := true }]) (hds : s.delays = d :: ds) :
    runSteps (s.hostDelay + 1) s = .next (afterLcCfg s d ds) := by
  have hen := cmdEnabled_of_queue hq (waitPending_of_none h.noWait)
  have hx : exec .lcCfg (atCommand s []) = .next _ :=
    unlessBusy_of_idle (by rw [atCommand_sh_of_idle h.idle, h.idle])
  have hrun := run_queued_command hc hen hq hx
  rw [hrun, markBegun, if_pos rfl, atCommand_of_still h]
  rw [drawDelay_of_delays (by exact hds), boundedDelay_of_ie (by exact hie)]
  rfl

/-- The three commands of BEGIN with the delays `d1`, `d2` between them. -/
theorem run_begin_through {s : State} {rest : List Word} {d1 d2 d3 : Nat} {ds : List Nat}
    (hc : cfgOk s.cfg = true) (hbegun : s.begun = false) (hb : s.sh.busy = false) (hr : s.tm.run = false)
    (hie : s.ie = true) (hw : s.wait = .none) (hidle : s.hostIdle = false) (hq : s.queue = [])
    (hd : s.hostDelay = 0) (hstream : s.stream = encode .begin ++ rest) (hds : s.delays = d1 :: d2 :: d3 :: ds) :
    runSteps (1 + d1 + 1 + d2 + 1) s =
      .next (afterLcCfg (afterTmCfg (afterBegin s rest d1 (d2 :: d3 :: ds)) d2 (d3 :: ds)) d3 ds) := by
  have hstill1 := still_afterBegin hb hr hw hidle rest d1 (d2 :: d3 :: ds)
  have hstill2 := still_afterTmCfg hstill1 d2 (d3 :: ds)
  have hrun1 := run_begin hc hbegun hb hie hw hidle hq hd hstream hds
  have hrun2 := run_tmCfg (s := afterBegin s rest d1 (d2 :: d3 :: ds)) hc hstill1 hie rfl rfl
  have hrun3 := run_lcCfg (s := afterTmCfg (afterBegin s rest d1 (d2 :: d3 :: ds)) d2 (d3 :: ds)) hc hstill2 hie
    rfl rfl
  rw [Nat.add_assoc 1 d1 1, Nat.add_assoc (1 + (d1 + 1)) d2 1]
  exact runSteps_trans (runSteps_trans hrun1 hrun2) hrun3

/-- Settles O27: BEGIN, TM_CFG and LC_CFG one after the other on a state that nothing else moves. -/
theorem beginRunsThrough : Obligations.BeginRunsThrough := by
  intro s rest d1 d2 d3 ds hc hbegun hb hr hie hw hidle hq hd hstream hds
  refine ⟨_, run_begin_through hc hbegun hb hr hie hw hidle hq hd hstream hds, ?state, ?samples, fun hm hf => ?low⟩
  case state =>
    rw [afterLcCfg, ← hq]
    rfl
  case samples =>
    rw [afterLcCfg, length_trace_ticks, afterTmCfg, length_trace_ticks]
    rfl
  case low =>
    have hready : CombinerReady (configureCombiner s).lc := by
      rw [CombinerReady, ← hm, ← hf]
      rfl
    rw [outPin_of_ready (by exact hready), sck_of_idle (by exact hb), Bool.false_and]

end Sys2Proof.Machine
end


section
/-! PROOF. A SEND carried out (43_facade.md R117), and its samples on the wire (44_machine_step.md section 2). -/

namespace Sys2Proof.Machine

/-! ### Ticks of states with the same blocks -/

theorem ticks_tm_congr {s u : State} (h : u.tm = s.tm) (n : Nat) : (ticks n u).tm = (ticks n s).tm := by
  induction n with
  | zero => exact h
  | succ n ih => rw [ticks_succ', ticks_succ', tick_tm, tick_tm, ih]

theorem ticks_sh_congr {s u : State} (h : u.sh = s.sh) (ht : u.t = s.t) (n : Nat) :
    (ticks n u).sh = (ticks n s).sh := by
  induction n with
  | zero => exact h
  | succ n ih => rw [ticks_succ', ticks_succ', tick_sh, tick_sh, ih, ticks_t, ticks_t, ht]

theorem outTrace_congr {s u : State} (h : u.trace = s.trace) : u.outTrace = s.outTrace := by
  rw [State.outTrace, State.outTrace, h]

/-- While the shifter is idle the ready combiner records low samples. -/
theorem outTrace_ticks_low {s : State} (hb : s.sh.busy = false) (hlc : CombinerReady s.lc) (n : Nat) :
    (ticks n s).outTrace = s.outTrace ++ List.replicate n false := by
  rw [outTrace_ticks]
  simp only [outPin_ticks_of_idle hb hlc, List.map_const', List.length_range]

/-- The draw of a delay does not show on OUT. -/
theorem outPin_ticks_drawDelay {s : State} (hlc : CombinerReady s.lc) (n : Nat) :
    outPin (ticks n (drawDelay s)) = outPin (ticks n s) := by
  rw [outPin_of_ready (by rwa [ticks_lc, drawDelay_lc]), outPin_of_ready (by rwa [ticks_lc]),
    ticks_sh_congr (drawDelay_sh s) (drawDelay_t s), ticks_tm_congr (drawDelay_tm s)]

/-- As long as no command is enabled the host's delay waits. -/
theorem hostDelay_ticks_of_pending {s : State} {n : Nat} (h : ∀ j < n, waitPending (ticks j s) = true) :
    (ticks n s).hostDelay = s.hostDelay := by
  induction n with
  | zero => rfl
  | succ n ih =>
    have hen : cmdEnabled (ticks n s) = false := by simp [cmdEnabled, h n (Nat.lt_succ_self n)]
    rw [ticks_succ', tick_hostDelay, hen, if_neg Bool.false_ne_true, ih fun j hj => h j (hj.trans n.lt_succ_self)]

/-! ### The three commands of a SEND -/

/-- The state a SEND's TM_ARM leaves. -/
def sendArmed (byte : Byte) (s : State) (q : List QueueItem) : State :=
  drawDelay (armTimer ((atCommand s q).prepend (afterArm byte)))

/-- The state its SH_XFER leaves. -/
def sendStarted (byte : Byte) (s : State) (q : List QueueItem) : State :=
  drawDelay (startTransfer byte (atCommand s (plainItem .tmStop :: q)))

/-- The state its TM_STOP leaves. -/
def sendStopped (s : State) (q : List QueueItem) : State := drawDelay (stopTimer (atCommand s q))

theorem run_send {byte : Byte} {s : State} {q : List QueueItem} (hc : cfgOk s.cfg = true)
    (hbegun : s.begun = true) (hw : waitPending s = false) (hq : s.queue = plainItem (.send byte) :: q) :
    runSteps (s.hostDelay + 1) s = .next (sendArmed byte s q) :=
  run_queued_command hc (cmdEnabled_of_queue hq hw) hq (ifBegun_of_begun ((atCommand_begun s q).trans hbegun))

theorem run_shXfer {byte : Byte} {s : State} {q : List QueueItem} (hc : cfgOk s.cfg = true)
    (hw : waitPending s = false) (hq : s.queue = afterArm byte ++ q) :
    runSteps (s.hostDelay + 1) s = .next (sendStarted byte s q) :=
  run_queued_command hc (cmdEnabled_of_queue hq hw) hq (exec_shXfer byte _)

theorem run_tmStop {s : State} {q : List QueueItem} (hc : cfgOk s.cfg = true) (hw : waitPending s = false)
    (hq : s.queue = plainItem .tmStop :: q) : runSteps (s.hostDelay + 1) s = .next (sendStopped s q) :=
  run_queued_command hc (cmdEnabled_of_queue hq hw) hq (exec_tmStop _)

/-- The tick at which the transfer of a SEND is complete, the state it began in being `s`. -/
def sendComplete (s : State) : State := ticks (8 * s.sh.div.toNat) s

section Transfer

variable {byte : Byte} {s : State} {q : List QueueItem} (he : s.sh.en = true) (hb : s.sh.busy = false)
  (hdiv : 0 < s.sh.div.toNat)
include he hb

theorem sendStarted_sh : (sendStarted byte s q).sh = { s.sh with
    wcol := false, shift := byte, bitcnt := 0#4, phase := 0#8, busy := true, iflag := false } := by
  have hsh := atCommand_sh_of_idle hb (plainItem .tmStop :: q)
  rw [sendStarted, drawDelay_sh, startTransfer_of_idle (by rw [hsh, he]) (by rw [hsh, hb]), hsh]

theorem sendStarted_div : (sendStarted byte s q).sh.div = s.sh.div := by rw [sendStarted_sh he hb]

include hdiv

theorem sendStarted_atTransferStart : AtTransferStart (sendStarted byte s q).sh := by
  rw [sendStarted_sh he hb]
  exact ⟨rfl, rfl, rfl, hdiv⟩

/-- The wait of the SEND's SH_XFER is over after `8 * SH_DIV` ticks and not before. -/
theorem waitPending_ticks_sendStarted (j : Nat) :
    waitPending (ticks j (sendStarted byte s q)) = !decide (8 * s.sh.div.toNat ≤ j) := by
  have hwait : (sendStarted byte s q).wait = .xfer := by rw [sendStarted, drawDelay_wait, startTransfer_wait]
  have hstart := sendStarted_atTransferStart (byte := byte) (q := q) he hb hdiv
  have hd := sendStarted_div (byte := byte) (q := q) he hb
  rw [waitPending_of_xfer (ticks_wait_xfer hwait j)]
  by_cases hj : 8 * s.sh.div.toNat ≤ j
  · obtain ⟨rx, hend⟩ := ticks_sh_after_transfer hstart (j := j) (by rwa [hd])
    simp [hend, hj]
  · obtain ⟨rx, hin⟩ := ticks_sh_in_transfer hstart (j := j) (by rw [hd]; omega)
    simp [hin, sendStarted_sh he hb, hj]

/-- While the transfer is in progress the host does not act. -/
theorem run_transfer (hc : cfgOk s.cfg = true) :
    runSteps (8 * s.sh.div.toNat) (sendStarted byte s q) = .next (sendComplete (sendStarted byte s q)) := by
  have hcfg : cfgOk (sendStarted byte s q).cfg = true := by simpa [sendStarted, startTransfer] using hc
  rw [sendComplete, sendStarted_div he hb]
  refine runSteps_ticks hcfg fun j hj => hostActs_of_waitPending ?_
  rw [waitPending_ticks_sendStarted he hb hdiv, decide_eq_false (Nat.not_le.mpr hj), Bool.not_false]

theorem waitPending_sendComplete : waitPending (sendComplete (sendStarted byte s q)) = false := by
  rw [sendComplete, sendStarted_div he hb, waitPending_ticks_sendStarted he hb hdiv, decide_eq_true (Nat.le_refl _),
    Bool.not_true]

theorem hostDelay_sendComplete :
    (sendComplete (sendStarted byte s q)).hostDelay = (sendStarted byte s q).hostDelay := by
  rw [sendComplete, sendStarted_div he hb]
  refine hostDelay_ticks_of_pending fun j hj => ?_
  rw [waitPending_ticks_sendStarted he hb hdiv, decide_eq_false (Nat.not_le.mpr hj), Bool.not_false]

/-- From the end of the transfer on the shifter is complete (40_shifter.md R81). -/
theorem ticks_sh_sendComplete (n : Nat) : ∃ rx, (ticks n (sendComplete (sendStarted byte s q))).sh =
    { s.sh with
      wcol := false, shift := 0#8, bitcnt := 8#4, phase := 0#8, busy := false, iflag := true, rx := rx } := by
  have hstart := sendStarted_atTransferStart (byte := byte) (q := q) he hb hdiv
  obtain ⟨rx, hend⟩ := ticks_sh_after_transfer hstart (j := 8 * s.sh.div.toNat + n)
    (by rw [sendStarted_div he hb]; omega)
  refine ⟨rx, ?_⟩
  rw [sendComplete, sendStarted_div he hb, ← ticks_add, hend, sendStarted_sh he hb]

end Transfer

/-! ### The SEND as a whole -/

/-- The state a SEND leaves, `q` standing behind it in the queue. -/
def sendDone (byte : Byte) (s : State) (q : List QueueItem) : State :=
  sendStopped (sendComplete (sendStarted byte (sendArmed byte s q) q)) q

/-- The host is about to carry out `SEND byte`, of its own or as the first of a WRITE, with the delays `arm`,
`stop`, `gap`, `q` and `ds` standing behind them, on a shifter that is enabled and idle. -/
structure SendReady (byte : Byte) (arm stop gap : Nat) (q : List QueueItem) (ds : List Nat) (s : State) :
    Prop where
  cfg : cfgOk s.cfg = true
  enabled : s.sh.en = true
  idle : s.sh.busy = false
  div : 0 < s.sh.div.toNat
  first : runSteps (s.hostDelay + 1) s = .next (sendArmed byte s q)
  delays : s.delays = arm :: stop :: gap :: ds

/-- What a SEND leaves alone, and its three commands counted. -/
theorem sendDone_frame (byte : Byte) (s : State) (q : List QueueItem) :
    (sendDone byte s q).cfg = s.cfg ∧ (sendDone byte s q).lc = s.lc ∧
    (sendDone byte s q).ie = s.ie ∧ (sendDone byte s q).begun = s.begun ∧ (sendDone byte s q).wait = .none ∧
    (sendDone byte s q).queue = q ∧ (sendDone byte s q).stream = s.stream ∧
    (sendDone byte s q).applied = s.applied + 3 := by
  simp [sendDone, sendStopped, stopTimer, sendComplete, sendStarted, startTransfer, sendArmed, armTimer]

section Send

variable {byte : Byte} {arm stop gap : Nat} {q : List QueueItem} {ds : List Nat} {s : State}
  (h : SendReady byte arm stop gap q ds s)
include h

theorem sendArmed_sh : (sendArmed byte s q).sh = s.sh := by
  rw [sendArmed, drawDelay_sh]
  exact atCommand_sh_of_idle h.idle q

theorem sendArmed_delays : (sendArmed byte s q).hostDelay = boundedDelay s arm ∧
    (sendArmed byte s q).delays = stop :: gap :: ds := by
  have hds : (armTimer ((atCommand s q).prepend (afterArm byte))).delays = arm :: stop :: gap :: ds :=
    (atCommand_delays s q).trans h.delays
  obtain ⟨hdelay, hrest⟩ := drawDelay_of_given hds
  exact ⟨hdelay.trans (boundedDelay_congr (atCommand_ie s q) (atCommand_cfg s q) arm), hrest⟩

theorem sendStarted_delays : (sendStarted byte (sendArmed byte s q) q).hostDelay = boundedDelay s stop ∧
    (sendStarted byte (sendArmed byte s q) q).delays = gap :: ds := by
  have hds : (startTransfer byte (atCommand (sendArmed byte s q) (plainItem .tmStop :: q))).delays =
      stop :: gap :: ds := by
    rw [← (sendArmed_delays h).2]
    simp [startTransfer]
  obtain ⟨hdelay, hrest⟩ := drawDelay_of_given hds
  refine ⟨hdelay.trans (boundedDelay_congr ?_ ?_ stop), hrest⟩
  · simp [startTransfer, sendArmed, armTimer]
  · simp [startTransfer, sendArmed, armTimer]

theorem sendDone_delays : (sendDone byte s q).hostDelay = boundedDelay s gap ∧ (sendDone byte s q).delays = ds := by
  have hds : (stopTimer (atCommand (sendComplete (sendStarted byte (sendArmed byte s q) q)) q)).delays =
      gap :: ds := by
    rw [← (sendStarted_delays h).2]
    simp [stopTimer, sendComplete]
  obtain ⟨hdelay, hrest⟩ := drawDelay_of_given hds
  refine ⟨hdelay.trans (boundedDelay_congr ?_ ?_ gap), hrest⟩
  · simp [stopTimer, sendComplete, sendStarted, startTransfer, sendArmed, armTimer]
  · simp [stopTimer, sendComplete, sendStarted, startTransfer, sendArmed, armTimer]

/-- The delay that SH_XFER drew passes after the transfer. -/
theorem hostDelay_complete :
    (sendComplete (sendStarted byte (sendArmed byte s q) q)).hostDelay = boundedDelay s stop := by
  have hsh := sendArmed_sh h
  rw [hostDelay_sendComplete (by rw [hsh, h.enabled]) (by rw [hsh, h.idle]) (by rw [hsh]; exact h.div)]
  exact (sendStarted_delays h).1

/-- The steps of a SEND: its three commands, the delays before them, and the transfer. -/
theorem run_sendDone : runSteps
    (s.hostDelay + 1 + (boundedDelay s arm + 1) + 8 * s.sh.div.toNat + (boundedDelay s stop + 1)) s =
      .next (sendDone byte s q) := by
  have hsh := sendArmed_sh h
  have hen : (sendArmed byte s q).sh.en = true := by rw [hsh, h.enabled]
  have hidle : (sendArmed byte s q).sh.busy = false := by rw [hsh, h.idle]
  have hdiv : 0 < (sendArmed byte s q).sh.div.toNat := by rw [hsh]; exact h.div
  have hcfg : cfgOk (sendArmed byte s q).cfg = true := by simpa [sendArmed, armTimer] using h.cfg
  have hxfer : runSteps (boundedDelay s arm + 1) (sendArmed byte s q) =
      .next (sendStarted byte (sendArmed byte s q) q) :=
    (sendArmed_delays h).1 ▸ run_shXfer (byte := byte) (q := q) hcfg
      (waitPending_of_none (by simp [sendArmed, armTimer])) (by simp [sendArmed, armTimer])
  have htransfer := run_transfer (byte := byte) (q := q) hen hidle hdiv hcfg
  rw [hsh] at htransfer
  have hstop : runSteps (boundedDelay s stop + 1) (sendComplete (sendStarted byte (sendArmed byte s q) q)) =
      .next (sendDone byte s q) :=
    hostDelay_complete h ▸ run_tmStop (q := q)
      (by simpa [sendComplete, sendStarted, startTransfer] using hcfg)
      (waitPending_sendComplete hen hidle hdiv) (by simp [sendComplete, sendStarted, startTransfer])
  exact runSteps_trans (runSteps_trans (runSteps_trans h.first hxfer) htransfer) hstop

theorem sendDone_sh : ∃ rx, (sendDone byte s q).sh = { s.sh with
    shift := 0#8, rx := rx, bitcnt := 8#4, phase := 0#8, iflag := true, wcol := false } := by
  have hsh := sendArmed_sh h
  obtain ⟨rx, hend⟩ := ticks_sh_sendComplete (byte := byte) (q := q) (by rw [hsh, h.enabled]) (by rw [hsh, h.idle])
    (by rw [hsh]; exact h.div) (boundedDelay s stop)
  refine ⟨rx, ?_⟩
  rw [sendDone, sendStopped, drawDelay_sh]
  show (ticks (sendComplete (sendStarted byte (sendArmed byte s q) q)).hostDelay _).sh = _
  rw [hostDelay_complete h, hend, hsh]
  simp only [h.idle]

theorem started_div : (sendStarted byte (sendArmed byte s q) q).sh.div = s.sh.div := by
  have hsh := sendArmed_sh h
  rw [sendStarted_div (by rw [hsh, h.enabled]) (by rw [hsh, h.idle]), hsh]

theorem started_tm : (sendStarted byte (sendArmed byte s q) q).tm =
    (ticks (boundedDelay s arm) (armTimer (ticks s.hostDelay s))).tm := by
  have harm : (sendArmed byte s q).tm = (armTimer (ticks s.hostDelay s)).tm := by simp [sendArmed, armTimer]
  rw [sendStarted, drawDelay_tm, startTransfer_tm, atCommand_tm, (sendArmed_delays h).1, ticks_tm_congr harm]

/-- The timer, armed when the SEND begins, runs until its TM_STOP. -/
theorem sendDone_tm : (sendDone byte s q).tm =
    { (ticks (boundedDelay s arm + 8 * s.sh.div.toNat + boundedDelay s stop) (armTimer (ticks s.hostDelay s))).tm with
      run := false } := by
  rw [sendDone, sendStopped, drawDelay_tm, stopTimer_tm, atCommand_tm, hostDelay_complete h, sendComplete,
    started_div h, ← ticks_add, ticks_tm_congr (started_tm h), ← ticks_add, Nat.add_assoc]

theorem sendDone_t : (sendDone byte s q).t =
    s.t + s.hostDelay + boundedDelay s arm + 8 * s.sh.div.toNat + boundedDelay s stop := by
  have harm : (sendArmed byte s q).t = s.t + s.hostDelay := by simp [sendArmed, armTimer]
  have hxfer : (sendStarted byte (sendArmed byte s q) q).t = s.t + s.hostDelay + boundedDelay s arm := by
    rw [sendStarted, drawDelay_t, startTransfer]
    simp [harm, (sendArmed_delays h).1]
  rw [sendDone, sendStopped, drawDelay_t, stopTimer, State.setTimer_t, atCommand_t, hostDelay_complete h,
    sendComplete, ticks_t, started_div h, hxfer]

/-- The samples of OUT that a SEND records: low but for the transfer. -/
theorem outTrace_sendDone (hlc : CombinerReady s.lc) : (sendDone byte s q).outTrace = s.outTrace ++
    List.replicate s.hostDelay false ++ List.replicate (boundedDelay s arm) false ++
    (List.range (8 * s.sh.div.toNat)).map (fun j => outPin (ticks j (sendStarted byte (sendArmed byte s q) q))) ++
    List.replicate (boundedDelay s stop) false := by
  have hsh := sendArmed_sh h
  have hlcArmed : CombinerReady (sendArmed byte s q).lc := by simpa [sendArmed, armTimer] using hlc
  have hlcDone : CombinerReady (sendComplete (sendStarted byte (sendArmed byte s q) q)).lc := by
    simpa [sendComplete, sendStarted, startTransfer] using hlcArmed
  obtain ⟨rx, hend⟩ := ticks_sh_sendComplete (byte := byte) (q := q) (by rw [hsh, h.enabled]) (by rw [hsh, h.idle])
    (by rw [hsh]; exact h.div) 0
  have hidle : (sendComplete (sendStarted byte (sendArmed byte s q) q)).sh.busy = false := by
    rw [ticks_zero] at hend
    rw [hend]
  have harm : (sendArmed byte s q).outTrace = s.outTrace ++ List.replicate s.hostDelay false := by
    rw [← outTrace_ticks_low h.idle hlc]
    exact outTrace_congr (by simp [sendArmed, armTimer])
  have hxfer : (sendStarted byte (sendArmed byte s q) q).outTrace =
      (sendArmed byte s q).outTrace ++ List.replicate (boundedDelay s arm) false := by
    rw [← (sendArmed_delays h).1, ← outTrace_ticks_low (by rw [hsh, h.idle]) hlcArmed]
    exact outTrace_congr (by simp [sendStarted, startTransfer])
  have hstop : (sendDone byte s q).outTrace =
      (sendComplete (sendStarted byte (sendArmed byte s q) q)).outTrace ++
        List.replicate (boundedDelay s stop) false := by
    rw [← hostDelay_complete h, ← outTrace_ticks_low hidle hlcDone]
    exact outTrace_congr (by simp [sendDone, sendStopped, stopTimer])
  rw [hstop, sendComplete, outTrace_ticks, started_div h, hxfer, harm]

end Send

/-- Settles O29: `run_sendDone` with no delay before the SEND. -/
theorem sendRunsThrough : Obligations.SendRunsThrough := by
  intro byte s q arm stop gap ds hc hbegun he hb hdiv hw hd hq hds
  have h : SendReady byte arm stop gap q ds s :=
    ⟨hc, he, hb, hdiv, run_send hc hbegun (waitPending_of_none hw) hq, hds⟩
  have hrun := run_sendDone h
  have ht := sendDone_t h
  have htm := sendDone_tm h
  obtain ⟨hdelay, hrest⟩ := sendDone_delays h
  obtain ⟨rx, hsh⟩ := sendDone_sh h
  obtain ⟨hcfg, hlc, hie, hbegun', hwait, hqueue, hstream, happ⟩ := sendDone_frame byte s q
  rw [hd] at hrun ht htm
  rw [Nat.zero_add, ← Nat.add_assoc, ← Nat.add_assoc] at hrun
  refine ⟨_, hrun, ht, hdelay, hrest, hqueue, hstream, hcfg, hlc, hie, hbegun'.trans hbegun, hwait, happ, ?_, ?_, ?_⟩
  · rw [hsh]
  · rw [htm, ticks_zero, ticks_tm_eq]
    rfl
  · rw [htm]
    exact wo_of_stopped rfl

/-! ### The samples of an aligned SEND (44_machine_step.md R142) -/

/-- OUT at tick `j` of an aligned byte is the waveform of R141. -/
theorem outPin_ticks_aligned {byte : Byte} {s : State} (hlc : CombinerReady s.lc) (he : s.sh.en = true)
    (hb : s.sh.busy = false) (h2 : 2 ∣ s.sh.div.toNat) (hr : s.tm.run = true)
    (hn : s.tm.top.toNat + 1 = s.sh.div.toNat)
    (h0 : (ticks (riseOffset s.sh.ckph s.sh.div.toNat) s).tm.cnt = 0#8) {j : Nat} (hj : j < 8 * s.sh.div.toNat) :
    outPin (ticks j (startTransfer byte s)) = waveBit s.sh.ckph s.sh.div.toNat s.tm.cmp.toNat byte j := by
  have hN : 0 < s.sh.div.toNat := by omega
  have hstart : (ticks (riseOffset s.sh.ckph s.sh.div.toNat) (startTransfer byte s)).tm.cnt = 0#8 := by
    rw [ticks_tm_congr (startTransfer_tm byte s), h0]
  have hwave := bitWaveform byte s _ (j / s.sh.div.toNat) (j % s.sh.div.toNat) hlc he hb h2 hr hn
    (exec_shXfer byte s) hstart (Nat.div_lt_of_lt_mul (by rwa [Nat.mul_comm])) (Nat.mod_lt j hN)
  rw [Nat.div_add_mod'] at hwave
  rw [Bool.eq_iff_iff, hwave, waveBit]
  simp [and_assoc]

/-- What BEGIN leaves of a state and every frame keeps: a session under `c`, no wait pending. -/
structure Session (c : Cfg) (s : State) : Prop where
  legal : cfgOk c = true
  cfg : s.cfg = c
  begun : s.begun = true
  ready : CombinerReady s.lc
  enabled : s.sh.en = true
  idle : s.sh.busy = false
  ckph : s.sh.ckph = c.ckph
  div : s.sh.div = BitVec.ofNat 8 c.nBit
  top : s.tm.top = BitVec.ofNat 8 c.tTop
  cmp : s.tm.cmp = BitVec.ofNat 8 c.tCmp
  noWait : waitPending s = false

section Session

variable {c : Cfg} {s : State} (hs : Session c s)
include hs

theorem Session.toNat_div : s.sh.div.toNat = c.nBit := by
  rw [hs.div, toNat_ofNat_nBit ((cfgOk_iff c).mp hs.legal)]

/-- The timer's period is one bit cell (00_scope.md R6 (b)). -/
theorem Session.toNat_top : s.tm.top.toNat = c.tTop ∧ c.tTop + 1 = c.nBit := by
  obtain ⟨⟨-, hlow, hhigh⟩, htop, -⟩ := (cfgOk_iff c).mp hs.legal
  rw [hs.top, BitVec.toNat_ofNat]
  omega

theorem Session.toNat_cmp : s.tm.cmp.toNat = c.tCmp := by
  obtain ⟨⟨-, -, hhigh⟩, -, ⟨-, hcmp⟩, -⟩ := (cfgOk_iff c).mp hs.legal
  rw [hs.cmp, BitVec.toNat_ofNat]
  omega

theorem Session.sendReady {byte : Byte} {arm stop gap : Nat} {q : List QueueItem} {ds : List Nat}
    (hfirst : runSteps (s.hostDelay + 1) s = .next (sendArmed byte s q))
    (hds : s.delays = arm :: stop :: gap :: ds) : SendReady byte arm stop gap q ds s := by
  obtain ⟨⟨-, hlow, -⟩, -⟩ := (cfgOk_iff c).mp hs.legal
  exact ⟨hs.cfg ▸ hs.legal, hs.enabled, hs.idle, by rw [hs.toNat_div]; omega, hfirst, hds⟩

/-- A SEND ends as it began, in the session. -/
theorem Session.sendDone {byte : Byte} {arm stop gap : Nat} {q : List QueueItem} {ds : List Nat}
    (h : SendReady byte arm stop gap q ds s) : Session c (sendDone byte s q) := by
  obtain ⟨hcfg, hlc, -, hbegun, hwait, -⟩ := sendDone_frame byte s q
  obtain ⟨rx, hsh⟩ := sendDone_sh h
  obtain ⟨-, htop, hcmp, -⟩ := ticks_tm_fields
    (boundedDelay s arm + 8 * s.sh.div.toNat + boundedDelay s stop) (armTimer (ticks s.hostDelay s))
  obtain ⟨-, htop', hcmp', -⟩ := ticks_tm_fields s.hostDelay s
  exact {
    legal := hs.legal
    cfg := hcfg.trans hs.cfg
    begun := hbegun.trans hs.begun
    ready := by rw [hlc]; exact hs.ready
    enabled := by rw [hsh]; exact hs.enabled
    idle := by rw [hsh]; exact hs.idle
    ckph := by rw [hsh]; exact hs.ckph
    div := by rw [hsh]; exact hs.div
    top := by rw [sendDone_tm h]; exact htop.trans (htop'.trans hs.top)
    cmp := by rw [sendDone_tm h]; exact hcmp.trans (hcmp'.trans hs.cmp)
    noWait := waitPending_of_none hwait }

/-- The timer of an aligned SEND is at count 0 at the first rise of its transfer (R142). -/
theorem cnt_at_first_rise {arm : Nat} (halign : AlignedDelay c.tweak c.tTop c.nBit c.ckph arm) (n : Nat) :
    (ticks (arm + riseOffset c.ckph c.nBit) (armTimer (ticks n s))).tm.cnt = 0#8 := by
  obtain ⟨-, -, -, -, htw, -⟩ := (cfgOk_iff c).mp hs.legal
  obtain ⟨htop, hperiod⟩ := hs.toNat_top
  obtain ⟨-, htopN, -⟩ := ticks_tm_fields n s
  have htweak : (ticks n s).cfg.tweak = c.tweak := by rw [ticks_cfg, hs.cfg]
  have htop' : (ticks n s).tm.top.toNat = c.tTop := by rw [htopN, htop]
  have hiff := alignmentCondition (ticks n s) _ c.nBit arm c.ckph (by rwa [htweak]) (by rw [htop', hperiod])
    (exec_tmArm _)
  rw [htweak, htop'] at hiff
  exact hiff.mp halign

/-- The transfer of a SEND whose arming delay aligns it. -/
theorem outPin_sendStarted {byte : Byte} {arm stop gap : Nat} {q : List QueueItem} {ds : List Nat}
    (h : SendReady byte arm stop gap q ds s)
    (halign : AlignedDelay c.tweak c.tTop c.nBit c.ckph (boundedDelay s arm)) {j : Nat} (hj : j < 8 * c.nBit) :
    outPin (ticks j (sendStarted byte (sendArmed byte s q) q)) = waveBit c.ckph c.nBit c.tCmp byte j := by
  obtain ⟨⟨heven, -⟩, -⟩ := (cfgOk_iff c).mp hs.legal
  obtain ⟨htop, hperiod⟩ := hs.toNat_top
  have hsh := atCommand_sh_of_idle (s := sendArmed byte s q) (by rw [sendArmed_sh h, hs.idle]) (plainItem .tmStop :: q)
  rw [sendArmed_sh h] at hsh
  have hlc : CombinerReady (atCommand (sendArmed byte s q) (plainItem .tmStop :: q)).lc := by
    simpa [sendArmed, armTimer] using hs.ready
  have htm := started_tm h
  rw [sendStarted, drawDelay_tm, startTransfer_tm] at htm
  obtain ⟨-, htopA, hcmpA, hrunA⟩ := ticks_tm_fields (boundedDelay s arm) (armTimer (ticks s.hostDelay s))
  obtain ⟨-, htopG, hcmpG, -⟩ := ticks_tm_fields s.hostDelay s
  have hrun : (armTimer (ticks s.hostDelay s)).tm.run = true := rfl
  have htop' : (armTimer (ticks s.hostDelay s)).tm.top = s.tm.top := htopG
  have hcmp : (armTimer (ticks s.hostDelay s)).tm.cmp = s.tm.cmp := hcmpG
  have hwave := outPin_ticks_aligned (byte := byte) (j := j) hlc (by rw [hsh, hs.enabled]) (by rw [hsh, hs.idle])
    (by rw [hsh, hs.toNat_div]; exact heven) (by rw [htm, hrunA, hrun])
    (by rw [htm, htopA, htop', htop, hsh, hs.toNat_div, hperiod])
    (by rw [hsh, hs.toNat_div, hs.ckph, ticks_tm_congr htm, ← ticks_add]; exact cnt_at_first_rise hs halign _)
    (by rw [hsh, hs.toNat_div]; exact hj)
  rw [sendStarted, outPin_ticks_drawDelay (by exact hlc), hwave, htm, hcmpA, hcmp, hs.toNat_cmp,
    hsh, hs.toNat_div, hs.ckph]

/-- One SEND on the wire (R142), the delay before it included. -/
theorem outTrace_sendDone_aligned {byte : Byte} {arm stop gap : Nat} {q : List QueueItem} {ds : List Nat}
    (h : SendReady byte arm stop gap q ds s)
    (halign : AlignedDelay c.tweak c.tTop c.nBit c.ckph (boundedDelay s arm)) :
    (Machine.sendDone byte s q).outTrace = s.outTrace ++ List.replicate s.hostDelay false ++
      List.replicate (boundedDelay s arm) false ++ waveByte c.ckph c.nBit c.tCmp byte ++
      List.replicate (boundedDelay s stop) false := by
  have hwave : (List.range (8 * c.nBit)).map (fun j => outPin (ticks j (sendStarted byte (sendArmed byte s q) q))) =
      waveByte c.ckph c.nBit c.tCmp byte :=
    List.map_congr_left fun j hj => outPin_sendStarted hs h halign (List.mem_range.mp hj)
  rw [outTrace_sendDone h hs.ready, hs.toNat_div, hwave]

end Session

/-- Settles O49: `outTrace_sendDone_aligned` with no delay before the SEND. -/
theorem sendOnTheWire : Obligations.SendOnTheWire := by
  intro byte s q arm stop gap ds hc hbegun hlc he hb hckph hdiv htop hcmp hw hd hq hds halign
  have hs : Session s.cfg s :=
    ⟨hc, rfl, hbegun, hlc, he, hb, hckph, hdiv, htop, hcmp, waitPending_of_none hw⟩
  have h := hs.sendReady (run_send hc hbegun hs.noWait hq) hds
  have hrun := run_sendDone h
  have hout := outTrace_sendDone_aligned hs h halign
  obtain ⟨-, -, -, -, -, hqueue, -⟩ := sendDone_frame byte s q
  rw [hd, Nat.zero_add, ← Nat.add_assoc, ← Nat.add_assoc, hs.toNat_div] at hrun
  rw [hd, List.replicate_zero, List.append_nil] at hout
  exact ⟨_, hrun, hqueue, hout⟩

end Sys2Proof.Machine
end


section
/-! PROOF. The end of a WRITE_ALL: IRQ_ON, LATCH and the latch delay (43_facade.md R125, R127). -/

namespace Sys2Proof.Machine

/-! ### The commands of a WRITE_ALL but for its WRITEs -/

/-- The state a WRITE_ALL's own step leaves, `s` being the state it is applied to. -/
def frameBegun (pixels : List Pixel) (s : State) : State := drawDelay ((s.prepend (afterIrqOff pixels)).setIe false)

/-- The state the frame's IRQ_ON leaves. -/
def irqOnDone (s : State) (q : List QueueItem) : State := drawDelay ((atCommand s q).setIe true)

/-- The state the frame's LATCH leaves. -/
def latchDone (s : State) (q : List QueueItem) : State :=
  drawDelay ((atCommand s q).setWait (.latch s.cfg.latchTicks))

/-- The state at the end of the latch delay, `s` being the state before the frame's IRQ_ON. -/
def frameEnd (s : State) (q : List QueueItem) : State :=
  ticks s.cfg.latchTicks (latchDone (irqOnDone s (plainItem .latch :: q)) q)

theorem run_writeAll {pixels : List Pixel} {s : State} {q : List QueueItem} (hc : cfgOk s.cfg = true)
    (hbegun : s.begun = true) (hw : waitPending s = false) (hq : s.queue = plainItem (.writeAll pixels) :: q) :
    runSteps (s.hostDelay + 1) s = .next (frameBegun pixels (atCommand s q)) :=
  run_queued_command hc (cmdEnabled_of_queue hq hw) hq (ifBegun_of_begun ((atCommand_begun s q).trans hbegun))

theorem run_irqOn {s : State} {q : List QueueItem} (hc : cfgOk s.cfg = true) (hw : waitPending s = false)
    (hq : s.queue = plainItem .irqOn :: q) : runSteps (s.hostDelay + 1) s = .next (irqOnDone s q) :=
  run_queued_command hc (cmdEnabled_of_queue hq hw) hq (exec_irqOn _)

theorem run_latch {s : State} {q : List QueueItem} (hc : cfgOk s.cfg = true) (hw : waitPending s = false)
    (hq : s.queue = plainItem .latch :: q) : runSteps (s.hostDelay + 1) s = .next (latchDone s q) := by
  have hx : exec .latch (atCommand s q) = .next ((atCommand s q).setWait (.latch s.cfg.latchTicks)) := by
    rw [exec_latch, atCommand_cfg]
  exact run_queued_command hc (cmdEnabled_of_queue hq hw) hq hx

theorem latchDone_wait (s : State) (q : List QueueItem) : (latchDone s q).wait = .latch s.cfg.latchTicks := by
  rw [latchDone, drawDelay_wait, State.setWait_wait]

@[simp] theorem irqOnDone_cfg (s : State) (q : List QueueItem) : (irqOnDone s q).cfg = s.cfg := by simp [irqOnDone]

theorem irqOnDone_sh {s : State} (hb : s.sh.busy = false) (q : List QueueItem) : (irqOnDone s q).sh = s.sh := by
  rw [irqOnDone, drawDelay_sh]
  exact atCommand_sh_of_idle hb q

theorem latchDone_sh {s : State} (hb : s.sh.busy = false) (q : List QueueItem) : (latchDone s q).sh = s.sh := by
  rw [latchDone, drawDelay_sh]
  exact atCommand_sh_of_idle hb q

/-! ### The end of a frame -/

theorem waitPending_frameEnd (s : State) (q : List QueueItem) : waitPending (frameEnd s q) = false := by
  rw [frameEnd, waitPending_ticks_latch (latchDone_wait _ q), irqOnDone_cfg, decide_eq_false (Nat.lt_irrefl _)]

section FrameEnd

variable {s : State} {q : List QueueItem} {d e : Nat} {ds : List Nat} (hds : s.delays = d :: e :: ds)
include hds

theorem irqOnDone_delays : (irqOnDone s q).hostDelay = d ∧ (irqOnDone s q).delays = e :: ds := by
  have hgiven : ((atCommand s q).setIe true).delays = d :: e :: ds := (atCommand_delays s q).trans hds
  obtain ⟨hdelay, hrest⟩ := drawDelay_of_given hgiven
  exact ⟨hdelay.trans (boundedDelay_of_ie rfl d), hrest⟩

theorem latchDone_delays :
    (latchDone (irqOnDone s (plainItem .latch :: q)) q).hostDelay = e ∧
      (latchDone (irqOnDone s (plainItem .latch :: q)) q).delays = ds := by
  have hgiven : ((atCommand (irqOnDone s (plainItem .latch :: q)) q).setWait
      (.latch (irqOnDone s (plainItem .latch :: q)).cfg.latchTicks)).delays = e :: ds := by
    rw [← (irqOnDone_delays (q := plainItem .latch :: q) hds).2]
    simp
  obtain ⟨hdelay, hrest⟩ := drawDelay_of_given hgiven
  exact ⟨hdelay.trans (boundedDelay_of_ie (by simp [irqOnDone]) e), hrest⟩

/-- LATCH's delay waits until the latch delay is over. -/
theorem frameEnd_delays : (frameEnd s q).hostDelay = e ∧ (frameEnd s q).delays = ds := by
  obtain ⟨hdelay, hrest⟩ := latchDone_delays (q := q) hds
  refine ⟨(hostDelay_ticks_of_pending fun j hj => ?_).trans hdelay, (ticks_delays _ _).trans hrest⟩
  rw [waitPending_ticks_latch (latchDone_wait _ q), irqOnDone_cfg, decide_eq_true hj]

/-- The steps of the end of a frame: IRQ_ON, LATCH, the delays before them, and the latch delay. -/
theorem run_frameEnd (hc : cfgOk s.cfg = true) (hw : waitPending s = false)
    (hq : s.queue = plainItem .irqOn :: plainItem .latch :: q) :
    runSteps (s.hostDelay + 1 + (d + 1) + s.cfg.latchTicks) s = .next (frameEnd s q) := by
  have hlatch : runSteps (d + 1) (irqOnDone s (plainItem .latch :: q)) =
      .next (latchDone (irqOnDone s (plainItem .latch :: q)) q) :=
    (irqOnDone_delays hds).1 ▸ run_latch (q := q) (by rwa [irqOnDone_cfg]) (waitPending_of_none (by simp [irqOnDone]))
      (by simp [irqOnDone])
  refine runSteps_trans (runSteps_trans (run_irqOn hc hw hq) hlatch) ?_
  refine runSteps_ticks (by simpa [latchDone, irqOnDone] using hc) fun j hj => ?_
  exact hostActs_ticks_latch (latchDone_wait _ q) (by rwa [irqOnDone_cfg])

/-- What the end of a frame leaves alone; IE is 1 again. -/
theorem frameEnd_frame (hb : s.sh.busy = false) : (frameEnd s q).cfg = s.cfg ∧ (frameEnd s q).sh = s.sh ∧
    (frameEnd s q).tm = (ticks (s.hostDelay + d + s.cfg.latchTicks) s).tm ∧ (frameEnd s q).lc = s.lc ∧
    (frameEnd s q).ie = true ∧ (frameEnd s q).begun = s.begun ∧ (frameEnd s q).queue = q ∧
    (frameEnd s q).stream = s.stream ∧ (frameEnd s q).t = s.t + s.hostDelay + d + s.cfg.latchTicks := by
  have hsh := irqOnDone_sh hb (plainItem .latch :: q)
  have hsh' := (latchDone_sh (by rw [hsh, hb]) q).trans hsh
  have hdelay := (irqOnDone_delays (q := plainItem .latch :: q) hds).1
  have htm : (irqOnDone s (plainItem .latch :: q)).tm = (ticks s.hostDelay s).tm := by simp [irqOnDone]
  have htm' : (latchDone (irqOnDone s (plainItem .latch :: q)) q).tm = (ticks (s.hostDelay + d) s).tm := by
    rw [latchDone, drawDelay_tm, State.setWait_tm, atCommand_tm, hdelay, ticks_tm_congr htm, ticks_add]
  have ht : (latchDone (irqOnDone s (plainItem .latch :: q)) q).t = s.t + s.hostDelay + d := by
    rw [latchDone, drawDelay_t, State.setWait_t, atCommand_t, hdelay, irqOnDone, drawDelay_t, State.setIe_t,
      atCommand_t]
  refine ⟨?_, ?_, ?_, ?_, ?_, ?_, ?_, ?_, ?_⟩
  · simp [frameEnd, latchDone, irqOnDone]
  · rw [frameEnd, ticks_sh_of_idle (by rw [hsh', hb]), hsh']
  · rw [frameEnd, ticks_tm_congr htm', ← ticks_add]
  · simp [frameEnd, latchDone, irqOnDone]
  · simp [frameEnd, latchDone, irqOnDone]
  · simp [frameEnd, latchDone, irqOnDone]
  · simp [frameEnd, latchDone]
  · simp [frameEnd, latchDone, irqOnDone]
  · rw [frameEnd, ticks_t, ht]

/-- The line is low from the end of the last byte to the end of the latch delay. -/
theorem outTrace_frameEnd (hb : s.sh.busy = false) (hlc : CombinerReady s.lc) : (frameEnd s q).outTrace =
    s.outTrace ++ List.replicate (s.hostDelay + d + s.cfg.latchTicks) false := by
  have hsh := irqOnDone_sh hb (plainItem .latch :: q)
  have hsh' := (latchDone_sh (by rw [hsh, hb]) q).trans hsh
  have hon : (irqOnDone s (plainItem .latch :: q)).outTrace = s.outTrace ++ List.replicate s.hostDelay false := by
    rw [← outTrace_ticks_low hb hlc]
    exact outTrace_congr (by simp [irqOnDone])
  have hlatch : (latchDone (irqOnDone s (plainItem .latch :: q)) q).outTrace =
      (irqOnDone s (plainItem .latch :: q)).outTrace ++ List.replicate d false := by
    rw [← (irqOnDone_delays (q := plainItem .latch :: q) hds).1,
      ← outTrace_ticks_low (by rw [hsh, hb]) (by simpa [irqOnDone] using hlc)]
    exact outTrace_congr (by simp [latchDone])
  rw [frameEnd, outTrace_ticks_low (by rw [hsh', hb]) (by simpa [latchDone, irqOnDone] using hlc), hlatch, hon,
    List.replicate_add, List.replicate_add]
  simp only [List.append_assoc]

end FrameEnd

/-- The delay that the frame's IRQ_OFF draws is bounded by `L_MAX` (43_facade.md R126). -/
theorem frameBegun_delays {pixels : List Pixel} {s : State} {d : Nat} {ds : List Nat} (hds : s.delays = d :: ds) :
    (frameBegun pixels s).hostDelay = min d s.cfg.lMax ∧ (frameBegun pixels s).delays = ds :=
  drawDelay_of_given (s := (s.prepend (afterIrqOff pixels)).setIe false) hds

/-- Settles O37: with no pixel the end of the frame follows at once on its IRQ_OFF. -/
theorem emptyFrame : Obligations.EmptyFrame := by
  intro s q d1 d2 d3 ds hc hbegun hb hr hlc hw _ hd hmax hq hds
  have hfirst := run_writeAll hc hbegun (waitPending_of_none hw) hq
  have hfds : (atCommand s q).delays = d1 :: d2 :: d3 :: ds := (atCommand_delays s q).trans hds
  obtain ⟨hdelay, hrest⟩ := frameBegun_delays (pixels := []) hfds
  rw [atCommand_cfg, Nat.min_eq_left hmax] at hdelay
  have hsh : (frameBegun [] (atCommand s q)).sh = s.sh := by
    rw [frameBegun, drawDelay_sh]
    exact atCommand_sh_of_idle hb q
  have htm : (frameBegun [] (atCommand s q)).tm = s.tm := by
    rw [frameBegun, drawDelay_tm]
    exact ticks_tm_of_stopped hr s.hostDelay
  have hcfg : (frameBegun [] (atCommand s q)).cfg = s.cfg := by simp [frameBegun]
  have hend := run_frameEnd (q := q) hrest (by rwa [hcfg]) (waitPending_of_none (by simp [frameBegun]))
    (by simp [frameBegun, afterIrqOff])
  obtain ⟨-, hesh, hetm, helc, heie, -, heq, hestream, het⟩ :=
    frameEnd_frame (q := q) hrest (by rw [hsh, hb])
  have hout := outTrace_frameEnd (q := q) hrest (by rw [hsh, hb]) (by simpa [frameBegun] using hlc)
  have hout0 : (frameBegun [] (atCommand s q)).outTrace = s.outTrace :=
    outTrace_congr (by simp [frameBegun, hd])
  rw [hdelay, hcfg] at hend hout het
  rw [hd] at hfirst
  have hrun := runSteps_trans hfirst hend
  rw [show 0 + 1 + (d1 + 1 + (d2 + 1) + s.cfg.latchTicks) = 1 + d1 + 1 + d2 + 1 + s.cfg.latchTicks by omega] at hrun
  refine ⟨_, hrun, ?_, hesh.trans hsh, ?_, ?_, heie, heq, ?_, waitPending_frameEnd _ q, ?_⟩
  · rw [het]
    simp [frameBegun, hd]
  · rw [hetm, ticks_tm_of_stopped (by rw [htm, hr]), htm]
  · rw [helc]
    simp [frameBegun]
  · rw [hestream]
    simp [frameBegun]
  · rw [hout, hout0]

end Sys2Proof.Machine
end


section
/-! PROOF. The observer on the wire (44_machine_step.md R148, R149): a byte's waveform is a high run per bit, and
the observer reads the bits of frames whose gaps are short and whose ends are long. -/

namespace Sys2Proof.Machine

/-! ### A byte as bit cells (R141) -/

/-- The length of the high run of a bit: `H` for 1, `W` for 0. -/
def bitWidth (n w : Nat) (b : Bool) : Nat := if b then n / 2 else w

/-- The samples of one bit cell: low up to the rise, the high run, low to the end of the cell. -/
def bitCell (ckph : Bool) (n w : Nat) (b : Bool) : List Bool :=
  List.replicate (riseOffset ckph n) false ++ List.replicate (bitWidth n w b) true ++
    List.replicate (n - riseOffset ckph n - bitWidth n w b) false

theorem map_range_mul (f : Nat → Bool) (m n : Nat) : (List.range (m * n)).map f =
    (List.range m).flatMap (fun i => (List.range n).map (fun k => f (i * n + k))) := by
  induction m with
  | zero => simp
  | succ m ih =>
    rw [Nat.succ_mul, List.range_add, List.map_append, ih, List.range_succ, List.flatMap_append]
    simp [Function.comp_def]

/-- A block of highs between lows. -/
theorem map_range_block (a w n : Nat) (h : a + w ≤ n) :
    (List.range n).map (fun k => decide (a ≤ k ∧ k < a + w)) =
      List.replicate a false ++ List.replicate w true ++ List.replicate (n - a - w) false := by
  obtain ⟨z, rfl⟩ := Nat.exists_eq_add_of_le h
  rw [List.range_add, List.map_append, List.range_add, List.map_append, show a + w + z - a - w = z by omega]
  congr 1
  · congr 1
    · rw [List.eq_replicate_iff]
      simp
      omega
    · rw [List.eq_replicate_iff]
      simp
  · rw [List.eq_replicate_iff]
    simp

theorem bitWidth_le {n w : Nat} (hw : w ≤ n / 2) (b : Bool) : w ≤ bitWidth n w b ∧ bitWidth n w b ≤ n / 2 := by
  cases b with
  | false => exact ⟨Nat.le_refl w, hw⟩
  | true => exact ⟨hw, Nat.le_refl _⟩

theorem riseOffset_add_half_le (ckph : Bool) (n : Nat) : riseOffset ckph n + n / 2 ≤ n := by
  cases ckph with
  | false => simp only [riseOffset]; simp; omega
  | true => simp only [riseOffset]; simp; omega

/-- The samples of a byte are the cells of its bits, most significant first. -/
theorem waveByte_eq_cells {n w : Nat} (hw : w ≤ n / 2) (ckph : Bool) (byte : Byte) :
    waveByte ckph n w byte = (byteBits byte).flatMap (bitCell ckph n w) := by
  rw [waveByte, map_range_mul, byteBits, List.flatMap_map]
  refine List.flatMap_congr fun i _ => ?_
  have hwidth := bitWidth_le hw (byte.getLsbD (7 - i))
  have hrise := riseOffset_add_half_le ckph n
  rw [bitCell, ← map_range_block _ _ _ (by omega)]
  refine List.map_congr_left fun k hk => ?_
  have hk : k < n := List.mem_range.mp hk
  have hquot : (i * n + k) / n = i := by
    rw [Nat.mul_comm, Nat.mul_add_div (by omega), Nat.div_eq_of_lt hk, Nat.add_zero]
  have hrem : (i * n + k) % n = k := by rw [Nat.mul_comm, Nat.mul_add_mod, Nat.mod_eq_of_lt hk]
  rw [waveBit, hquot, hrem, Bool.eq_iff_iff]
  cases hbit : byte.getLsbD (7 - i) with
  | true => simp [bitWidth]
  | false =>
    simp [bitWidth]
    omega

/-! ### Reading from inside a low run -/

/-- What the observer reads of `w` in a low run of `g` samples so far, with the bits `cur` of the frame so far. -/
def readFrom (thOne resetTicks g : Nat) (cur w : List Bool) : List (List Bool) × List Bool :=
  decodeRuns thOne resetTicks (runs (List.replicate g false ++ w)) cur

theorem decodeWave_eq_readFrom (thOne resetTicks : Nat) (w : List Bool) :
    decodeWave thOne resetTicks w = readFrom thOne resetTicks 0 [] w := rfl

theorem readFrom_low (thOne resetTicks g a : Nat) (cur w : List Bool) :
    readFrom thOne resetTicks g cur (List.replicate a false ++ w) = readFrom thOne resetTicks (g + a) cur w := by
  rw [readFrom, readFrom, List.replicate_add, List.append_assoc]

/-- The sequence does not go on with a high sample. -/
def StartsLow (w : List Bool) : Prop := w.head? ≠ some true

theorem fst_head_runs (b : Bool) (bs : List Bool) : ∃ n rest, runs (b :: bs) = (b, n) :: rest := by
  obtain ⟨n, rest, h⟩ | h := head_run_cases b (runs bs)
  · exact ⟨_, _, runs_cons_extends h⟩
  · exact ⟨_, _, runs_cons_starts h⟩

theorem head_runs_of_startsLow {w : List Bool} (h : StartsLow w) : ∀ r ∈ (runs w).head?, true ≠ r.1 := by
  cases w with
  | nil => exact nofun
  | cons b bs =>
    obtain ⟨n, rest, hruns⟩ := fst_head_runs b bs
    cases b with
    | true => exact absurd rfl h
    | false => simp [hruns]

/-- A block of lows in front is the beginning of a low run. -/
theorem runs_low_block (g : Nat) (w : List Bool) :
    ∃ m rest, g + 1 ≤ m ∧ runs (List.replicate (g + 1) false ++ w) = (false, m) :: rest := by
  induction g with
  | zero =>
    obtain ⟨n, rest, h⟩ | h := head_run_cases false (runs w)
    · exact ⟨_, _, by omega, runs_cons_extends h⟩
    · exact ⟨_, _, by omega, runs_cons_starts h⟩
  | succ g ih =>
    obtain ⟨m, rest, hm, hruns⟩ := ih
    exact ⟨m + 1, rest, by omega, runs_cons_extends hruns⟩

section Read

variable {thOne resetTicks : Nat} (hreset : 0 < resetTicks)

/-- A high run after a low run that does not close the frame gives a bit (R149). -/
theorem readFrom_high {g width : Nat} {cur rest : List Bool} (hw : 0 < width) (hrest : StartsLow rest)
    (hgap : cur = [] ∨ g < resetTicks) :
    readFrom thOne resetTicks g cur (List.replicate width true ++ rest) =
      readFrom thOne resetTicks 0 (cur ++ [decide (thOne ≤ width)]) rest := by
  obtain ⟨k, rfl⟩ := Nat.exists_eq_add_one.mpr hw
  have hhigh := runs_replicate_append (head_runs_of_startsLow hrest) k
  have hopen : ¬ (resetTicks ≤ g ∧ cur ≠ []) := by
    rintro ⟨hle, hne⟩
    exact hgap.elim hne (Nat.not_lt.mpr hle)
  cases g with
  | zero =>
    rw [readFrom, List.replicate_zero, List.nil_append, hhigh]
    rfl
  | succ g =>
    have hlow := runs_replicate_append (b := false) (w := List.replicate (k + 1) true ++ rest)
      (by rw [hhigh]; simp) g
    rw [readFrom, hlow, hhigh, decodeRuns, if_neg hopen]
    rfl

include hreset

/-- A low run of `RESET_TICKS` or more closes the frame, whatever follows (R149). -/
theorem readFrom_close {g : Nat} {cur : List Bool} (hg : resetTicks ≤ g) (hcur : cur ≠ []) (w : List Bool) :
    readFrom thOne resetTicks g cur w =
      (cur :: (readFrom thOne resetTicks g [] w).1, (readFrom thOne resetTicks g [] w).2) := by
  obtain ⟨k, rfl⟩ := Nat.exists_eq_add_one.mpr (hreset.trans_le hg)
  obtain ⟨m, rest, hm, hruns⟩ := runs_low_block k w
  have hclose : resetTicks ≤ m ∧ cur ≠ [] := ⟨hg.trans hm, hcur⟩
  have hopen : ¬ (resetTicks ≤ m ∧ ([] : List Bool) ≠ []) := fun h => h.2 rfl
  rw [readFrom, readFrom, hruns, decodeRuns, if_pos hclose, decodeRuns, if_neg hopen]

end Read

theorem readFrom_nil (thOne resetTicks g : Nat) : readFrom thOne resetTicks g [] [] = ([], []) := by
  cases g with
  | zero => rfl
  | succ g =>
    have hruns := runs_replicate_append (b := false) (w := []) nofun g
    have hopen : ¬ (resetTicks ≤ g + 1 ∧ ([] : List Bool) ≠ []) := fun h => h.2 rfl
    rw [readFrom, hruns, decodeRuns, if_neg hopen]
    rfl

/-! ### Reading bit cells -/

theorem startsLow_succ_low (a : Nat) (w : List Bool) : StartsLow (List.replicate (a + 1) false ++ w) := by
  simp [StartsLow, List.replicate_succ]

theorem startsLow_low {w : List Bool} (h : StartsLow w) (a : Nat) : StartsLow (List.replicate a false ++ w) := by
  cases a with
  | zero => exact h
  | succ a => exact startsLow_succ_low a w

/-- What may follow on a bit cell: with the rise in mid-cell a cell may end high, so a low sample must follow. -/
def Follows (ckph : Bool) (rest : List Bool) : Prop := ckph = true ∨ StartsLow rest

theorem follows_low {ckph : Bool} {rest : List Bool} (h : Follows ckph rest) (a : Nat) :
    Follows ckph (List.replicate a false ++ rest) := h.imp_right (fun h => startsLow_low h a)

theorem follows_cells {ckph : Bool} {n : Nat} (hn : 2 ≤ n) (w : Nat) (bs : List Bool) {rest : List Bool}
    (h : Follows ckph rest) : Follows ckph (bs.flatMap (bitCell ckph n w) ++ rest) := by
  cases bs with
  | nil => exact h
  | cons b bs =>
    cases ckph with
    | true => exact .inl rfl
    | false =>
      obtain ⟨k, hk⟩ : ∃ k, n / 2 = k + 1 := ⟨n / 2 - 1, by omega⟩
      refine .inr ?_
      simp [StartsLow, bitCell, riseOffset, hk, List.replicate_succ]

/-- The threshold tells a 1 from a 0. -/
theorem thOne_le_bitWidth {n w thOne : Nat} (hlow : w < thOne) (hhigh : thOne ≤ n / 2) (b : Bool) :
    decide (thOne ≤ bitWidth n w b) = b := by
  cases b with
  | false => exact decide_eq_false (Nat.not_le.mpr hlow)
  | true => exact decide_eq_true hhigh

theorem startsLow_cellEnd {ckph : Bool} {n w : Nat} (hn : 2 ≤ n) (hw : w ≤ n / 2) (b : Bool) {rest : List Bool}
    (h : Follows ckph rest) :
    StartsLow (List.replicate (n - riseOffset ckph n - bitWidth n w b) false ++ rest) := by
  obtain rfl | h := h
  · have hwidth := (bitWidth_le hw b).2
    obtain ⟨k, hk⟩ : ∃ k, n - riseOffset true n - bitWidth n w b = k + 1 := by
      refine ⟨n - bitWidth n w b - 1, ?_⟩
      simp only [riseOffset, if_true]
      omega
    rw [hk]
    exact startsLow_succ_low k rest
  · exact startsLow_low h _

section Cells

variable {ckph : Bool} {n w thOne resetTicks : Nat} (hpos : 0 < w) (hlow : w < thOne) (hhigh : thOne ≤ n / 2)
include hpos hlow hhigh

/-- A bit cell gives its bit. -/
theorem readFrom_cell (b : Bool) {g : Nat} {cur rest : List Bool} (hrest : Follows ckph rest)
    (hgap : cur = [] ∨ g + riseOffset ckph n < resetTicks) :
    readFrom thOne resetTicks g cur (bitCell ckph n w b ++ rest) =
      readFrom thOne resetTicks (n - riseOffset ckph n - bitWidth n w b) (cur ++ [b]) rest := by
  have hwidth := (bitWidth_le (n := n) (w := w) (by omega) b).1
  rw [bitCell, List.append_assoc, List.append_assoc, readFrom_low,
    readFrom_high (by omega) (startsLow_cellEnd (by omega) (by omega) b hrest) hgap, readFrom_low, Nat.zero_add,
    thOne_le_bitWidth hlow hhigh]

/-- The cells of bits one after the other give the bits, and leave a low run that fits into the last cell. -/
theorem readFrom_cells (hshort : n - w < resetTicks) (b : Bool) (bs : List Bool) {g : Nat} {cur rest : List Bool}
    (hrest : Follows ckph rest) (hgap : cur = [] ∨ g + riseOffset ckph n < resetTicks) :
    ∃ r ≤ n - riseOffset ckph n - w, readFrom thOne resetTicks g cur ((b :: bs).flatMap (bitCell ckph n w) ++ rest) =
      readFrom thOne resetTicks r (cur ++ b :: bs) rest := by
  have hwidth := bitWidth_le (n := n) (w := w) (by omega) b
  have hrise := riseOffset_add_half_le ckph n
  induction bs generalizing b g cur with
  | nil =>
    refine ⟨n - riseOffset ckph n - bitWidth n w b, by omega, ?_⟩
    rw [List.flatMap_cons, List.flatMap_nil, List.append_nil, readFrom_cell hpos hlow hhigh b hrest hgap]
  | cons b' bs ih =>
    have hnext := follows_cells (n := n) (by omega) w (b' :: bs) hrest
    have hgap' : n - riseOffset ckph n - bitWidth n w b + riseOffset ckph n < resetTicks := by omega
    obtain ⟨r, hr, hread⟩ := ih b' (cur := cur ++ [b]) (.inr hgap') (bitWidth_le (n := n) (w := w) (by omega) b')
    refine ⟨r, hr, ?_⟩
    rw [List.flatMap_cons, List.append_assoc, readFrom_cell hpos hlow hhigh b hnext hgap, hread]
    simp

end Cells

theorem byteBits_eq_cons (byte : Byte) : ∃ b bs, byteBits byte = b :: bs := ⟨_, _, rfl⟩

/-! ### Reading the SENDs of a frame -/

/-- The samples of a SEND: its arming delay, its byte, and the two delays after it. -/
def sendWave (c : Cfg) (x : Byte × SendDelays) : List Bool :=
  List.replicate x.2.arm false ++ waveByte c.ckph c.nBit c.tCmp x.1 ++ List.replicate x.2.stop false ++
    List.replicate x.2.gap false

section Sends

variable {c : Cfg} {thOne : Nat} (hpos : 0 < c.tCmp) (hlow : c.tCmp < thOne) (hhigh : thOne ≤ c.nBit / 2)
include hpos hlow hhigh

theorem follows_sends (l : List (Byte × SendDelays)) {rest : List Bool} (h : Follows c.ckph rest) :
    Follows c.ckph (l.flatMap (sendWave c) ++ rest) := by
  induction l with
  | nil => exact h
  | cons x l ih =>
    have hbyte := follows_cells (n := c.nBit) (by omega) c.tCmp (byteBits x.1)
      (follows_low (follows_low ih x.2.gap) x.2.stop)
    rw [← waveByte_eq_cells (by omega)] at hbyte
    rw [List.flatMap_cons, sendWave]
    simpa only [List.append_assoc] using follows_low hbyte x.2.arm

/-- A SEND gives the bits of its byte, and leaves a low run of its last cell and the delays after it. -/
theorem readFrom_send (hshort : c.nBit - c.tCmp < c.resetTicks) (x : Byte × SendDelays) {g : Nat}
    {cur rest : List Bool} (hrest : Follows c.ckph rest)
    (hgap : cur = [] ∨ g + x.2.arm + riseOffset c.ckph c.nBit < c.resetTicks) :
    ∃ r ≤ c.nBit - riseOffset c.ckph c.nBit - c.tCmp + x.2.stop + x.2.gap,
      readFrom thOne c.resetTicks g cur (sendWave c x ++ rest) =
        readFrom thOne c.resetTicks r (cur ++ byteBits x.1) rest := by
  obtain ⟨b, bs, hbits⟩ := byteBits_eq_cons x.1
  obtain ⟨r, hr, hread⟩ := readFrom_cells hpos hlow hhigh hshort b bs
    (follows_low (follows_low hrest x.2.gap) x.2.stop) hgap
  refine ⟨r + x.2.stop + x.2.gap, by omega, ?_⟩
  rw [sendWave, waveByte_eq_cells (by omega), hbits, List.append_assoc, List.append_assoc, List.append_assoc,
    readFrom_low, hread, readFrom_low, readFrom_low]

/-- The SENDs of a frame, the gaps between their bytes short, give the bits of their bytes (R145, R149). -/
theorem readFrom_sends (hshort : c.nBit - c.tCmp < c.resetTicks) (x : Byte × SendDelays)
    (l : List (Byte × SendDelays)) (hgaps : GapsShort c ((x :: l).map Prod.snd)) {g : Nat} {cur rest : List Bool}
    (hrest : Follows c.ckph rest)
    (hgap : cur = [] ∨ g + x.2.arm + riseOffset c.ckph c.nBit < c.resetTicks) :
    ∃ r, readFrom thOne c.resetTicks g cur ((x :: l).flatMap (sendWave c) ++ rest) =
      readFrom thOne c.resetTicks r (cur ++ ((x :: l).map Prod.fst).flatMap byteBits) rest := by
  induction l generalizing x g cur with
  | nil =>
    obtain ⟨r, -, hread⟩ := readFrom_send hpos hlow hhigh hshort x hrest hgap
    exact ⟨r, by simpa using hread⟩
  | cons y l ih =>
    obtain ⟨hfits, hgaps⟩ := hgaps
    have hnext := follows_sends hpos hlow hhigh (y :: l) hrest
    obtain ⟨r, hr, hread⟩ := readFrom_send hpos hlow hhigh hshort x hnext hgap
    have hrise := riseOffset_add_half_le c.ckph c.nBit
    have hgap' : r + y.2.arm + riseOffset c.ckph c.nBit < c.resetTicks := by omega
    obtain ⟨r', hread'⟩ := ih y hgaps (cur := cur ++ byteBits x.1) (.inr hgap')
    refine ⟨r', ?_⟩
    rw [List.flatMap_cons, List.append_assoc, hread, hread']
    simp

end Sends

end Sys2Proof.Machine
end


section
/-! PROOF. A driver run (44_machine_step.md R150): the frames the host sends are the frames the observer reads. -/

namespace Sys2Proof.Machine

/-! ### The samples of frames -/

/-- The bytes of a frame in wire order, each with the host's delays of its SEND. -/
def FramePlan.plannedSends (p : FramePlan) : List (Byte × SendDelays) := (p.pixels.flatMap wireOrder).zip p.sends

/-- The samples of a WRITE_ALL from its IRQ_OFF to the end of its latch delay. -/
def frameWave (c : Cfg) (p : FramePlan) : List Bool :=
  List.replicate (min p.afterIrqOff c.lMax) false ++ p.plannedSends.flatMap (sendWave c) ++
    List.replicate (p.afterIrqOn + c.latchTicks) false

/-- The samples of the frames, the host letting `g` ticks pass before the first. -/
def framesWave (c : Cfg) : Nat → List FramePlan → List Bool
  | _, [] => []
  | g, p :: plans => List.replicate g false ++ frameWave c p ++ framesWave c p.afterLatch plans

theorem length_flatMap_wireOrder (pixels : List Pixel) : (pixels.flatMap wireOrder).length = 3 * pixels.length := by
  induction pixels with
  | nil => rfl
  | cons p pixels ih =>
    rw [List.flatMap_cons, List.length_append, ih, List.length_cons, wireOrder]
    simp only [List.length_cons, List.length_nil]
    omega

theorem frameBits_eq (pixels : List Pixel) : frameBits pixels = (pixels.flatMap wireOrder).flatMap byteBits := by
  rw [frameBits, List.flatMap_assoc]

theorem resetTicks_pos {c : Cfg} (hc : CfgLegal c) : 0 < c.resetTicks := by
  obtain ⟨-, -, -, -, -, hf, hr⟩ := hc
  rw [hr, ticksOfMicros]
  omega

section Plan

variable {c : Cfg} {p : FramePlan} (hp : p.good c)
include hp

theorem FramePlan.length_eq : (p.pixels.flatMap wireOrder).length = p.sends.length := by
  obtain ⟨-, hlen, -⟩ := hp
  rw [length_flatMap_wireOrder, hlen]

theorem FramePlan.map_fst_plannedSends : p.plannedSends.map Prod.fst = p.pixels.flatMap wireOrder :=
  List.map_fst_zip (FramePlan.length_eq hp).le

theorem FramePlan.map_snd_plannedSends : p.plannedSends.map Prod.snd = p.sends :=
  List.map_snd_zip (FramePlan.length_eq hp).ge

/-- The gap premise bounds the gap inside a byte too, a frame with pixels having three bytes at least (R145). -/
theorem FramePlan.cell_gap_short (hne : p.pixels ≠ []) : c.nBit - c.tCmp < c.resetTicks := by
  obtain ⟨-, hlen, -, hgaps⟩ := hp
  have hpos := List.length_pos_iff.mpr hne
  match hs : p.sends with
  | [] | [_] =>
    rw [hs] at hlen
    simp only [List.length_cons, List.length_nil] at hlen
    omega
  | d :: e :: rest =>
    rw [hs] at hgaps
    obtain ⟨hgap, -⟩ := hgaps
    omega

end Plan

/-- A frame without pixels is low throughout. -/
theorem readFrom_frameWave_empty {c : Cfg} {thOne : Nat} {p : FramePlan} (hempty : p.pixels = []) (g : Nat)
    (rest : List Bool) :
    ∃ r, readFrom thOne c.resetTicks g [] (frameWave c p ++ rest) = readFrom thOne c.resetTicks r [] rest := by
  refine ⟨g + min p.afterIrqOff c.lMax + (p.afterIrqOn + c.latchTicks), ?_⟩
  rw [frameWave, FramePlan.plannedSends, hempty]
  simp only [List.flatMap_nil, List.zip_nil_left, List.append_nil, List.append_assoc]
  rw [readFrom_low, readFrom_low]

section Read

variable {c : Cfg} {thOne : Nat} (hc : CfgLegal c) (hlow : c.tCmp < thOne) (hhigh : thOne ≤ c.nBit / 2)
include hc hlow hhigh

/-- A frame with pixels is read as its bits: the latch delay closes it (R149). -/
theorem readFrom_frameWave {p : FramePlan} (hp : p.good c) (hne : p.pixels ≠ []) (g : Nat) (rest : List Bool) :
    ∃ r, readFrom thOne c.resetTicks g [] (frameWave c p ++ rest) =
      (frameBits p.pixels :: (readFrom thOne c.resetTicks r [] rest).1, (readFrom thOne c.resetTicks r [] rest).2) := by
  have hreset := resetTicks_pos hc
  obtain ⟨-, -, ⟨hpos, -⟩, hlatch, -⟩ := hc
  have hfst := FramePlan.map_fst_plannedSends hp
  have hsnd := FramePlan.map_snd_plannedSends hp
  have hgaps : GapsShort c p.sends := hp.2.2.2
  obtain ⟨x, l, hl⟩ : ∃ x l, p.plannedSends = x :: l := by
    refine List.exists_cons_of_ne_nil fun hnil => hne ?_
    have hlen := length_flatMap_wireOrder p.pixels
    rw [← hfst, hnil] at hlen
    exact List.length_eq_zero_iff.mp (by simpa using hlen)
  obtain ⟨k, hk⟩ : ∃ k, p.afterIrqOn + c.latchTicks = k + 1 := ⟨p.afterIrqOn + c.latchTicks - 1, by omega⟩
  have hrest : Follows c.ckph (List.replicate (p.afterIrqOn + c.latchTicks) false ++ rest) := by
    rw [hk]
    exact .inr (startsLow_succ_low k rest)
  rw [hl] at hfst hsnd
  obtain ⟨r, hread⟩ := readFrom_sends hpos hlow hhigh (FramePlan.cell_gap_short hp hne) x l (hsnd ▸ hgaps)
    (g := g + min p.afterIrqOff c.lMax) hrest (.inl rfl)
  have hbits : ([] : List Bool) ++ ((x :: l).map Prod.fst).flatMap byteBits = frameBits p.pixels := by
    rw [hfst, frameBits_eq, List.nil_append]
  have hsome : frameBits p.pixels ≠ [] := by
    rw [← hbits]
    simp [byteBits]
  refine ⟨r + (p.afterIrqOn + c.latchTicks), ?_⟩
  rw [frameWave, List.append_assoc, List.append_assoc, readFrom_low, hl, hread, hbits, readFrom_low,
    readFrom_close hreset (by omega) hsome]

/-- The observer reads the frames with pixels, in order, and nothing is left over (R150). -/
theorem readFrom_framesWave (plans : List FramePlan) (hplans : ∀ p ∈ plans, p.good c) (r g : Nat) :
    readFrom thOne c.resetTicks r [] (framesWave c g plans) =
      ((plans.filter (fun p => !p.pixels.isEmpty)).map (fun p => frameBits p.pixels), []) := by
  induction plans generalizing r g with
  | nil => exact readFrom_nil _ _ _
  | cons p plans ih =>
    obtain ⟨hp, hplans⟩ := List.forall_mem_cons.mp hplans
    rw [framesWave, List.append_assoc, readFrom_low]
    by_cases hempty : p.pixels = []
    · obtain ⟨r', hread⟩ := readFrom_frameWave_empty (thOne := thOne) hempty (r + g)
        (framesWave c p.afterLatch plans)
      rw [hread, ih hplans, List.filter_cons_of_neg (by simp [hempty])]
    · obtain ⟨r', hread⟩ := readFrom_frameWave hc hlow hhigh hp hempty (r + g) (framesWave c p.afterLatch plans)
      rw [hread, ih hplans, List.filter_cons_of_pos (by simp [hempty]), List.map_cons]

end Read

/-! ### The SENDs of a frame carried out -/

/-- The observation with the host's delay that is still to pass, on an idle line. -/
def pendingOut (s : State) : List Bool := s.outTrace ++ List.replicate s.hostDelay false

/-- A run from `s` to `u` records the samples `w` on OUT, each state's own delay counted as passed. -/
def Emits (s : State) (w : List Bool) (u : State) : Prop :=
  (∃ n, runSteps n s = .next u) ∧ pendingOut u = pendingOut s ++ w

theorem Emits.refl (s : State) : Emits s [] s := ⟨⟨0, rfl⟩, (List.append_nil _).symm⟩

theorem Emits.trans {s u v : State} {w x : List Bool} (h : Emits s w u) (h' : Emits u x v) :
    Emits s (w ++ x) v := by
  obtain ⟨⟨m, hm⟩, hw⟩ := h
  obtain ⟨⟨n, hn⟩, hx⟩ := h'
  exact ⟨⟨m + n, runSteps_trans hm hn⟩, by rw [hx, hw, List.append_assoc]⟩

/-- Delays of a SEND that the host can take with IE = 0 and that align its byte (R142, 60_exceptions.md R160). -/
def GoodDelays (c : Cfg) (d : SendDelays) : Prop :=
  d.arm ≤ c.lMax ∧ d.stop ≤ c.lMax ∧ d.gap ≤ c.lMax ∧ AlignedDelay c.tweak c.tTop c.nBit c.ckph d.arm

/-- A session inside a frame: IE is 0, and `q`, `ds`, `ws` are what is left to apply, to draw and to decode. -/
structure FrameState (c : Cfg) (q : List QueueItem) (ds : List Nat) (ws : List Word) (s : State) : Prop where
  session : Session c s
  masked : s.ie = false
  queue : s.queue = q
  delays : s.delays = ds
  stream : s.stream = ws

/-- One SEND of a frame, of its own or as the first of a WRITE. -/
theorem emits_sendDone {c : Cfg} {p q : List QueueItem} {ds : List Nat} {ws : List Word} {s : State} {byte : Byte}
    {d : SendDelays} (h : FrameState c p (d.arm :: d.stop :: d.gap :: ds) ws s) (hd : GoodDelays c d)
    (hfirst : runSteps (s.hostDelay + 1) s = .next (sendArmed byte s q)) :
    Emits s (sendWave c (byte, d)) (sendDone byte s q) ∧ FrameState c q ds ws (sendDone byte s q) := by
  obtain ⟨hs, hie, -, hds, hws⟩ := h
  obtain ⟨harm, hstop, hgap, halign⟩ := hd
  have hbound : ∀ n, n ≤ c.lMax → boundedDelay s n = n := fun n hn => boundedDelay_of_le (by rwa [hs.cfg])
  have hsend := hs.sendReady hfirst hds
  have hout := outTrace_sendDone_aligned hs hsend (by rwa [hbound _ harm])
  obtain ⟨hdelay, hrest⟩ := sendDone_delays hsend
  obtain ⟨-, -, hie', -, -, hq, hstream, -⟩ := sendDone_frame byte s q
  refine ⟨⟨⟨_, run_sendDone hsend⟩, ?_⟩, hs.sendDone hsend, hie'.trans hie, hq, hrest, hstream.trans hws⟩
  rw [pendingOut, hout, hdelay, hbound _ harm, hbound _ hstop, hbound _ hgap, pendingOut, sendWave]
  simp only [List.append_assoc]

/-- WRITE's own step is the first step of its SEND of the green byte (43_facade.md R119). -/
theorem run_write {s : State} {red green blue : Byte} {q : List QueueItem} (hc : cfgOk s.cfg = true)
    (hbegun : s.begun = true) (hw : waitPending s = false)
    (hq : s.queue = plainItem (.write red green blue) :: q) : runSteps (s.hostDelay + 1) s =
      .next (sendArmed green s (plainItem (.send red) :: plainItem (.send blue) :: q)) :=
  run_queued_command hc (cmdEnabled_of_queue hq hw) hq (ifBegun_of_begun ((atCommand_begun s q).trans hbegun))

/-- A WRITE of a frame sends its bytes green, red, blue (43_facade.md R120). -/
theorem emits_write {c : Cfg} {p : Pixel} {d1 d2 d3 : SendDelays} {q : List QueueItem} {ds : List Nat}
    {ws : List Word} {s : State} (hd : ∀ d ∈ [d1, d2, d3], GoodDelays c d)
    (h : FrameState c (plainItem (.write p.red p.green p.blue) :: q)
      ([d1, d2, d3].flatMap (fun d => [d.arm, d.stop, d.gap]) ++ ds) ws s) :
    ∃ u, Emits s (((wireOrder p).zip [d1, d2, d3]).flatMap (sendWave c)) u ∧ FrameState c q ds ws u := by
  have hc : cfgOk s.cfg = true := h.session.cfg ▸ h.session.legal
  obtain ⟨hgreen, h1⟩ := emits_sendDone h (hd d1 (by simp))
    (run_write hc h.session.begun h.session.noWait h.queue)
  have hc1 : cfgOk (sendDone p.green s _).cfg = true := h1.session.cfg ▸ h1.session.legal
  obtain ⟨hred, h2⟩ := emits_sendDone h1 (hd d2 (by simp))
    (run_send hc1 h1.session.begun h1.session.noWait h1.queue)
  have hc2 : cfgOk (sendDone p.red _ _).cfg = true := h2.session.cfg ▸ h2.session.legal
  obtain ⟨hblue, h3⟩ := emits_sendDone h2 (hd d3 (by simp))
    (run_send hc2 h2.session.begun h2.session.noWait h2.queue)
  refine ⟨_, ?_, h3⟩
  simpa [wireOrder] using (hgreen.trans hred).trans hblue

/-- The WRITEs of a frame, one after the other. -/
theorem emits_writes {c : Cfg} {q : List QueueItem} {ds : List Nat} {ws : List Word} (pixels : List Pixel)
    (sends : List SendDelays) (hlen : sends.length = 3 * pixels.length) (hd : ∀ d ∈ sends, GoodDelays c d) {s : State}
    (h : FrameState c (pixels.map (fun p => plainItem (.write p.red p.green p.blue)) ++ q)
      (sends.flatMap (fun d => [d.arm, d.stop, d.gap]) ++ ds) ws s) :
    ∃ u, Emits s (((pixels.flatMap wireOrder).zip sends).flatMap (sendWave c)) u ∧ FrameState c q ds ws u := by
  induction pixels generalizing sends s with
  | nil =>
    obtain rfl := List.length_eq_zero_iff.mp hlen
    exact ⟨s, Emits.refl s, h⟩
  | cons p pixels ih =>
    obtain ⟨d1, d2, d3, rest, rfl⟩ : ∃ d1 d2 d3 rest, sends = [d1, d2, d3] ++ rest := by
      match sends with
      | d1 :: d2 :: d3 :: rest => exact ⟨d1, d2, d3, rest, rfl⟩
      | [] | [_] | [_, _] =>
        simp only [List.length_cons, List.length_nil] at hlen
        omega
    rw [List.forall_mem_append] at hd
    obtain ⟨hd3, hdrest⟩ := hd
    rw [List.flatMap_append, List.append_assoc] at h
    obtain ⟨u, hpixel, hu⟩ := emits_write hd3 h
    have hlen' : rest.length = 3 * pixels.length := by
      simp only [List.length_append, List.length_cons, List.length_nil] at hlen
      omega
    obtain ⟨v, hrest, hv⟩ := ih rest hlen' hdrest hu
    refine ⟨v, ?_, hv⟩
    have hthree : (wireOrder p).length = [d1, d2, d3].length := rfl
    rw [List.flatMap_cons, List.zip_append hthree, List.flatMap_append]
    exact hpixel.trans hrest

/-! ### A frame carried out -/

/-- What a session is made of: another state with these fields is in the session too. -/
theorem Session.of_fields {c : Cfg} {s u : State} (hs : Session c s) (hcfg : u.cfg = s.cfg)
    (hbegun : u.begun = s.begun) (hlc : u.lc = s.lc) (hsh : u.sh = s.sh) (htop : u.tm.top = s.tm.top)
    (hcmp : u.tm.cmp = s.tm.cmp) (hw : waitPending u = false) : Session c u where
  legal := hs.legal
  cfg := hcfg.trans hs.cfg
  begun := hbegun.trans hs.begun
  ready := by rw [hlc]; exact hs.ready
  enabled := by rw [hsh]; exact hs.enabled
  idle := by rw [hsh]; exact hs.idle
  ckph := by rw [hsh]; exact hs.ckph
  div := by rw [hsh]; exact hs.div
  top := htop.trans hs.top
  cmp := hcmp.trans hs.cmp
  noWait := hw

/-- WRITE_ALL's own step, taken from the stream after the host's delay. -/
theorem frame_begins {c : Cfg} {s : State} {pixels : List Pixel} {ws : List Word} {d : Nat} {ds : List Nat}
    (hs : Session c s) (hlen : pixels.length ≤ maxPixels) (hq : s.queue = [])
    (hstream : s.stream = encode (.writeAll pixels) ++ ws) (hds : s.delays = d :: ds) :
    ∃ u, runSteps (s.hostDelay + 1) s = .next u ∧ FrameState c (afterIrqOff pixels) ds ws u ∧
      pendingOut u = pendingOut s ++ List.replicate (min d c.lMax) false := by
  have hdecode : decode s.stream = .ok (.writeAll pixels) ws := by
    rw [hstream]
    exact decodeOfEncode (.writeAll pixels) ws (decide_eq_true hlen)
  have hen : cmdEnabled s = true := (cmdEnabled_iff s).mpr
    ⟨(restEmpty_eq_false_iff s).mpr (.inr fun h => by rw [h] at hdecode; cases hdecode), hs.noWait⟩
  have hfetch : fetch (clearWait (ticks s.hostDelay s)) =
      .cmd (.writeAll pixels) false ((atCommand s []).setStream ws) := by
    have hqueue : (clearWait (ticks s.hostDelay s)).queue = [] := by rw [clearWait_queue, ticks_queue, hq]
    have hdec : decode (clearWait (ticks s.hostDelay s)).stream = .ok (.writeAll pixels) ws := by
      rw [clearWait_stream, ticks_stream, hdecode]
    rw [fetch_of_decode hqueue hdec, atCommand, ← hqueue]
    rfl
  have hx : exec (.writeAll pixels) ((atCommand s []).setStream ws) = .next _ :=
    ifBegun_of_begun (s := (atCommand s []).setStream ws) ((atCommand_begun s []).trans hs.begun)
  have hrun := run_next_command (hs.cfg ▸ hs.legal) hen hfetch hx
  have hsh := atCommand_sh_of_idle hs.idle []
  obtain ⟨-, htop, hcmp, -⟩ := ticks_tm_fields s.hostDelay s
  have hgiven : ((atCommand s []).setStream ws).delays = d :: ds := (atCommand_delays s []).trans hds
  obtain ⟨hdelay, hrest⟩ := frameBegun_delays (pixels := pixels) hgiven
  refine ⟨frameBegun pixels ((atCommand s []).setStream ws), hrun, ⟨?session, ?_, ?_, hrest, ?_⟩, ?pending⟩
  case session =>
    refine hs.of_fields ?_ ?_ ?_ ?_ ?_ ?_ (waitPending_of_none (by simp [frameBegun])) <;> simp [frameBegun, *]
  case pending =>
    have hcfg : ((atCommand s []).setStream ws).cfg = c := (atCommand_cfg s []).trans hs.cfg
    have hout : (frameBegun pixels ((atCommand s []).setStream ws)).outTrace = pendingOut s := by
      rw [pendingOut, ← outTrace_ticks_low hs.idle hs.ready]
      exact outTrace_congr (by simp [frameBegun])
    rw [pendingOut, hout, hdelay, hcfg]
  all_goals simp [frameBegun]

/-- A WRITE_ALL carried out from the stream, to the end of its latch delay. -/
theorem run_frame {c : Cfg} {s : State} {p : FramePlan} {ws : List Word} {ds : List Nat} (hs : Session c s)
    (hp : p.good c) (hq : s.queue = []) (hstream : s.stream = encode (.writeAll p.pixels) ++ ws)
    (hds : s.delays = p.delays ++ ds) : ∃ n u, runSteps n s = .next u ∧ Session c u ∧ u.queue = [] ∧
      u.stream = ws ∧ u.delays = ds ∧ u.hostDelay = p.afterLatch ∧
      u.outTrace = pendingOut s ++ frameWave c p := by
  obtain ⟨hmax, hlen, hgood, -⟩ := hp
  have hgiven : s.delays = p.afterIrqOff :: (p.sends.flatMap (fun d => [d.arm, d.stop, d.gap]) ++
      p.afterIrqOn :: p.afterLatch :: ds) := by
    rw [hds, FramePlan.delays]
    simp
  obtain ⟨u, hrun, hu, hpend⟩ := frame_begins hs hmax hq hstream hgiven
  obtain ⟨v, ⟨⟨n, hsends⟩, hwave⟩, hv⟩ := emits_writes p.pixels p.sends hlen hgood hu
  have hc : cfgOk v.cfg = true := hv.session.cfg ▸ hv.session.legal
  have hend := run_frameEnd (q := []) hv.delays hc hv.session.noWait hv.queue
  obtain ⟨hdelay, hrest⟩ := frameEnd_delays (q := []) hv.delays
  obtain ⟨hcfg, hsh, htm, hlc, -, hbegun, hqueue, hws, -⟩ := frameEnd_frame (q := []) hv.delays hv.session.idle
  obtain ⟨-, htop, hcmp, -⟩ := ticks_tm_fields (v.hostDelay + p.afterIrqOn + v.cfg.latchTicks) v
  have hout := outTrace_frameEnd (q := []) hv.delays hv.session.idle hv.session.ready
  refine ⟨_, _, runSteps_trans (runSteps_trans hrun hsends) hend, ?session, hqueue, hws.trans hv.stream, hrest, hdelay,
    ?samples⟩
  case session =>
    exact hv.session.of_fields hcfg hbegun hlc hsh (by rw [htm, htop]) (by rw [htm, hcmp]) (waitPending_frameEnd v [])
  case samples =>
    have hlow : v.outTrace ++ List.replicate (v.hostDelay + p.afterIrqOn + v.cfg.latchTicks) false =
        pendingOut v ++ List.replicate (p.afterIrqOn + c.latchTicks) false := by
      rw [pendingOut, List.append_assoc, ← List.replicate_add, hv.session.cfg, Nat.add_assoc]
    rw [hout, hlow, hwave, hpend, frameWave, FramePlan.plannedSends]
    simp only [List.append_assoc]

/-- The frames of a stream carried out, to the end of the run (R138). -/
theorem run_frames {c : Cfg} (plans : List FramePlan) (hplans : ∀ p ∈ plans, p.good c) {s : State}
    (hs : Session c s) (hq : s.queue = []) (hstream : s.stream = plans.flatMap (fun p => encode (.writeAll p.pixels)))
    (hds : s.delays = plans.flatMap FramePlan.delays) :
    ∃ n u, runSteps n s = .next u ∧ RunOver u ∧ u.outTrace = s.outTrace ++ framesWave c s.hostDelay plans := by
  induction plans generalizing s with
  | nil =>
    have hrest : restEmpty s = true := by
      rw [restEmpty, hq, hstream]
      rfl
    exact ⟨0, s, rfl, ⟨hrest, hs.noWait⟩, (List.append_nil _).symm⟩
  | cons p plans ih =>
    obtain ⟨hp, hplans⟩ := List.forall_mem_cons.mp hplans
    obtain ⟨m, u, hm, hu, huq, hustream, huds, hudelay, huout⟩ := run_frame hs hp hq hstream hds
    obtain ⟨n, v, hn, hv, hvout⟩ := ih hplans hu huq hustream huds
    refine ⟨m + n, v, runSteps_trans hm hn, hv, ?_⟩
    rw [hvout, huout, hudelay, framesWave, pendingOut]
    simp only [List.append_assoc]

/-! ### The start of a driver run -/

/-- A combiner that is off records low samples. -/
theorem outTrace_ticks_of_disabled {s : State} (h : s.lc.en = false) (n : Nat) :
    (ticks n s).outTrace = s.outTrace ++ List.replicate n false := by
  have hlow : ∀ j, outPin (ticks j s) = false := fun j => outPin_of_disabled (by rw [ticks_lc, h])
  rw [outTrace_ticks]
  simp only [hlow, List.map_const', List.length_range]

/-- A driver run after its BEGIN, the host having let `d1` and `d2` ticks pass in it. -/
def driverBegun (c : Cfg) (d1 d2 d3 : Nat) (plans : List FramePlan) : State :=
  let words := plans.flatMap (fun p => encode (.writeAll p.pixels))
  let delays := plans.flatMap FramePlan.delays
  afterLcCfg (afterTmCfg (afterBegin (driverStart c [d1, d2, d3] plans) words d1 (d2 :: d3 :: delays)) d2
    (d3 :: delays)) d3 delays

theorem run_driverBegun {c : Cfg} (hc : cfgOk c = true) (d1 d2 d3 : Nat) (plans : List FramePlan) :
    runSteps (1 + d1 + 1 + d2 + 1) (driverStart c [d1, d2, d3] plans) = .next (driverBegun c d1 d2 d3 plans) :=
  run_begin_through hc rfl rfl rfl rfl rfl rfl rfl rfl rfl rfl

theorem session_driverBegun {c : Cfg} (hc : cfgOk c = true) (hmask : c.lutMask = 0xF0#8)
    (hfinal : c.lutFinal = 0xE0#8) (d1 d2 d3 : Nat) (plans : List FramePlan) :
    Session c (driverBegun c d1 d2 d3 plans) where
  legal := hc
  cfg := rfl
  begun := rfl
  ready := by
    rw [CombinerReady, ← hmask, ← hfinal]
    rfl
  enabled := rfl
  idle := rfl
  ckph := rfl
  div := rfl
  top := rfl
  cmp := rfl
  noWait := rfl

/-- The combiner is off to the end of BEGIN (43_facade.md R115). -/
theorem outTrace_driverBegun (c : Cfg) (d1 d2 d3 : Nat) (plans : List FramePlan) :
    (driverBegun c d1 d2 d3 plans).outTrace = List.replicate (d1 + d2) false := by
  have hlc : ∀ (s : State) (d : Nat) (ds : List Nat), s.lc.en = false →
      (afterLcCfg s d ds).outTrace = s.outTrace ++ List.replicate s.hostDelay false := fun s _ _ h =>
    (outTrace_congr rfl).trans (outTrace_ticks_of_disabled h s.hostDelay)
  have htm : ∀ (s : State) (d : Nat) (ds : List Nat), s.lc.en = false →
      (afterTmCfg s d ds).outTrace = s.outTrace ++ List.replicate s.hostDelay false := fun s _ _ h =>
    (outTrace_congr rfl).trans (outTrace_ticks_of_disabled h s.hostDelay)
  rw [driverBegun, hlc _ _ _ rfl, htm _ _ _ rfl, List.append_assoc]
  exact List.replicate_append_replicate

/-- Settles O50: BEGIN, then the frames one after the other, by induction on the plans; the observer reads the
samples they record, frame by frame. -/
theorem driverRunDecodes : Obligations.DriverRunDecodes := by
  intro c d1 d2 d3 thOne plans hc hmask hfinal hlow hhigh hplans
  obtain ⟨n, u, hn, hover, hout⟩ :=
    run_frames plans hplans (session_driverBegun hc hmask hfinal d1 d2 d3 plans) rfl rfl rfl
  refine ⟨_, u, runSteps_trans (run_driverBegun hc d1 d2 d3 plans) hn, hover, ?_⟩
  rw [decodeWave_eq_readFrom, hout, outTrace_driverBegun, readFrom_low]
  exact readFrom_framesWave ((cfgOk_iff c).mp hc) hlow hhigh plans hplans _ _

end Sys2Proof.Machine
end
